-- ==== Sys2Proof/Word.lean ====
section
/-! DEFINITION. The word types of the engine: every quantity on the wire and in a register is a bit vector of the
width 10_state.md and 30_encoding.md give it. -/

namespace Sys2Proof

/-- A stream byte, 0..255 (R3 `BYTE_BITS`). -/
abbrev Byte := BitVec 8

/-- A port or channel index: the low nibble of a channel command (R70, R78). -/
abbrev Nibble := BitVec 4

/-- The seven payload bits of a data byte (R70); also a pin number and a stepper index (R50). -/
abbrev Data7 := BitVec 7

/-- The 14-bit value of a digital or analog message (R77). -/
abbrev Word14 := BitVec 14

/-- An address, register or value of an extension reply, 0..32767 (R33, R79). -/
abbrev Word15 := BitVec 15

/-- A port register (R29, `PORT_BITS`). -/
abbrev Word16 := BitVec 16

end Sys2Proof
end

