-- ==== Sys2Proof/Config.lean ====
section
/-! DEFINITION. What is fixed for one engine (00_scope.md R3), the open parameters, and the one free value: the
answer of the ByteSink to a write (60_exceptions.md R210). -/

namespace Sys2Proof

/-- What the ByteSink answers to one write (R210): `Ok`, or `Fail(e)` with a failure value of the sink's own.
DESIGN CHOICE (log 5): `e` is opaque in the spec; any countable stock of distinct values serves, here `Nat`. -/
inductive SinkAnswer where
  | ok
  | fail (e : Nat)
  deriving DecidableEq, Repr, Inhabited

namespace Config

/-- `SYSEX_CAP` (R3): the capacity of `sysexBuffer` in bytes. -/
def sysexCap : Nat := 4096

/-- `UNMAPPED` (R3): a pin without an analog channel. -/
def unmapped : Byte := 127

/-- `MULTIBYTE_LEN` (R3): the data bytes after a DIGITAL, ANALOG or VERSION command byte. -/
def multiByteLen : Nat := 2

/-- FREE VALUE (log 5): the answer of the ByteSink to the write with this number, "a free choice of the
environment" (R210, U10). No body: nothing can be proved of it. It is read only where the state's `sinkScript`
names no answer. -/
opaque sinkAnswer : Nat → SinkAnswer

end Config

/-- The open parameters of R3, "an argument of the model". -/
structure Params where
  /-- The index of the last stepper: `N_STEPPERS = lastStepper + 1`, 1..128. -/
  lastStepper : Data7
  /-- `STEPPER_STEP_SUBOP`, 0..127. -/
  stepSubop : Data7
  deriving DecidableEq, Repr

/-- `N_STEPPERS` (R3). -/
def Params.nSteppers (p : Params) : Nat := p.lastStepper.toNat + 1

/-- The spec's defaults: `N_STEPPERS = 128`, `STEPPER_STEP_SUBOP = 0x02`. PRESUMED (log 6): the second comes "from
general knowledge" in the spec itself. -/
def Params.default : Params := { lastStepper := 127, stepSubop := 0x02 }

end Sys2Proof
end

