-- ==== Sys2Proof/Syntax.lean ====
section
/-! DEFINITION. The whole syntax: one constructor of `Instr` for each of the 59 rows of spec/opcode_table.json, and
what the caller hands to the engine's ports (`Call`, `Query`, `Transaction`). -/

namespace Sys2Proof

/-- Which multi-byte message is being collected (R22). -/
inductive ActiveCmd where
  | none
  | digital
  | analog
  | version
  deriving DecidableEq, Repr

/-- In what context the parser reads the next byte: the modes of R28, AWAITING_MULTIBYTE with the message being
collected, IN_SYSEX split by `overflowed` as in the summary table of 41_stream_parser.md section 6. -/
inductive RxContext where
  | idle
  | awaiting (cmd : ActiveCmd)
  | inSysex
  | overflowed
  deriving DecidableEq, Repr

/-- The part of a `CH2` frame (R71) that one RX instruction covers: the whole frame, or, where the caller delivers
the frame piecemeal, its first byte (R103, R104) or one data byte (R108). -/
inductive ChannelFrame where
  | whole (n : Nibble) (l h : Data7)
  | first (n : Nibble)
  | data (d : Data7)
  deriving DecidableEq, Repr

/-- The part of a REPORT_VERSION frame (R71, `SYS2`) that one RX instruction covers (R105, R108). -/
inductive VersionFrame where
  | whole (major minor : Data7)
  | first
  | data (d : Data7)
  deriving DecidableEq, Repr

/-- The operand of `encodeCustomFloat`: "an exact rational" (R185, D18), or something that is no finite real
(R185 "anything that is not a finite real"). -/
inductive RealOperand where
  | finite (q : Rat)
  | nonFinite
  deriving DecidableEq, Repr

/-- The instructions: every incoming frame kind, encoder operation, control operation and codec function of
spec/opcode_table.json. `args` is a payload tail: the payload bytes after the row's fixed prefix, without
END_SYSEX. -/
inductive Instr where
  -- incoming, short (30_encoding.md R84, 41_stream_parser.md)
  | digitalMessageRx (f : ChannelFrame)
  | analogMessageRx (f : ChannelFrame)
  | reportVersionRx (f : VersionFrame)
  | startSysexRx
  | endSysexRx
  | sysexPayloadByteRx (b : Byte)
  | abandonMultibyteRx (b : Data7)
  | strayDataRx (d : Data7)
  | unassigned8xRx (n : Nibble)
  | unassignedAxBxRx (x : Bool) (n : Nibble)
  | reportAnalogRx (n : Nibble)
  | reportDigitalRx (n : Nibble)
  | unassignedF1Rx
  | unassignedF2Rx
  | unassignedF3Rx
  | setPinModeRx
  | unassignedF5Rx
  | unassignedF6Rx
  | unassignedF8Rx
  | unassignedFARx
  | unassignedFBRx
  | unassignedFCRx
  | unassignedFDRx
  | unassignedFERx
  | systemResetRx
  -- incoming, sysex frames (30_encoding.md R73, 42_sysex_dispatcher.md)
  | analogMappingResponseRx (args : List Byte)
  | stepperMoveCompleteRx (args : List Byte)
  | extensionReplyRx (args : List Byte)
  | emptySysexRx
  | stepperRequestOtherRx (args : List Byte)
  | analogMappingQueryRx (args : List Byte)
  | capabilityQueryRx (args : List Byte)
  | capabilityResponseRx (args : List Byte)
  | pinStateQueryRx (args : List Byte)
  | pinStateResponseRx (args : List Byte)
  | extendedAnalogRx (args : List Byte)
  | servoConfigRx (args : List Byte)
  | stringDataRx (args : List Byte)
  | extensionRequestRx (args : List Byte)
  | extensionConfigRx (args : List Byte)
  | reportFirmwareRx (args : List Byte)
  | samplingIntervalRx (args : List Byte)
  | unknownSysexRx (sub : Byte) (args : List Byte)
  -- encoder operations (43_command_encoder.md)
  | setPinMode (pin mode : Int)
  | digitalWrite (pin value : Int)
  | analogWrite (pin value : Int)
  | servoWrite (pin value : Int)
  | sendSysex (payload : List Byte)
  | reportAnalog (channel : Int) (enable : Bool)
  | reportDigital (port : Int) (enable : Bool)
  | stepperStep (index steps : Int)
  -- control (70_reset_and_hazards.md R231)
  | reset
  -- codec functions (44_numeric_codec.md)
  | split14 (v : Int)
  | join14 (lo hi : Int)
  | encodeSigned32 (value : Int)
  | decodeSigned32 (b0 b1 b2 b3 b4 : Byte)
  | encodeCustomFloat (value : RealOperand)
  | pack (sign sig ef : Int)
  | decodeCustomFloat (b0 b1 b2 b3 : Byte)
  deriving DecidableEq, Repr

/-- `name(operand, ...)`, the source's "assembler" (R82), with operands of the kinds the operations have: "operands are
integers" (R152), booleans (R158, R159), a byte sequence (R157), the 5 and 4 bytes of the decoders, "each 0..255" (R183,
R187; log 22), and reals (R185). DESIGN CHOICE (log 11): an operand of another kind cannot be written; every call that can
be written is answered. -/
inductive Call where
  | setPinMode (pin mode : Int)
  | digitalWrite (pin value : Int)
  | analogWrite (pin value : Int)
  | servoWrite (pin value : Int)
  | sendSysex (payload : List Byte)
  | reportAnalog (channel : Int) (enable : Bool)
  | reportDigital (port : Int) (enable : Bool)
  | stepperStep (index steps : Int)
  | reset
  | split14 (v : Int)
  | join14 (lo hi : Int)
  | encodeSigned32 (value : Int)
  | decodeSigned32 (b0 b1 b2 b3 b4 : Byte)
  | encodeCustomFloat (value : RealOperand)
  | pack (sign sig ef : Int)
  | decodeCustomFloat (b0 b1 b2 b3 : Byte)
  deriving DecidableEq, Repr

/-- A read of one element of Device State on the QUERY port (R5, R39). -/
inductive Query where
  | port (n : Nibble)
  | pinMode (pin : Data7)
  | pinAnalogChannel (pin : Data7)
  | analogValue (channel : Nibble)
  | extReply (address register : Word15)
  | stepperStatus (index : Data7)
  | fwVersion
  deriving DecidableEq, Repr

/-- One transaction of the caller on a port of R5: `feed` of one or more received bytes in arrival order (RX, the
notation `feed([...])` of R82; a single `feed(b)` is the one-byte list), a call (CMD; the codec functions of R180
are called the same way), a read (QUERY), construction (RST). DESIGN CHOICE (log 1, log 2). -/
inductive Transaction where
  | feed (bytes : List Byte)
  | call (c : Call)
  | query (q : Query)
  | construct
  deriving DecidableEq, Repr

end Sys2Proof
end

