-- ==== Sys2Proof/Machine/Wire.lean ====
section
/-! DEFINITION. The Wire Constants (30_encoding.md R70 to R76): a fixed table, no logic. -/

namespace Sys2Proof.Wire

/-! Command bytes, R72. -/

@[simp] def digitalMessage : Byte := 0x90
@[simp] def reportAnalog : Byte := 0xC0
@[simp] def reportDigital : Byte := 0xD0
@[simp] def analogMessage : Byte := 0xE0
@[simp] def startSysex : Byte := 0xF0
@[simp] def setPinMode : Byte := 0xF4
@[simp] def endSysex : Byte := 0xF7
@[simp] def reportVersion : Byte := 0xF9
@[simp] def systemReset : Byte := 0xFF

/-! Sysex sub-commands, R73, and the one stepper sub-opcode with a value, R74. -/

@[simp] def stepperRequest : Byte := 0x62
@[simp] def analogMappingQuery : Byte := 0x69
@[simp] def analogMappingResponse : Byte := 0x6A
@[simp] def capabilityQuery : Byte := 0x6B
@[simp] def capabilityResponse : Byte := 0x6C
@[simp] def pinStateQuery : Byte := 0x6D
@[simp] def pinStateResponse : Byte := 0x6E
@[simp] def extendedAnalog : Byte := 0x6F
@[simp] def servoConfig : Byte := 0x70
@[simp] def stringData : Byte := 0x71
@[simp] def extensionRequest : Byte := 0x76
@[simp] def extensionReply : Byte := 0x77
@[simp] def extensionConfig : Byte := 0x78
@[simp] def reportFirmware : Byte := 0x79
@[simp] def samplingInterval : Byte := 0x7A
@[simp] def moveComplete : Byte := 0x0A

/-- The sub-commands that R73 names: every other payload byte 0 is an unknown one. -/
def namedSubCommands : List Byte :=
  [stepperRequest, analogMappingQuery, analogMappingResponse, capabilityQuery, capabilityResponse, pinStateQuery,
    pinStateResponse, extendedAnalog, servoConfig, stringData, extensionRequest, extensionReply, extensionConfig,
    reportFirmware, samplingInterval]

/-- The three classes of R70. -/
inductive ByteClass where
  | data
  | channelCommand
  | systemCommand
  deriving DecidableEq, Repr

/-- Every byte belongs to exactly one class, by its value alone (R70). -/
def byteClass (b : Byte) : ByteClass :=
  if b.toNat < 0x80 then .data else if b.toNat < 0xF0 then .channelCommand else .systemCommand

/-- A data byte: bit 7 is 0 (R70). -/
def isData (b : Byte) : Bool := b.toNat < 0x80

/-- The low nibble of a channel command, `byte & 0x0F` (R78). -/
def lowNibble (b : Byte) : Nibble := b.setWidth 4

/-- The seven payload bits of a byte (R70). -/
def low7 (b : Byte) : Data7 := b.setWidth 7

/-- `command | index` (R78). -/
def channelByte (cmd : Byte) (n : Nibble) : Byte := cmd ||| n.setWidth 8

/-- The data byte that carries seven bits (R70): bit 7 is 0. -/
def dataByte (d : Data7) : Byte := d.setWidth 8

end Sys2Proof.Wire
end

