-- ==== Sys2Proof/Machine/Codec.lean ====
section
/-! DEFINITION. The Numeric Codec (44_numeric_codec.md): pure functions, no state (R180). `none` stands for
`Error(InvalidArgument)`. The custom float is computed in exact arithmetic on a fraction `num / den` of naturals
(R185, R189; log 16). -/

namespace Sys2Proof.Codec

/-- `v[hi:lo]` of 00_scope.md section 6: `(v >> lo) mod 2^(hi-lo+1)`. -/
def bits (v hi lo : Nat) : Nat := (v >>> lo) % 2 ^ (hi - lo + 1)

/-- The bytes of a list of small naturals. -/
def toBytes (vs : List Nat) : List Byte := vs.map (BitVec.ofNat 8)

/-- The two data bytes of a 14-bit value (R77, R181): `[v & 0x7F, v >> 7]`. -/
def split14Bytes (v : Nat) : List Byte := toBytes [v &&& 0x7F, v >>> 7]

/-- `split14(v)`, 0 <= v < 16384 (R181); outside its domain `InvalidArgument` by R180 (DEDUCED, log 12). -/
def split14 (v : Int) : Option (List Byte) :=
  if 0 ≤ v ∧ v < 16384 then some (split14Bytes v.toNat) else none

/-- `join14(lo, hi) = lo | (hi << 7)` for any bytes, 0..32767 (R79, R181). -/
def join14 (lo hi : Byte) : Word15 := lo.setWidth 15 ||| (hi.setWidth 15 <<< 7)

/-- `join14(lo, hi)` on integers: both must be bytes (R181); outside its domain `InvalidArgument` by R180 (DEDUCED,
log 22). -/
def join14Operands (lo hi : Int) : Option Word15 :=
  if (0 ≤ lo ∧ lo ≤ 255) ∧ (0 ≤ hi ∧ hi ≤ 255) then some (join14 (BitVec.ofInt 8 lo) (BitVec.ofInt 8 hi)) else none

/-- `encodeSigned32(value)`, sign and magnitude in five bytes (R182). -/
def encodeSigned32 (v : Int) : Option (List Byte) :=
  if v < -(2 ^ 31 - 1) ∨ v > 2 ^ 31 - 1 then none
  else
    let m := v.natAbs
    some (toBytes [bits m 6 0, bits m 13 7, bits m 20 14, bits m 27 21,
      bits m 30 28 + (if v < 0 then 0x08 else 0)])

/-- `decodeSigned32`, total on any five bytes (R183). The groups do not overlap, so `|` is `+` (R188). -/
def decodeSigned32 (b0 b1 b2 b3 b4 : Byte) : Int :=
  let m := bits b0.toNat 6 0 + bits b1.toNat 6 0 <<< 7 + bits b2.toNat 6 0 <<< 14
    + bits b3.toNat 6 0 <<< 21 + bits b4.toNat 2 0 <<< 28
  if bits b4.toNat 3 3 = 1 then -(m : Int) else (m : Int)

/-- `pack(sign, sig, ef)` on operands in range (R186). The fields do not overlap, so `|` is `+` (R188). -/
def packBytes (sign sig ef : Nat) : List Byte :=
  toBytes [bits sig 6 0, bits sig 13 7, bits sig 20 14, bits sig 22 21 + ef <<< 2 + sign <<< 6]

/-- `pack(sign, sig, ef)` for `sign` in 0..1, `sig` in 0..2^23 - 1, `ef` in 0..15 (R186); outside its domain
`InvalidArgument` by R180 (DEDUCED, log 12). -/
def pack (sign sig ef : Int) : Option (List Byte) :=
  if (0 ≤ sign ∧ sign ≤ 1) ∧ (0 ≤ sig ∧ sig < 2 ^ 23) ∧ (0 ≤ ef ∧ ef ≤ 15) then
    some (packBytes sign.toNat sig.toNat ef.toNat)
  else none

/-- The scan for `floor(log10(num / den))` when `den <= num`: `den` grows by tens while it still fits. -/
def log10Up : Nat → Nat → Nat → Int → Int
  | 0, _, _, e => e
  | fuel + 1, num, den, e => if den * 10 ≤ num then log10Up fuel num (den * 10) (e + 1) else e

/-- The scan for `floor(log10(num / den))` when `num < den`: `num` grows by tens until it reaches `den`. -/
def log10Down : Nat → Nat → Nat → Int → Int
  | 0, _, _, e => e
  | fuel + 1, num, den, e => if num < den then log10Down fuel (num * 10) den (e - 1) else e

/-- `floor(log10(num / den))`, "the integer with 10^e <= a < 10^(e+1)" (R185), for positive `num` and `den`. -/
def floorLog10 (num den : Nat) : Int :=
  if den ≤ num then log10Up (Nat.log2 num + 1) num den 0 else log10Down (Nat.log2 den + 1) num den 0

/-- The running values of the normalisation of R185: `m = num / den` and the running exponent `e`. -/
structure Scaled where
  num : Nat
  den : Nat
  e : Int
  deriving DecidableEq, Repr

/-- `while m is not an integer and m < 2^23 do m <- m * 10 ; e <- e - 1` (R185, at most 7 iterations). -/
def scaleUp : Nat → Scaled → Scaled
  | 0, x => x
  | fuel + 1, x =>
    if x.num % x.den ≠ 0 ∧ x.num < 2 ^ 23 * x.den then scaleUp fuel { x with num := x.num * 10, e := x.e - 1 } else x

/-- `while m > 2^23 do m <- m / 10 ; e <- e + 1` (R185, at most one iteration). -/
def scaleDown : Nat → Scaled → Scaled
  | 0, x => x
  | fuel + 1, x =>
    if 2 ^ 23 * x.den < x.num then scaleDown fuel { x with den := x.den * 10, e := x.e + 1 } else x

/-- `m = a / 10^e` with `e = floor(log10(a))` (R185), for `a = num / den`. -/
def normalise (num den : Nat) : Scaled :=
  let e := floorLog10 num den
  if 0 ≤ e then { num := num, den := den * 10 ^ e.toNat, e := e }
  else { num := num * 10 ^ (-e).toNat, den := den, e := e }

/-- The values of R185 after both loops, for `a = |v|`. -/
def scaled (v : Rat) : Scaled := scaleDown 2 (scaleUp 8 (normalise v.num.natAbs v.den))

/-- `sig = floor(m)`, before it is reduced to 23 bits (R185). -/
def significand (v : Rat) : Nat := (scaled v).num / (scaled v).den

/-- The final running exponent (R185, 90_conflicts.md C11), for `v` not 0; at 0 the spec gives none (log 21). -/
def finalExponent (v : Rat) : Int := (scaled v).e

/-- `floatExpInRange(v)`: the final exponent is within -11..4 (R185, R242), for `v` not 0. DESIGN CHOICE (log 21): for
0, which R185 refuses before there is a final exponent, the spec gives the predicate no value; this total definition
answers true there (the search for the decade ends at exponent -1). No instruction reads it. -/
def floatExpInRange (v : Rat) : Bool := -11 ≤ finalExponent v ∧ finalExponent v ≤ 4

/-- `encodeCustomFloat(value)` (R185): zero and what is no finite real is refused (D18); exponent and significand
wrap (D20). -/
def encodeCustomFloat : RealOperand → Option (List Byte)
  | .nonFinite => none
  | .finite v =>
    if v = 0 then none
    else
      let sign := if v < 0 then 1 else 0
      let ef := ((finalExponent v + 11) % 16).toNat
      some (packBytes sign (significand v % 2 ^ 23) ef)

/-- `decodeCustomFloat`, total on any four bytes: `(-1)^sign * sig * 10^(ef - 11)` (R187). -/
def decodeCustomFloat (b0 b1 b2 b3 : Byte) : Rat :=
  let sig := bits b0.toNat 6 0 + bits b1.toNat 6 0 <<< 7 + bits b2.toNat 6 0 <<< 14 + bits b3.toNat 1 0 <<< 21
  let ef := bits b3.toNat 5 2
  let sign := bits b3.toNat 6 6
  mkRat ((if sign = 1 then -1 else 1) * (sig : Int) * 10 ^ ef) (10 ^ 11)

end Sys2Proof.Codec
end

