-- ==== Sys2Proof/Machine/State.lean ====
section
/-! DEFINITION. The state of one engine instance: ParserState and Device State, "exactly two groups" (10_state.md
R20), the open parameters (R3), and the environment's side of the five ports (R5) as plain data. -/

namespace Sys2Proof.Machine

/-- The parser's control state, "a function of ParserState, not a separate register" (R28). -/
inductive Mode where
  | idle
  | awaitingMultibyte
  | inSysex
  deriving DecidableEq, Repr

/-- A pin's mode: UNCONFIGURED or one of the eight enumerants of R75 (R30). -/
inductive PinMode where
  | unconfigured
  | input
  | output
  | analog
  | pwm
  | servo
  | shift
  | i2c
  | inputPullup
  deriving DecidableEq, Repr

/-- The firmware version, each component 0..127 (R35). -/
structure FwVersion where
  major : Data7
  minor : Data7
  deriving DecidableEq, Repr

/-- One entry of the reply store (R33): the last reply of an addressed device's register. -/
structure ReplyEntry where
  address : Word15
  register : Word15
  values : List Word15
  deriving DecidableEq, Repr

/-- A decoded event (R117). -/
inductive Event where
  | digitalPortChanged (port : Nibble) (value : Word14)
  | analogChannelChanged (channel : Nibble) (value : Word14)
  | versionReported (major minor : Data7)
  | extensionReplyReceived (address register : Word15) (values : List Word15)
  | stepperCompleted (index : Data7)
  deriving DecidableEq, Repr

/-- "The complete list of error results" (R200). The machine goes on after each: an error is what the operation
returns (R207). -/
inductive EngineError where
  | overflowError
  | invalidArgument
  | sinkError (e : Nat)
  deriving DecidableEq, Repr

/-- The value of one element of Device State, as a QUERY returns it (R39). -/
inductive Element where
  | port (v : Word16)
  | pinMode (m : PinMode)
  | pinAnalogChannel (c : Byte)
  | analogValue (v : Word14)
  | extReply (values : Option (List Word15))
  | stepperStatus (moving : Bool)
  | fwVersion (v : FwVersion)
  deriving DecidableEq, Repr

/-- What an operation returns to the caller: `None` or an event from `feed` (R117), `Ok` from a command (R150), an
error (R200), the value of a codec function (R180), the element read by a QUERY (R39). -/
inductive Response where
  | nothing
  | event (e : Event)
  | ok
  | error (e : EngineError)
  | bytes (bs : List Byte)
  | word (v : Word15)
  | integer (v : Int)
  | rational (q : Rat)
  | element (v : Element)
  deriving DecidableEq, Repr

/-- ParserState (R21 to R28). -/
structure ParserState where
  pendingByteCount : Nat
  activeCmd : ActiveCmd
  activeChannel : Nibble
  inSysex : Bool
  /-- The 4096 bytes of R25 as (index, byte) cells: indices strictly rising, no entry equal to 0, an unlisted index
  reads 0, its reset content (log 7). -/
  sysexBuffer : List Host.Cell
  sysexLength : Nat
  overflowed : Bool
  deriving DecidableEq, Repr

/-- Device State (R29 to R35). -/
structure DeviceState where
  port : Vector Word16 16
  pinMode : Vector PinMode 128
  pinAnalogChannel : Vector Byte 128
  analogValue : Vector Word14 16
  /-- Keys strictly rising. -/
  extReply : List ReplyEntry
  /-- Flag `i` exists for `i < N_STEPPERS`; true = moving (R34). -/
  stepperStatus : Vector Bool 128
  fwVersion : FwVersion
  deriving DecidableEq, Repr

/-- The whole state. -/
structure State where
  /-- the open parameters (R3), fixed for an engine (log 6) -/
  params : Params
  parser : ParserState
  device : DeviceState
  /-- what the caller is about to issue, first first (log 1) -/
  pending : List Transaction
  /-- what the operations of the current step returned, in order (log 3) -/
  returned : List Response
  /-- the bytes the ByteSink has accepted, oldest first (log 4) -/
  tx : List Byte
  /-- the ByteSink's next answers; behind them the free value `Config.sinkAnswer` answers (log 5) -/
  sinkScript : List SinkAnswer
  /-- the number of writes issued so far (log 5) -/
  sinkWrites : Nat
  deriving DecidableEq, Repr

/-- Where the model stops with a fault. None is an error of the spec: those are results (R200, R207). All are safe:
the model stops where the spec says the situation does not exist. -/
inductive Fault where
  /-- Raised by the buffer accesses of `feed` (R108, R113, R131) at an index of 4096 or above: "No access is ever
  made at an index of 4096 or above" (R51). Safe; no state that meets the invariant reaches it. -/
  | bufferIndex (index : Nat)
  /-- Raised by `feed` when a multi-byte message completes with no active command: "`activeCmd = NONE` cannot occur
  here" (R108). Safe; no state that meets the invariant reaches it. -/
  | noActiveCommand
  /-- Raised by a QUERY of a stepper flag with an index of `N_STEPPERS` or above: no such element exists (R34, R50).
  Safe (log 14). -/
  | noSuchElement (index : Nat)
  deriving DecidableEq, Repr

/-- Where the model gives no meaning: nowhere. -/
inductive Refusal where
  /-- Raised by an arm of `exec` whose instruction has no meaning yet. No arm raises it. Safe. -/
  | notModelled (mnemonic : String)
  deriving DecidableEq, Repr

/-- ParserState after construction (R230): IDLE, the buffer all 0. -/
def ParserState.reset : ParserState where
  pendingByteCount := 0
  activeCmd := .none
  activeChannel := 0
  inSysex := false
  sysexBuffer := []
  sysexLength := 0
  overflowed := false

/-- Device State after construction (R230). -/
def DeviceState.reset : DeviceState where
  port := Vector.replicate 16 0
  pinMode := Vector.replicate 128 .unconfigured
  pinAnalogChannel := Vector.replicate 128 Config.unmapped
  analogValue := Vector.replicate 16 0
  extReply := []
  stepperStatus := Vector.replicate 128 false
  fwVersion := { major := 0, minor := 0 }

/-- The machine right after construction (R230), the parameters at the spec's defaults (log 6), the environment's
side empty (log 18). -/
def State.reset : State where
  params := Params.default
  parser := ParserState.reset
  device := DeviceState.reset
  pending := []
  returned := []
  tx := []
  sinkScript := []
  sinkWrites := 0

end Sys2Proof.Machine
end

