-- ==== Sys2Proof/Machine/Ops.lean ====
section
/-! DEFINITION. The named operations over the state: results and errors, the sysex buffer, the reply store, the
Device State registers, the return to IDLE, and writing to the ByteSink. -/

namespace Sys2Proof.Machine

/-! The outcomes of an operation, in sequence. -/

/-- First `o`, then `f` on its next state; a fault or a refusal stays. -/
def andThen (o : Host.Outcome State Fault Refusal) (f : State → Host.Outcome State Fault Refusal) :
    Host.Outcome State Fault Refusal :=
  match o with
  | .next s => f s
  | .fault r => .fault r
  | .refused r => .refused r

/-! Updates of the state, one for each group of fields. -/

def State.withParser (p : ParserState) (s : State) : State := { s with parser := p }

def State.withDevice (d : DeviceState) (s : State) : State := { s with device := d }

/-- The step begins: the list of transactions that stay, and nothing returned yet (log 1, log 3). -/
def State.begin (rest : List Transaction) (s : State) : State := { s with pending := rest, returned := [] }

/-- An operation returns `r` (R100, R150, R180). -/
def State.respond (r : Response) (s : State) : State := { s with returned := s.returned ++ [r] }

/-- TAKING AN ERROR, the one shared operation (R207): "Nothing is saved, no mode changes, no handler runs: the error
is the return value of the operation", and the next operation runs normally. -/
def raiseError (e : EngineError) (s : State) : State := s.respond (.error e)

/-- The numeric code of an error (R200, D25). -/
def EngineError.code : EngineError → Nat
  | .overflowError => 1
  | .invalidArgument => 2
  | .sinkError _ => 3

/-- `mode <- IDLE` (R28), the return from an overflow (R208) and from every completed message. -/
def ParserState.toIdle (p : ParserState) : ParserState :=
  { p with
    inSysex := false
    overflowed := false
    pendingByteCount := 0
    activeCmd := .none
    activeChannel := 0
    sysexLength := 0 }

/-! The sysex buffer (R25, R50, R51, R55): byte accesses at indices 0..4095. An unlisted index reads 0, the reset
content (D27, log 7). -/

/-- What index `a` holds. -/
def Memory.get : List Host.Cell → Nat → Byte
  | [], _ => 0
  | (k, v) :: rest, a => if k = a then v else Memory.get rest a

/-- `b` stored at index `a`, the canonical form kept. -/
def Memory.put : List Host.Cell → Nat → Byte → List Host.Cell
  | [], a, b => if b = 0 then [] else [(a, b)]
  | (k, v) :: rest, a, b =>
    if k < a then (k, v) :: Memory.put rest a b
    else if k = a then (if b = 0 then rest else (a, b) :: rest)
    else (if b = 0 then (k, v) :: rest else (a, b) :: (k, v) :: rest)

/-- The canonical form: indices below 4096 and strictly rising, no entry equal to 0. -/
def Memory.wf : List Host.Cell → Bool
  | [] => true
  | (k, v) :: rest => decide (k < Config.sysexCap) && v ≠ 0 && rest.all (fun c => k < c.1) && Memory.wf rest

/-- `MemRead(addr, 1)` (00_scope.md section 6), for `0 <= addr < 4096`. -/
def Memory.read (m : List Host.Cell) (a : Nat) : Option Byte :=
  if a < Config.sysexCap then some (Memory.get m a) else none

/-- `MemWrite(addr, 1, v)` (00_scope.md section 6), for `0 <= addr < 4096`. -/
def Memory.write (m : List Host.Cell) (a : Nat) (b : Byte) : Option (List Host.Cell) :=
  if a < Config.sysexCap then some (Memory.put m a b) else none

/-- `buffer[a .. a+n-1]`. -/
def Memory.readRange (m : List Host.Cell) : Nat → Nat → Option (List Byte)
  | _, 0 => some []
  | a, n + 1 =>
    match Memory.read m a, Memory.readRange m (a + 1) n with
    | some b, some bs => some (b :: bs)
    | _, _ => none

/-! The reply store (R33, R61): a finite map with overwrite, canonical by rising keys. -/

/-- The composite key `(address, register)` as one number, to order the entries. -/
def ReplyStore.key (address register : Word15) : Nat := address.toNat * 2 ^ 15 + register.toNat

def ReplyEntry.key (e : ReplyEntry) : Nat := ReplyStore.key e.address e.register

/-- `extReply[(address, register)]`; `none` is "absent" (R39), different from the empty sequence (R33). -/
def ReplyStore.lookup : List ReplyEntry → Word15 → Word15 → Option (List Word15)
  | [], _, _ => none
  | e :: rest, address, register =>
    if e.address = address ∧ e.register = register then some e.values else ReplyStore.lookup rest address register

/-- `extReply[(address, register)] <- values`: "overwrite, never merge" (R135). -/
def ReplyStore.insert : List ReplyEntry → ReplyEntry → List ReplyEntry
  | [], n => [n]
  | e :: rest, n =>
    if e.key < n.key then e :: ReplyStore.insert rest n
    else if e.key = n.key then n :: rest
    else n :: e :: rest

/-- The canonical form: keys strictly rising, each sequence at most 2045 long (R33). -/
def ReplyStore.wf : List ReplyEntry → Bool
  | [] => true
  | e :: rest => decide (e.values.length ≤ 2045) && rest.all (fun x => e.key < x.key) && ReplyStore.wf rest

/-! The Device State registers (R29 to R35), read and written through these alone. -/

def DeviceState.portAt (d : DeviceState) (n : Nibble) : Word16 := d.port[n.toNat]'n.isLt

def DeviceState.setPort (d : DeviceState) (n : Nibble) (v : Word16) : DeviceState :=
  { d with port := d.port.set n.toNat v n.isLt }

def DeviceState.pinModeAt (d : DeviceState) (pin : Data7) : PinMode := d.pinMode[pin.toNat]'pin.isLt

def DeviceState.setPinMode (d : DeviceState) (pin : Data7) (m : PinMode) : DeviceState :=
  { d with pinMode := d.pinMode.set pin.toNat m pin.isLt }

def DeviceState.pinAnalogChannelAt (d : DeviceState) (pin : Data7) : Byte := d.pinAnalogChannel[pin.toNat]'pin.isLt

def DeviceState.setPinAnalogChannels (d : DeviceState) (v : Vector Byte 128) : DeviceState :=
  { d with pinAnalogChannel := v }

def DeviceState.analogValueAt (d : DeviceState) (channel : Nibble) : Word14 :=
  d.analogValue[channel.toNat]'channel.isLt

def DeviceState.setAnalogValue (d : DeviceState) (channel : Nibble) (v : Word14) : DeviceState :=
  { d with analogValue := d.analogValue.set channel.toNat v channel.isLt }

def DeviceState.replyAt (d : DeviceState) (address register : Word15) : Option (List Word15) :=
  ReplyStore.lookup d.extReply address register

def DeviceState.setReply (d : DeviceState) (address register : Word15) (values : List Word15) : DeviceState :=
  { d with extReply := ReplyStore.insert d.extReply { address := address, register := register, values := values } }

def DeviceState.stepperAt (d : DeviceState) (index : Data7) : Bool := d.stepperStatus[index.toNat]'index.isLt

def DeviceState.setStepper (d : DeviceState) (index : Data7) (moving : Bool) : DeviceState :=
  { d with stepperStatus := d.stepperStatus.set index.toNat moving index.isLt }

def DeviceState.setFwVersion (d : DeviceState) (major minor : Data7) : DeviceState :=
  { d with fwVersion := { major := major, minor := minor } }

/-! Writing to the ByteSink (R151, R210). -/

/-- The answer the ByteSink gives to the write about to be issued: the next of the script, or, behind its end, the
free value (log 5). -/
def nextAnswer (s : State) : SinkAnswer :=
  match s.sinkScript with
  | a :: _ => a
  | [] => Config.sinkAnswer s.sinkWrites

/-- The write has been answered: the answer is used up, and an accepted byte is on the wire (R60, R151). -/
def State.wrote (b : Byte) (s : State) : State :=
  { s with
    sinkScript := s.sinkScript.tail
    sinkWrites := s.sinkWrites + 1
    tx := match nextAnswer s with
      | .ok => s.tx ++ [b]
      | .fail _ => s.tx }

/-- `emit(s)` (R151): one write a byte, in order, stopping at the first failure. The second component is that
failure. -/
def emit : List Byte → State → State × Option Nat
  | [], s => (s, none)
  | b :: bs, s =>
    match nextAnswer s with
    | .ok => emit bs (s.wrote b)
    | .fail e => (s.wrote b, some e)

/-- `emit(s)` and the end of the operation: `Ok`, or `SinkError(e)` with the failure "propagated verbatim" (R150,
R203). -/
def emitAndReturn (bs : List Byte) (s : State) : State :=
  match emit bs s with
  | (t, none) => t.respond .ok
  | (t, some e) => raiseError (.sinkError e) t

end Sys2Proof.Machine
end

