-- ==== Sys2Proof/Machine/Flags.lean ====
section
/-! DEFINITION. The flags and what is computed from them: the engine's flags are `inSysex`, `overflowed` and the
`stepperStatus` bits (10_state.md R36), "no arithmetic condition codes exist"; the mode is a function of ParserState
(R28). -/

namespace Sys2Proof.Machine

/-- The mode (R28). -/
def ParserState.mode (p : ParserState) : Mode :=
  if p.inSysex then .inSysex
  else if p.pendingByteCount > 0 then .awaitingMultibyte
  else .idle

/-- The context in which the decoder reads the next byte: the mode, with the message being collected and the
overflow flag. -/
def ParserState.context (p : ParserState) : RxContext :=
  match p.mode with
  | .inSysex => if p.overflowed then .overflowed else .inSysex
  | .awaitingMultibyte => .awaiting p.activeCmd
  | .idle => .idle

/-- The overflow sets its flag and drops the message (R114, R201). -/
def ParserState.setOverflow (p : ParserState) : ParserState := { p with overflowed := true, sysexLength := 0 }

/-- START_SYSEX opens a frame (R106): the elements of the buffer are not rewritten. -/
def ParserState.openSysex (p : ParserState) : ParserState :=
  { p with inSysex := true, sysexLength := 0, overflowed := false }

end Sys2Proof.Machine
end

