-- ==== Sys2Proof/Machine/Control.lean ====
section
/-! DEFINITION. `reset()` (70_reset_and_hazards.md R231, R162), construction (R230) and the reads of the QUERY port
(10_state.md R39). -/

namespace Sys2Proof.Machine

/-- `reset()` (R231): ParserState to IDLE, Device State and the buffer contents kept, no byte emitted, always `Ok`. -/
def execReset (s : State) : Host.Outcome State Fault Refusal :=
  .next ((s.withParser s.parser.toIdle).respond .ok)

/-- Construction on the RST port (R230): all the state of the engine at its reset value; the parameters and the
environment's side stay (log 15). It returns nothing. -/
def construct (s : State) : State := (s.withParser ParserState.reset).withDevice DeviceState.reset

/-- A QUERY transaction: the element's value is returned, "A read has no side effect" (R39). A stepper flag exists
below `N_STEPPERS` only (R34, log 14). -/
def runQuery (q : Query) (s : State) : Host.Outcome State Fault Refusal :=
  match q with
  | .port n => .next (s.respond (.element (.port (s.device.portAt n))))
  | .pinMode pin => .next (s.respond (.element (.pinMode (s.device.pinModeAt pin))))
  | .pinAnalogChannel pin => .next (s.respond (.element (.pinAnalogChannel (s.device.pinAnalogChannelAt pin))))
  | .analogValue channel => .next (s.respond (.element (.analogValue (s.device.analogValueAt channel))))
  | .extReply address register => .next (s.respond (.element (.extReply (s.device.replyAt address register))))
  | .stepperStatus index =>
    if index.toNat < s.params.nSteppers then
      .next (s.respond (.element (.stepperStatus (s.device.stepperAt index))))
    else .fault (.noSuchElement index.toNat)
  | .fwVersion => .next (s.respond (.element (.fwVersion s.device.fwVersion)))

end Sys2Proof.Machine
end

