-- ==== Sys2Proof/Machine/CodecFunctions.lean ====
section
/-! DEFINITION. The codec functions as a caller evaluates them (44_numeric_codec.md): the value is returned and
nothing else happens, "A codec function reads no engine state, writes none" (R180; log 9). -/

namespace Sys2Proof.Machine

/-- The value of a codec function, or `InvalidArgument` where the operand is outside its domain, "and nothing else
happens" (R180). -/
def returnValue (v : Option Response) (s : State) : Host.Outcome State Fault Refusal :=
  match v with
  | some r => .next (s.respond r)
  | none => .next (raiseError .invalidArgument s)

/-- `split14(v)` (R181). -/
def execSplit14 (v : Int) (s : State) : Host.Outcome State Fault Refusal :=
  returnValue ((Codec.split14 v).map .bytes) s

/-- `join14(lo, hi)` (R181). -/
def execJoin14 (lo hi : Int) (s : State) : Host.Outcome State Fault Refusal :=
  returnValue ((Codec.join14Operands lo hi).map .word) s

/-- `encodeSigned32(value)` (R182). -/
def execEncodeSigned32 (value : Int) (s : State) : Host.Outcome State Fault Refusal :=
  returnValue ((Codec.encodeSigned32 value).map .bytes) s

/-- `decodeSigned32([b0, b1, b2, b3, b4])` (R183): total, it never raises `InvalidArgument` (R202). -/
def execDecodeSigned32 (b0 b1 b2 b3 b4 : Byte) (s : State) : Host.Outcome State Fault Refusal :=
  .next (s.respond (.integer (Codec.decodeSigned32 b0 b1 b2 b3 b4)))

/-- `encodeCustomFloat(value)` (R185). -/
def execEncodeCustomFloat (value : RealOperand) (s : State) : Host.Outcome State Fault Refusal :=
  returnValue ((Codec.encodeCustomFloat value).map .bytes) s

/-- `pack(sign, sig, ef)` (R186). -/
def execPack (sign sig ef : Int) (s : State) : Host.Outcome State Fault Refusal :=
  returnValue ((Codec.pack sign sig ef).map .bytes) s

/-- `decodeCustomFloat([b0, b1, b2, b3])` (R187): total, it never raises `InvalidArgument` (R202). -/
def execDecodeCustomFloat (b0 b1 b2 b3 : Byte) (s : State) : Host.Outcome State Fault Refusal :=
  .next (s.respond (.rational (Codec.decodeCustomFloat b0 b1 b2 b3)))

end Sys2Proof.Machine
end

