-- ==== Sys2Proof/Machine/Operands.lean ====
section
/-! DEFINITION. The operand checks of the encoder operations (43_command_encoder.md R152, 60_exceptions.md R202).
`none` means `InvalidArgument`; a checked operand comes back as the index or byte it is. -/

namespace Sys2Proof.Machine

/-- `pin` in 0..127. -/
def pinOperand (v : Int) : Option Data7 := if 0 ≤ v ∧ v ≤ 127 then some (BitVec.ofInt 7 v) else none

/-- `channel` or `port` in 0..15. -/
def nibbleOperand (v : Int) : Option Nibble := if 0 ≤ v ∧ v ≤ 15 then some (BitVec.ofInt 4 v) else none

/-- `value` in 0..max, a byte. -/
def valueOperand (max : Nat) (v : Int) : Option Byte := if 0 ≤ v ∧ v ≤ max then some (BitVec.ofInt 8 v) else none

/-- `value` 0 (LOW) or 1 (HIGH), R76. -/
def levelOperand (v : Int) : Option Bool := if v = 0 then some false else if v = 1 then some true else none

/-- The eight pin-mode enumerants of R75, with the byte each travels as; "7, 8, 9, 10 and 12..127 name no mode". -/
def modeOperand (v : Int) : Option (Byte × PinMode) :=
  if v = 0 then some (0, .input)
  else if v = 1 then some (1, .output)
  else if v = 2 then some (2, .analog)
  else if v = 3 then some (3, .pwm)
  else if v = 4 then some (4, .servo)
  else if v = 5 then some (5, .shift)
  else if v = 6 then some (6, .i2c)
  else if v = 11 then some (11, .inputPullup)
  else none

/-- `index` in 0..N_STEPPERS-1 (R160). -/
def stepperOperand (p : Params) (v : Int) : Option Data7 :=
  if 0 ≤ v ∧ v < p.nSteppers then some (BitVec.ofInt 7 v) else none

/-- The stepper index of a received byte: it exists when it is below `N_STEPPERS` (R134, R56). -/
def stepperIndex (p : Params) (b : Byte) : Option Data7 := if b.toNat < p.nSteppers then some (b.setWidth 7) else none

/-- The port of a pin, `(pin >> 3) & 0x0F` (R154, R29). -/
def portOfPin (pin : Data7) : Nibble := (pin >>> 3).setWidth 4

/-- The bit of a pin in its port, `1 << (pin & 7)` (R154, R29). -/
def bitOfPin (pin : Data7) : Word16 := (1 : Word16) <<< (pin &&& 7).toNat

/-- The channel nibble of a pin, `pin & 0x0F` (R78, R155, R156). -/
def channelOfPin (pin : Data7) : Nibble := pin.setWidth 4

end Sys2Proof.Machine
end

