-- ==== Sys2Proof/Machine/CommandEncoder.lean ====
section
/-! DEFINITION. The encoder operations (43_command_encoder.md): operand checks, then the Device State write, then the
bytes (D13). -/

namespace Sys2Proof.Machine

/-- SET_PIN_MODE, format `SYS2` (R71, R153). -/
def setPinModeFrame (pin : Data7) (mode : Byte) : List Byte := [Wire.setPinMode, Wire.dataByte pin, mode]

/-- ANALOG_MESSAGE as `analogWrite` and `servoWrite` send it: the channel nibble is `pin & 0x0F` (R155, R156). -/
def analogFrame (pin : Data7) (value : Byte) : List Byte :=
  Wire.channelByte Wire.analogMessage (channelOfPin pin) :: Codec.split14Bytes value.toNat

/-- The port register after `digitalWrite`: bit `pin & 7` set or cleared, the others as they were (R154). -/
def writtenPort (old : Word16) (pin : Data7) (level : Bool) : Word16 :=
  if level then old ||| bitOfPin pin else old &&& ~~~(bitOfPin pin)

/-- DIGITAL_MESSAGE as `digitalWrite` sends it: the whole updated register `m` (R154, D11). -/
def digitalFrame (port : Nibble) (m : Word16) : List Byte :=
  Wire.channelByte Wire.digitalMessage port :: Codec.split14Bytes m.toNat

/-- `setPinMode(pin, mode)` (R153). -/
def execSetPinMode (pin mode : Int) (s : State) : Host.Outcome State Fault Refusal :=
  match pinOperand pin, modeOperand mode with
  | some p, some (code, m) => .next (emitAndReturn (setPinModeFrame p code) (s.withDevice (s.device.setPinMode p m)))
  | _, _ => .next (raiseError .invalidArgument s)

/-- `digitalWrite(pin, value)` (R154). -/
def execDigitalWrite (pin value : Int) (s : State) : Host.Outcome State Fault Refusal :=
  match pinOperand pin, levelOperand value with
  | some p, some level =>
    let m := writtenPort (s.device.portAt (portOfPin p)) p level
    .next (emitAndReturn (digitalFrame (portOfPin p) m) (s.withDevice (s.device.setPort (portOfPin p) m)))
  | _, _ => .next (raiseError .invalidArgument s)

/-- `analogWrite(pin, value)` (R155): `setPinMode(pin, PWM)`, then the ANALOG_MESSAGE. The two `emit`s in sequence are
one `emit` of the six bytes: a failure in the first three ends the operation (R151). -/
def execAnalogWrite (pin value : Int) (s : State) : Host.Outcome State Fault Refusal :=
  match pinOperand pin, valueOperand 255 value with
  | some p, some v =>
    .next (emitAndReturn (setPinModeFrame p 3 ++ analogFrame p v) (s.withDevice (s.device.setPinMode p .pwm)))
  | _, _ => .next (raiseError .invalidArgument s)

/-- `servoWrite(pin, value)` (R156). -/
def execServoWrite (pin value : Int) (s : State) : Host.Outcome State Fault Refusal :=
  match pinOperand pin, valueOperand 180 value with
  | some p, some v => .next (emitAndReturn (analogFrame p v) s)
  | _, _ => .next (raiseError .invalidArgument s)

/-- `sendSysex(payload)` (R157): each payload byte verbatim. -/
def execSendSysex (payload : List Byte) (s : State) : Host.Outcome State Fault Refusal :=
  .next (emitAndReturn ([Wire.startSysex] ++ payload ++ [Wire.endSysex]) s)

/-- `reportAnalog(channel, enable)` (R158). -/
def execReportAnalog (channel : Int) (enable : Bool) (s : State) : Host.Outcome State Fault Refusal :=
  match nibbleOperand channel with
  | some n => .next (emitAndReturn [Wire.channelByte Wire.reportAnalog n, if enable then 1 else 0] s)
  | none => .next (raiseError .invalidArgument s)

/-- `reportDigital(port, enable)` (R159). -/
def execReportDigital (port : Int) (enable : Bool) (s : State) : Host.Outcome State Fault Refusal :=
  match nibbleOperand port with
  | some n => .next (emitAndReturn [Wire.channelByte Wire.reportDigital n, if enable then 1 else 0] s)
  | none => .next (raiseError .invalidArgument s)

/-- `stepperStep(index, steps)` (R160): the flag is set before the bytes are sent. -/
def execStepperStep (index steps : Int) (s : State) : Host.Outcome State Fault Refusal :=
  match stepperOperand s.params index, Codec.encodeSigned32 steps with
  | some i, some count =>
    .next (emitAndReturn
      ([Wire.startSysex, Wire.stepperRequest, Wire.dataByte s.params.stepSubop, Wire.dataByte i] ++ count
        ++ [Wire.endSysex])
      (s.withDevice (s.device.setStepper i true)))
  | _, _ => .next (raiseError .invalidArgument s)

end Sys2Proof.Machine
end

