-- ==== Sys2Proof/Machine/SysexDispatcher.lean ====
section
/-! DEFINITION. The Sysex Dispatcher (42_sysex_dispatcher.md): what a completed payload does to Device State and
what it returns. It writes nothing else (R130). -/

namespace Sys2Proof.Machine

/-- The loop of R133 from position `p` on: `pinAnalogChannel[p] <- c` for each mapping byte, positions of 128 and
above dropped (D7). -/
def applyMapping : Nat → List Byte → Vector Byte 128 → Vector Byte 128
  | _, [], v => v
  | p, c :: cs, v => applyMapping (p + 1) cs (if h : p < 128 then v.set p c h else v)

/-- `AnalogMapping(length)` (R133): every entry to 127, then one byte a pin. -/
def analogMapping (args : List Byte) (d : DeviceState) : DeviceState × Response :=
  (d.setPinAnalogChannels (applyMapping 0 args (Vector.replicate 128 Config.unmapped)), .nothing)

/-- `MoveComplete(length)` (R134); `args` are the payload bytes from index 2 on. -/
def moveComplete (p : Params) (args : List Byte) (d : DeviceState) : DeviceState × Response :=
  match args with
  | [] => (d, .nothing)
  | idx :: _ =>
    match stepperIndex p idx with
    | none => (d, .nothing)
    | some i => (d.setStepper i false, .event (.stepperCompleted i))

/-- The value pairs of an extension reply (R135): an odd last byte has no partner and is dropped. -/
def replyValues : List Byte → List Word15
  | lo :: hi :: rest => Codec.join14 lo hi :: replyValues rest
  | _ => []

/-- `ExtensionReply(length)` (R135); `args` are the payload bytes from index 1 on. -/
def extensionReply (args : List Byte) (d : DeviceState) : DeviceState × Response :=
  match args with
  | a0 :: a1 :: r0 :: r1 :: vs =>
    let address := Codec.join14 a0 a1
    let register := Codec.join14 r0 r1
    let values := replyValues vs
    (d.setReply address register values, .event (.extensionReplyReceived address register values))
  | _ => (d, .nothing)

/-- `Dispatch(length)` on the payload `buffer[0..length-1]` (R131, R132, R136). -/
def dispatch (p : Params) (payload : List Byte) (d : DeviceState) : DeviceState × Response :=
  match payload with
  | [] => (d, .nothing)
  | sub :: args =>
    if sub = Wire.analogMappingResponse then analogMapping args d
    else if sub = Wire.stepperRequest then
      match args with
      | [] => (d, .nothing)
      | op :: more => if op = Wire.moveComplete then moveComplete p more d else (d, .nothing)
    else if sub = Wire.extensionReply then extensionReply args d
    else (d, .nothing)

end Sys2Proof.Machine
end

