-- ==== Sys2Proof/Machine/StreamParser.lean ====
section
/-! DEFINITION. The Stream Parser (41_stream_parser.md): `feed`, one procedure a rule, named as the rules name
them. -/

namespace Sys2Proof.Machine

/-- `StartDigital`, `StartAnalog`, `StartVersion` (R103, R104, R105): two data bytes are owed. VERSION leaves
`activeChannel` (R23). -/
def startMessage (cmd : ActiveCmd) (channel : Nibble) (p : ParserState) : ParserState :=
  { p with pendingByteCount := Config.multiByteLen, activeCmd := cmd, activeChannel := channel }

/-- `IdleDispatch(b)` (R102): a byte below 0xF0 splits into command and channel, one of 0xF0 and above is compared
whole; what matches nothing is ignored (R107). -/
def idleDispatch (b : Byte) (p : ParserState) : ParserState :=
  let command := if b.toNat < 0xF0 then b &&& 0xF0 else b
  if command = Wire.digitalMessage then startMessage .digital (Wire.lowNibble b) p
  else if command = Wire.analogMessage then startMessage .analog (Wire.lowNibble b) p
  else if command = Wire.reportVersion then startMessage .version p.activeChannel p
  else if command = Wire.startSysex then p.openSysex
  else p

/-- `(sysexBuffer[0] << 7) + sysexBuffer[1]`, the 14-bit value of a completed message (R110, R111). -/
def messageValue (p : ParserState) : Word14 :=
  BitVec.ofNat 14 ((Memory.get p.sysexBuffer 0).toNat <<< 7 + (Memory.get p.sysexBuffer 1).toNat)

/-- `CompleteDigital()` (R110): the whole port register is overwritten, bits 15:14 become 0. -/
def completeDigital (p : ParserState) (d : DeviceState) : DeviceState × Response :=
  (d.setPort p.activeChannel ((messageValue p).setWidth 16),
    .event (.digitalPortChanged p.activeChannel (messageValue p)))

/-- `CompleteAnalog()` (R111). -/
def completeAnalog (p : ParserState) (d : DeviceState) : DeviceState × Response :=
  (d.setAnalogValue p.activeChannel (messageValue p),
    .event (.analogChannelChanged p.activeChannel (messageValue p)))

/-- `CompleteVersion()` (R112): the first data byte, at index 1, is major (R53). -/
def completeVersion (p : ParserState) (d : DeviceState) : DeviceState × Response :=
  let major := Wire.low7 (Memory.get p.sysexBuffer 1)
  let minor := Wire.low7 (Memory.get p.sysexBuffer 0)
  (d.setFwVersion major minor, .event (.versionReported major minor))

/-- The completion the active command selects (R108); with none active there is no completion. -/
def completeMessage (p : ParserState) (d : DeviceState) : Option (DeviceState × Response) :=
  match p.activeCmd with
  | .digital => some (completeDigital p d)
  | .analog => some (completeAnalog p d)
  | .version => some (completeVersion p d)
  | .none => none

/-- `MultiData(b)` (R108): the byte goes to index `--pendingByteCount`; at 0 the message completes and the parser
returns to IDLE. -/
def multiData (b : Byte) (s : State) : Host.Outcome State Fault Refusal :=
  let count := s.parser.pendingByteCount - 1
  match Memory.write s.parser.sysexBuffer count b with
  | none => .fault (.bufferIndex count)
  | some buffer =>
    let p := { s.parser with pendingByteCount := count, sysexBuffer := buffer }
    if count > 0 then .next ((s.withParser p).respond .nothing)
    else match completeMessage p s.device with
      | none => .fault .noActiveCommand
      | some (d, r) => .next (((s.withParser p.toIdle).withDevice d).respond r)

/-- `SysexAppend(b)` (R113). -/
def sysexAppend (b : Byte) (s : State) : Host.Outcome State Fault Refusal :=
  match Memory.write s.parser.sysexBuffer s.parser.sysexLength b with
  | none => .fault (.bufferIndex s.parser.sysexLength)
  | some buffer =>
    .next ((s.withParser { s.parser with sysexBuffer := buffer, sysexLength := s.parser.sysexLength + 1 }).respond
      .nothing)

/-- `SysexOverflow(b)` (R114, R201): the byte is dropped, the message lost, the error returned. -/
def sysexOverflow (s : State) : Host.Outcome State Fault Refusal :=
  .next (raiseError .overflowError (s.withParser s.parser.setOverflow))

/-- `SysexDiscard(b)` (R115, R208): END_SYSEX ends the discarded frame, START_SYSEX opens a new one, any other byte
is dropped. -/
def sysexDiscard (b : Byte) (s : State) : Host.Outcome State Fault Refusal :=
  let p :=
    if b = Wire.endSysex then s.parser.toIdle
    else if b = Wire.startSysex then { s.parser with overflowed := false, sysexLength := 0 }
    else s.parser
  .next ((s.withParser p).respond .nothing)

/-- `SysexEnd()` (R116): the payload is dispatched, then the parser returns to IDLE. -/
def sysexEnd (s : State) : Host.Outcome State Fault Refusal :=
  match Memory.readRange s.parser.sysexBuffer 0 s.parser.sysexLength with
  | none => .fault (.bufferIndex Config.sysexCap)
  | some payload =>
    let r := dispatch s.params payload s.device
    .next (((s.withParser s.parser.toIdle).withDevice r.1).respond r.2)

/-- `feed(b)` (R101): the mode and the byte select exactly one procedure. -/
def feed (b : Byte) (s : State) : Host.Outcome State Fault Refusal :=
  if s.parser.inSysex then
    if s.parser.overflowed then sysexDiscard b s
    else if b = Wire.endSysex then sysexEnd s
    else if s.parser.sysexLength < Config.sysexCap then sysexAppend b s
    else sysexOverflow s
  else if s.parser.pendingByteCount > 0 then
    if Wire.isData b then multiData b s
    else .next ((s.withParser (idleDispatch b s.parser.toIdle)).respond .nothing)
  else .next ((s.withParser (idleDispatch b s.parser)).respond .nothing)

/-- `feed([b0, b1, ...])`: the calls in that order (R82, R59). -/
def feedAll : List Byte → State → Host.Outcome State Fault Refusal
  | [], s => .next s
  | b :: bs, s => andThen (feed b s) (feedAll bs)

end Sys2Proof.Machine
end

