-- ==== Sys2Proof/Machine/IncomingBytes.lean ====
section
/-! DEFINITION. The meanings of the short incoming rows: each is the `feed` of its bytes (41_stream_parser.md R101), so
that the parser's mode decides what they do. -/

namespace Sys2Proof.Machine

/-- DIGITAL_MESSAGE (R103, R108, R110), whole or the part that was delivered. -/
def execDigitalMessageRx (f : ChannelFrame) (s : State) : Host.Outcome State Fault Refusal :=
  match f with
  | .whole n l h => feedAll [Wire.channelByte Wire.digitalMessage n, Wire.dataByte l, Wire.dataByte h] s
  | .first n => feedAll [Wire.channelByte Wire.digitalMessage n] s
  | .data d => feedAll [Wire.dataByte d] s

/-- ANALOG_MESSAGE (R104, R108, R111), whole or the part that was delivered. -/
def execAnalogMessageRx (f : ChannelFrame) (s : State) : Host.Outcome State Fault Refusal :=
  match f with
  | .whole n l h => feedAll [Wire.channelByte Wire.analogMessage n, Wire.dataByte l, Wire.dataByte h] s
  | .first n => feedAll [Wire.channelByte Wire.analogMessage n] s
  | .data d => feedAll [Wire.dataByte d] s

/-- REPORT_VERSION (R105, R108, R112), whole or the part that was delivered. -/
def execReportVersionRx (f : VersionFrame) (s : State) : Host.Outcome State Fault Refusal :=
  match f with
  | .whole m v => feedAll [Wire.reportVersion, Wire.dataByte m, Wire.dataByte v] s
  | .first => feedAll [Wire.reportVersion] s
  | .data d => feedAll [Wire.dataByte d] s

/-- START_SYSEX (R106; payload inside a frame, R113; a new frame after an overflow, R115). -/
def execStartSysexRx (s : State) : Host.Outcome State Fault Refusal := feedAll [Wire.startSysex] s

/-- END_SYSEX (R116; R115 after an overflow; ignored in IDLE, R107). -/
def execEndSysexRx (s : State) : Host.Outcome State Fault Refusal := feedAll [Wire.endSysex] s

/-- A payload byte (R113, R114, R115). -/
def execSysexPayloadByteRx (b : Byte) (s : State) : Host.Outcome State Fault Refusal := feedAll [b] s

/-- A byte of 0x80 or above inside a multi-byte message (R109): abandoned, then handled as in IDLE. -/
def execAbandonMultibyteRx (b : Data7) (s : State) : Host.Outcome State Fault Refusal := feedAll [0x80 ||| Wire.dataByte b] s

/-- A stray data byte (R107). -/
def execStrayDataRx (d : Data7) (s : State) : Host.Outcome State Fault Refusal := feedAll [Wire.dataByte d] s

/-- 0x80..0x8F, no command assigned (R107). -/
def execUnassigned8xRx (n : Nibble) (s : State) : Host.Outcome State Fault Refusal := feedAll [Wire.channelByte 0x80 n] s

/-- 0xA0..0xBF, no command assigned (R107). -/
def execUnassignedAxBxRx (x : Bool) (n : Nibble) (s : State) : Host.Outcome State Fault Refusal :=
  feedAll [Wire.channelByte (if x then 0xB0 else 0xA0) n] s

/-- REPORT_ANALOG on receipt, an outgoing-only command (R107). -/
def execReportAnalogRx (n : Nibble) (s : State) : Host.Outcome State Fault Refusal := feedAll [Wire.channelByte Wire.reportAnalog n] s

/-- REPORT_DIGITAL on receipt, an outgoing-only command (R107). -/
def execReportDigitalRx (n : Nibble) (s : State) : Host.Outcome State Fault Refusal := feedAll [Wire.channelByte Wire.reportDigital n] s

/-- 0xF1: reserved system command with no name; ignored in IDLE (R107). -/
def execUnassignedF1Rx (s : State) : Host.Outcome State Fault Refusal := feedAll [0xF1] s

/-- 0xF2: reserved system command with no name; ignored in IDLE (R107). -/
def execUnassignedF2Rx (s : State) : Host.Outcome State Fault Refusal := feedAll [0xF2] s

/-- 0xF3: reserved system command with no name; ignored in IDLE (R107). -/
def execUnassignedF3Rx (s : State) : Host.Outcome State Fault Refusal := feedAll [0xF3] s

/-- 0xF4: SET_PIN_MODE on receipt, an outgoing-only command; ignored in IDLE (R107). -/
def execSetPinModeRx (s : State) : Host.Outcome State Fault Refusal := feedAll [0xF4] s

/-- 0xF5: reserved system command with no name; ignored in IDLE (R107). -/
def execUnassignedF5Rx (s : State) : Host.Outcome State Fault Refusal := feedAll [0xF5] s

/-- 0xF6: reserved system command with no name; ignored in IDLE (R107). -/
def execUnassignedF6Rx (s : State) : Host.Outcome State Fault Refusal := feedAll [0xF6] s

/-- 0xF8: reserved system command with no name; ignored in IDLE (R107). -/
def execUnassignedF8Rx (s : State) : Host.Outcome State Fault Refusal := feedAll [0xF8] s

/-- 0xFA: reserved system command with no name; ignored in IDLE (R107). -/
def execUnassignedFARx (s : State) : Host.Outcome State Fault Refusal := feedAll [0xFA] s

/-- 0xFB: reserved system command with no name; ignored in IDLE (R107). -/
def execUnassignedFBRx (s : State) : Host.Outcome State Fault Refusal := feedAll [0xFB] s

/-- 0xFC: reserved system command with no name; ignored in IDLE (R107). -/
def execUnassignedFCRx (s : State) : Host.Outcome State Fault Refusal := feedAll [0xFC] s

/-- 0xFD: reserved system command with no name; ignored in IDLE (R107). -/
def execUnassignedFDRx (s : State) : Host.Outcome State Fault Refusal := feedAll [0xFD] s

/-- 0xFE: reserved system command with no name; ignored in IDLE (R107). -/
def execUnassignedFERx (s : State) : Host.Outcome State Fault Refusal := feedAll [0xFE] s

/-- 0xFF: SYSTEM_RESET on receipt: it does not reset the engine (R232); ignored in IDLE (R107). -/
def execSystemResetRx (s : State) : Host.Outcome State Fault Refusal := feedAll [0xFF] s

end Sys2Proof.Machine
end

