-- ==== Sys2Proof/Machine/IncomingFrames.lean ====
section
/-! DEFINITION. The meanings of the incoming sysex frames (42_sysex_dispatcher.md): each is the `feed` of START_SYSEX,
the payload and END_SYSEX; the last `feed` runs the dispatcher (R116, R137). -/

namespace Sys2Proof.Machine

/-- `feed` of a whole sysex frame with this payload (R71, R83). -/
def feedFrame (payload : List Byte) (s : State) : Host.Outcome State Fault Refusal :=
  feedAll (Wire.startSysex :: (payload ++ [Wire.endSysex])) s

/-- ANALOG_MAPPING_RESPONSE (R133). -/
def execAnalogMappingResponseRx (args : List Byte) (s : State) : Host.Outcome State Fault Refusal :=
  feedFrame (Wire.analogMappingResponse :: args) s

/-- STEPPER_REQUEST / MOVE_COMPLETE (R134). -/
def execStepperMoveCompleteRx (args : List Byte) (s : State) : Host.Outcome State Fault Refusal :=
  feedFrame (Wire.stepperRequest :: Wire.moveComplete :: args) s

/-- EXTENSION_REPLY (R135). -/
def execExtensionReplyRx (args : List Byte) (s : State) : Host.Outcome State Fault Refusal :=
  feedFrame (Wire.extensionReply :: args) s

/-- STEPPER_REQUEST without MOVE_COMPLETE (R136). -/
def execStepperRequestOtherRx (args : List Byte) (s : State) : Host.Outcome State Fault Refusal :=
  feedFrame (Wire.stepperRequest :: args) s

/-- ANALOG_MAPPING_QUERY on receipt: discarded (R136). -/
def execAnalogMappingQueryRx (args : List Byte) (s : State) : Host.Outcome State Fault Refusal :=
  feedFrame (Wire.analogMappingQuery :: args) s

/-- CAPABILITY_QUERY on receipt: discarded (R136). -/
def execCapabilityQueryRx (args : List Byte) (s : State) : Host.Outcome State Fault Refusal :=
  feedFrame (Wire.capabilityQuery :: args) s

/-- CAPABILITY_RESPONSE: discarded (R136). -/
def execCapabilityResponseRx (args : List Byte) (s : State) : Host.Outcome State Fault Refusal :=
  feedFrame (Wire.capabilityResponse :: args) s

/-- PIN_STATE_QUERY on receipt: discarded (R136). -/
def execPinStateQueryRx (args : List Byte) (s : State) : Host.Outcome State Fault Refusal :=
  feedFrame (Wire.pinStateQuery :: args) s

/-- PIN_STATE_RESPONSE: discarded (R136). -/
def execPinStateResponseRx (args : List Byte) (s : State) : Host.Outcome State Fault Refusal :=
  feedFrame (Wire.pinStateResponse :: args) s

/-- EXTENDED_ANALOG on receipt: discarded (R136). -/
def execExtendedAnalogRx (args : List Byte) (s : State) : Host.Outcome State Fault Refusal :=
  feedFrame (Wire.extendedAnalog :: args) s

/-- SERVO_CONFIG on receipt: discarded (R136). -/
def execServoConfigRx (args : List Byte) (s : State) : Host.Outcome State Fault Refusal :=
  feedFrame (Wire.servoConfig :: args) s

/-- STRING_DATA: discarded (R136). -/
def execStringDataRx (args : List Byte) (s : State) : Host.Outcome State Fault Refusal :=
  feedFrame (Wire.stringData :: args) s

/-- EXTENSION_REQUEST on receipt: discarded (R136). -/
def execExtensionRequestRx (args : List Byte) (s : State) : Host.Outcome State Fault Refusal :=
  feedFrame (Wire.extensionRequest :: args) s

/-- EXTENSION_CONFIG on receipt: discarded (R136). -/
def execExtensionConfigRx (args : List Byte) (s : State) : Host.Outcome State Fault Refusal :=
  feedFrame (Wire.extensionConfig :: args) s

/-- REPORT_FIRMWARE: discarded, `fwVersion` untouched (R136). -/
def execReportFirmwareRx (args : List Byte) (s : State) : Host.Outcome State Fault Refusal :=
  feedFrame (Wire.reportFirmware :: args) s

/-- SAMPLING_INTERVAL on receipt: discarded (R136). -/
def execSamplingIntervalRx (args : List Byte) (s : State) : Host.Outcome State Fault Refusal :=
  feedFrame (Wire.samplingInterval :: args) s

/-- The empty frame `F0 F7` (R132). -/
def execEmptySysexRx (s : State) : Host.Outcome State Fault Refusal := feedFrame [] s

/-- Any other sub-command: discarded (R136). -/
def execUnknownSysexRx (sub : Byte) (args : List Byte) (s : State) : Host.Outcome State Fault Refusal :=
  feedFrame (sub :: args) s

end Sys2Proof.Machine
end

