-- ==== Sys2Proof/Machine/Dispatch.lean ====
section
/-! DEFINITION. The one map from an instruction to its meaning. -/

namespace Sys2Proof.Machine

def exec (i : Instr) (s : State) : Host.Outcome State Fault Refusal :=
  match i with
  | .digitalMessageRx f => Sys2Proof.Machine.execDigitalMessageRx f s
  | .analogMessageRx f => Sys2Proof.Machine.execAnalogMessageRx f s
  | .reportVersionRx f => Sys2Proof.Machine.execReportVersionRx f s
  | .startSysexRx => Sys2Proof.Machine.execStartSysexRx s
  | .endSysexRx => Sys2Proof.Machine.execEndSysexRx s
  | .sysexPayloadByteRx b => Sys2Proof.Machine.execSysexPayloadByteRx b s
  | .abandonMultibyteRx b => Sys2Proof.Machine.execAbandonMultibyteRx b s
  | .strayDataRx d => Sys2Proof.Machine.execStrayDataRx d s
  | .unassigned8xRx n => Sys2Proof.Machine.execUnassigned8xRx n s
  | .unassignedAxBxRx x n => Sys2Proof.Machine.execUnassignedAxBxRx x n s
  | .reportAnalogRx n => Sys2Proof.Machine.execReportAnalogRx n s
  | .reportDigitalRx n => Sys2Proof.Machine.execReportDigitalRx n s
  | .unassignedF1Rx => Sys2Proof.Machine.execUnassignedF1Rx s
  | .unassignedF2Rx => Sys2Proof.Machine.execUnassignedF2Rx s
  | .unassignedF3Rx => Sys2Proof.Machine.execUnassignedF3Rx s
  | .setPinModeRx => Sys2Proof.Machine.execSetPinModeRx s
  | .unassignedF5Rx => Sys2Proof.Machine.execUnassignedF5Rx s
  | .unassignedF6Rx => Sys2Proof.Machine.execUnassignedF6Rx s
  | .unassignedF8Rx => Sys2Proof.Machine.execUnassignedF8Rx s
  | .unassignedFARx => Sys2Proof.Machine.execUnassignedFARx s
  | .unassignedFBRx => Sys2Proof.Machine.execUnassignedFBRx s
  | .unassignedFCRx => Sys2Proof.Machine.execUnassignedFCRx s
  | .unassignedFDRx => Sys2Proof.Machine.execUnassignedFDRx s
  | .unassignedFERx => Sys2Proof.Machine.execUnassignedFERx s
  | .systemResetRx => Sys2Proof.Machine.execSystemResetRx s
  | .analogMappingResponseRx args => Sys2Proof.Machine.execAnalogMappingResponseRx args s
  | .stepperMoveCompleteRx args => Sys2Proof.Machine.execStepperMoveCompleteRx args s
  | .extensionReplyRx args => Sys2Proof.Machine.execExtensionReplyRx args s
  | .emptySysexRx => Sys2Proof.Machine.execEmptySysexRx s
  | .stepperRequestOtherRx args => Sys2Proof.Machine.execStepperRequestOtherRx args s
  | .analogMappingQueryRx args => Sys2Proof.Machine.execAnalogMappingQueryRx args s
  | .capabilityQueryRx args => Sys2Proof.Machine.execCapabilityQueryRx args s
  | .capabilityResponseRx args => Sys2Proof.Machine.execCapabilityResponseRx args s
  | .pinStateQueryRx args => Sys2Proof.Machine.execPinStateQueryRx args s
  | .pinStateResponseRx args => Sys2Proof.Machine.execPinStateResponseRx args s
  | .extendedAnalogRx args => Sys2Proof.Machine.execExtendedAnalogRx args s
  | .servoConfigRx args => Sys2Proof.Machine.execServoConfigRx args s
  | .stringDataRx args => Sys2Proof.Machine.execStringDataRx args s
  | .extensionRequestRx args => Sys2Proof.Machine.execExtensionRequestRx args s
  | .extensionConfigRx args => Sys2Proof.Machine.execExtensionConfigRx args s
  | .reportFirmwareRx args => Sys2Proof.Machine.execReportFirmwareRx args s
  | .samplingIntervalRx args => Sys2Proof.Machine.execSamplingIntervalRx args s
  | .unknownSysexRx sub args => Sys2Proof.Machine.execUnknownSysexRx sub args s
  | .setPinMode pin mode => Sys2Proof.Machine.execSetPinMode pin mode s
  | .digitalWrite pin value => Sys2Proof.Machine.execDigitalWrite pin value s
  | .analogWrite pin value => Sys2Proof.Machine.execAnalogWrite pin value s
  | .servoWrite pin value => Sys2Proof.Machine.execServoWrite pin value s
  | .sendSysex payload => Sys2Proof.Machine.execSendSysex payload s
  | .reportAnalog channel enable => Sys2Proof.Machine.execReportAnalog channel enable s
  | .reportDigital port enable => Sys2Proof.Machine.execReportDigital port enable s
  | .stepperStep index steps => Sys2Proof.Machine.execStepperStep index steps s
  | .reset => Sys2Proof.Machine.execReset s
  | .split14 v => Sys2Proof.Machine.execSplit14 v s
  | .join14 lo hi => Sys2Proof.Machine.execJoin14 lo hi s
  | .encodeSigned32 value => Sys2Proof.Machine.execEncodeSigned32 value s
  | .decodeSigned32 b0 b1 b2 b3 b4 => Sys2Proof.Machine.execDecodeSigned32 b0 b1 b2 b3 b4 s
  | .encodeCustomFloat value => Sys2Proof.Machine.execEncodeCustomFloat value s
  | .pack sign sig ef => Sys2Proof.Machine.execPack sign sig ef s
  | .decodeCustomFloat b0 b1 b2 b3 => Sys2Proof.Machine.execDecodeCustomFloat b0 b1 b2 b3 s

end Sys2Proof.Machine
end

