-- ==== Sys2Proof/WellFormed.lean ====
section
/-! DEFINITION. Which terms of `Instr` stand for words of the wire or calls that exist. Operands of the encoder
operations and codec encoders are not restricted here: an operand out of range is a call the engine answers with
`InvalidArgument` (R152). -/

namespace Sys2Proof

/-- No byte of the tail is END_SYSEX: "a payload can never contain 0xF7" (R83). -/
def noEndSysex (bs : List Byte) : Bool := bs.all (· ≠ Wire.endSysex)

/-- A payload tail behind `prefixLen` fixed payload bytes: no END_SYSEX in it (R83), and a payload that fits the
buffer (R25, R114). -/
def tailOk (prefixLen : Nat) (args : List Byte) : Bool :=
  noEndSysex args && decide (prefixLen + args.length ≤ Config.sysexCap)

/-- The well-formed instructions. -/
def Instr.wellFormed : Instr → Bool
  | .digitalMessageRx _ => true
  | .analogMessageRx _ => true
  | .reportVersionRx _ => true
  | .startSysexRx => true
  | .endSysexRx => true
  | .sysexPayloadByteRx b => b ≠ Wire.endSysex
  | .abandonMultibyteRx _ => true
  | .strayDataRx _ => true
  | .unassigned8xRx _ => true
  | .unassignedAxBxRx _ _ => true
  | .reportAnalogRx _ => true
  | .reportDigitalRx _ => true
  | .unassignedF1Rx => true
  | .unassignedF2Rx => true
  | .unassignedF3Rx => true
  | .setPinModeRx => true
  | .unassignedF5Rx => true
  | .unassignedF6Rx => true
  | .unassignedF8Rx => true
  | .unassignedFARx => true
  | .unassignedFBRx => true
  | .unassignedFCRx => true
  | .unassignedFDRx => true
  | .unassignedFERx => true
  | .systemResetRx => true
  | .analogMappingResponseRx args => tailOk 1 args
  | .stepperMoveCompleteRx args => tailOk 2 args
  | .extensionReplyRx args => tailOk 1 args
  | .emptySysexRx => true
  | .stepperRequestOtherRx args => tailOk 1 args && args.head? ≠ some Wire.moveComplete
  | .analogMappingQueryRx args => tailOk 1 args
  | .capabilityQueryRx args => tailOk 1 args
  | .capabilityResponseRx args => tailOk 1 args
  | .pinStateQueryRx args => tailOk 1 args
  | .pinStateResponseRx args => tailOk 1 args
  | .extendedAnalogRx args => tailOk 1 args
  | .servoConfigRx args => tailOk 1 args
  | .stringDataRx args => tailOk 1 args
  | .extensionRequestRx args => tailOk 1 args
  | .extensionConfigRx args => tailOk 1 args
  | .reportFirmwareRx args => tailOk 1 args
  | .samplingIntervalRx args => tailOk 1 args
  | .unknownSysexRx sub args =>
    tailOk 1 args && sub ≠ Wire.endSysex && !(Wire.namedSubCommands.contains sub)
  | .setPinMode _ _ => true
  | .digitalWrite _ _ => true
  | .analogWrite _ _ => true
  | .servoWrite _ _ => true
  | .sendSysex _ => true
  | .reportAnalog _ _ => true
  | .reportDigital _ _ => true
  | .stepperStep _ _ => true
  | .reset => true
  | .split14 _ => true
  | .join14 _ _ => true
  | .encodeSigned32 _ => true
  | .decodeSigned32 _ _ _ _ _ => true
  | .encodeCustomFloat _ => true
  | .pack _ _ _ => true
  | .decodeCustomFloat _ _ _ _ => true

end Sys2Proof
end

