-- ==== Sys2Proof/Decode.lean ====
section
/-! DEFINITION. The decoder, total on any bytes and any call, and after it the encoder. RX bytes decode by the
parser's context, "the parser mode decides which rows apply, and among sysex rows the more specific prefix wins"
(30_encoding.md conventions); calls decode by name (R82). The last part reads the words of
spec/opcode_table.json for the host (log 10). -/

namespace Sys2Proof

/-- Why a transaction does not decode. -/
inductive Rejection where
  /-- a delivery of no byte: nothing to decode -/
  | noByte
  /-- a QUERY or RST transaction: no row of the opcode table -/
  | notAnInstruction
  deriving DecidableEq, Repr

/-- A decoded instruction with the bytes of the delivery behind it, or a rejection by name. -/
inductive Decoded where
  | instr (i : Instr) (rest : List Byte)
  | rejected (r : Rejection)
  deriving DecidableEq, Repr

/-- The bytes before the first END_SYSEX and those behind it: a sysex frame "ends at the first END_SYSEX (0xF7)
byte" (R83). -/
def splitFrame : List Byte → Option (List Byte × List Byte)
  | [] => none
  | b :: bs =>
    if b = Wire.endSysex then some ([], bs)
    else match splitFrame bs with
      | none => none
      | some (p, rest) => some (b :: p, rest)

/-- The row of a whole sysex frame with this payload (R73, R84): the sub-command is payload byte 0, STEPPER_REQUEST
looks one byte further (R131). -/
def classifyPayload : List Byte → Instr
  | [] => .emptySysexRx
  | sub :: args =>
    if sub = Wire.stepperRequest then
      match args with
      | [] => .stepperRequestOtherRx []
      | op :: more => if op = Wire.moveComplete then .stepperMoveCompleteRx more else .stepperRequestOtherRx (op :: more)
    else if sub = Wire.analogMappingResponse then .analogMappingResponseRx args
    else if sub = Wire.extensionReply then .extensionReplyRx args
    else if sub = Wire.analogMappingQuery then .analogMappingQueryRx args
    else if sub = Wire.capabilityQuery then .capabilityQueryRx args
    else if sub = Wire.capabilityResponse then .capabilityResponseRx args
    else if sub = Wire.pinStateQuery then .pinStateQueryRx args
    else if sub = Wire.pinStateResponse then .pinStateResponseRx args
    else if sub = Wire.extendedAnalog then .extendedAnalogRx args
    else if sub = Wire.servoConfig then .servoConfigRx args
    else if sub = Wire.stringData then .stringDataRx args
    else if sub = Wire.extensionRequest then .extensionRequestRx args
    else if sub = Wire.extensionConfig then .extensionConfigRx args
    else if sub = Wire.reportFirmware then .reportFirmwareRx args
    else if sub = Wire.samplingInterval then .samplingIntervalRx args
    else .unknownSysexRx sub args

/-- A `CH2` frame that begins with this port or channel: whole where two data bytes of the delivery follow, else its
first byte alone (R83, log 2). -/
def decodeChannelFrame (mk : ChannelFrame → Instr) (n : Nibble) : List Byte → Instr × List Byte
  | l :: h :: rest =>
    if Wire.isData l && Wire.isData h then (mk (.whole n (Wire.low7 l) (Wire.low7 h)), rest)
    else (mk (.first n), l :: h :: rest)
  | rest => (mk (.first n), rest)

/-- A REPORT_VERSION frame, first data byte major (R53). -/
def decodeVersionFrame : List Byte → Instr × List Byte
  | m :: v :: rest =>
    if Wire.isData m && Wire.isData v then (.reportVersionRx (.whole (Wire.low7 m) (Wire.low7 v)), rest)
    else (.reportVersionRx .first, m :: v :: rest)
  | rest => (.reportVersionRx .first, rest)

/-- A sysex frame: its row where END_SYSEX is in the delivery and the payload fits the buffer, else the START_SYSEX
byte alone (log 2). -/
def decodeSysexFrame (bs : List Byte) : Instr × List Byte :=
  match splitFrame bs with
  | some (p, rest) => if p.length ≤ Config.sysexCap then (classifyPayload p, rest) else (.startSysexRx, bs)
  | none => (.startSysexRx, bs)

/-- A system command byte 0xF0..0xFF in IDLE, compared whole (R84, 90_conflicts.md C1). -/
def decodeSystem (b : Byte) (rest : List Byte) : Instr × List Byte :=
  if b = Wire.startSysex then decodeSysexFrame rest
  else if b = 0xF1 then (.unassignedF1Rx, rest)
  else if b = 0xF2 then (.unassignedF2Rx, rest)
  else if b = 0xF3 then (.unassignedF3Rx, rest)
  else if b = Wire.setPinMode then (.setPinModeRx, rest)
  else if b = 0xF5 then (.unassignedF5Rx, rest)
  else if b = 0xF6 then (.unassignedF6Rx, rest)
  else if b = Wire.endSysex then (.endSysexRx, rest)
  else if b = 0xF8 then (.unassignedF8Rx, rest)
  else if b = Wire.reportVersion then decodeVersionFrame rest
  else if b = 0xFA then (.unassignedFARx, rest)
  else if b = 0xFB then (.unassignedFBRx, rest)
  else if b = 0xFC then (.unassignedFCRx, rest)
  else if b = 0xFD then (.unassignedFDRx, rest)
  else if b = 0xFE then (.unassignedFERx, rest)
  else (.systemResetRx, rest)

/-- A channel command byte 0x80..0xEF in IDLE, by its high nibble (R84). -/
def decodeChannel (b : Byte) (rest : List Byte) : Instr × List Byte :=
  let command := b &&& 0xF0
  let n := Wire.lowNibble b
  if command = 0x80 then (.unassigned8xRx n, rest)
  else if command = Wire.digitalMessage then decodeChannelFrame .digitalMessageRx n rest
  else if command = 0xA0 then (.unassignedAxBxRx false n, rest)
  else if command = 0xB0 then (.unassignedAxBxRx true n, rest)
  else if command = Wire.reportAnalog then (.reportAnalogRx n, rest)
  else if command = Wire.reportDigital then (.reportDigitalRx n, rest)
  else decodeChannelFrame .analogMessageRx n rest

/-- The first-byte map of IDLE (R84). -/
def decodeIdle (b : Byte) (rest : List Byte) : Instr × List Byte :=
  match Wire.byteClass b with
  | .data => (.strayDataRx (Wire.low7 b), rest)
  | .channelCommand => decodeChannel b rest
  | .systemCommand => decodeSystem b rest

/-- A byte while a multi-byte message is being collected: a data byte belongs to the message (R108), any other
abandons it (R109). `activeCmd = NONE` cannot occur here (R28 ii); such a byte is read as a stray one (log 8). -/
def decodeAwaiting (cmd : ActiveCmd) (b : Byte) : Instr :=
  if Wire.isData b then
    match cmd with
    | .digital => .digitalMessageRx (.data (Wire.low7 b))
    | .analog => .analogMessageRx (.data (Wire.low7 b))
    | .version => .reportVersionRx (.data (Wire.low7 b))
    | .none => .strayDataRx (Wire.low7 b)
  else .abandonMultibyteRx (Wire.low7 b)

/-- The RX decoder: the first instruction of a delivery in a context, and the bytes behind it. -/
def decodeRx (c : RxContext) : List Byte → Decoded
  | [] => .rejected .noByte
  | b :: rest =>
    match c with
    | .idle => let d := decodeIdle b rest; .instr d.1 d.2
    | .awaiting cmd => .instr (decodeAwaiting cmd b) rest
    | .inSysex => .instr (if b = Wire.endSysex then .endSysexRx else .sysexPayloadByteRx b) rest
    | .overflowed =>
      .instr (if b = Wire.endSysex then .endSysexRx
        else if b = Wire.startSysex then .startSysexRx else .sysexPayloadByteRx b) rest

/-- The call decoder: the instruction of that name on those operands (R82). -/
def decodeCall : Call → Instr
  | .setPinMode pin mode => .setPinMode pin mode
  | .digitalWrite pin value => .digitalWrite pin value
  | .analogWrite pin value => .analogWrite pin value
  | .servoWrite pin value => .servoWrite pin value
  | .sendSysex payload => .sendSysex payload
  | .reportAnalog channel enable => .reportAnalog channel enable
  | .reportDigital port enable => .reportDigital port enable
  | .stepperStep index steps => .stepperStep index steps
  | .reset => .reset
  | .split14 v => .split14 v
  | .join14 lo hi => .join14 lo hi
  | .encodeSigned32 value => .encodeSigned32 value
  | .decodeSigned32 b0 b1 b2 b3 b4 => .decodeSigned32 b0 b1 b2 b3 b4
  | .encodeCustomFloat value => .encodeCustomFloat value
  | .pack sign sig ef => .pack sign sig ef
  | .decodeCustomFloat b0 b1 b2 b3 => .decodeCustomFloat b0 b1 b2 b3

/-- The decoder of a transaction. -/
def decode (c : RxContext) : Transaction → Decoded
  | .feed bs => decodeRx c bs
  | .call k => .instr (decodeCall k) []
  | .query _ => .rejected .notAnInstruction
  | .construct => .rejected .notAnInstruction

/-! The encoder. -/

/-- The bytes of a `CH2` frame or of its part (R71). -/
def channelFrameBytes (cmd : Byte) : ChannelFrame → List Byte
  | .whole n l h => [Wire.channelByte cmd n, Wire.dataByte l, Wire.dataByte h]
  | .first n => [Wire.channelByte cmd n]
  | .data d => [Wire.dataByte d]

/-- The bytes of a REPORT_VERSION frame or of its part (R71). -/
def versionFrameBytes : VersionFrame → List Byte
  | .whole m v => [Wire.reportVersion, Wire.dataByte m, Wire.dataByte v]
  | .first => [Wire.reportVersion]
  | .data d => [Wire.dataByte d]

/-- `0xF0`, the payload, `0xF7` (R71 `SYSEX`). -/
def sysexFrame (payload : List Byte) : List Byte := Wire.startSysex :: (payload ++ [Wire.endSysex])

/-- The words of an instruction: the bytes of an incoming row as the wire carries them, the call of an operation. -/
def encode : Instr → Transaction
  | .digitalMessageRx f => .feed (channelFrameBytes Wire.digitalMessage f)
  | .analogMessageRx f => .feed (channelFrameBytes Wire.analogMessage f)
  | .reportVersionRx f => .feed (versionFrameBytes f)
  | .startSysexRx => .feed [Wire.startSysex]
  | .endSysexRx => .feed [Wire.endSysex]
  | .sysexPayloadByteRx b => .feed [b]
  | .abandonMultibyteRx b => .feed [0x80 ||| Wire.dataByte b]
  | .strayDataRx d => .feed [Wire.dataByte d]
  | .unassigned8xRx n => .feed [Wire.channelByte 0x80 n]
  | .unassignedAxBxRx x n => .feed [Wire.channelByte (if x then 0xB0 else 0xA0) n]
  | .reportAnalogRx n => .feed [Wire.channelByte Wire.reportAnalog n]
  | .reportDigitalRx n => .feed [Wire.channelByte Wire.reportDigital n]
  | .unassignedF1Rx => .feed [0xF1]
  | .unassignedF2Rx => .feed [0xF2]
  | .unassignedF3Rx => .feed [0xF3]
  | .setPinModeRx => .feed [Wire.setPinMode]
  | .unassignedF5Rx => .feed [0xF5]
  | .unassignedF6Rx => .feed [0xF6]
  | .unassignedF8Rx => .feed [0xF8]
  | .unassignedFARx => .feed [0xFA]
  | .unassignedFBRx => .feed [0xFB]
  | .unassignedFCRx => .feed [0xFC]
  | .unassignedFDRx => .feed [0xFD]
  | .unassignedFERx => .feed [0xFE]
  | .systemResetRx => .feed [Wire.systemReset]
  | .analogMappingResponseRx args => .feed (sysexFrame (Wire.analogMappingResponse :: args))
  | .stepperMoveCompleteRx args => .feed (sysexFrame (Wire.stepperRequest :: Wire.moveComplete :: args))
  | .extensionReplyRx args => .feed (sysexFrame (Wire.extensionReply :: args))
  | .emptySysexRx => .feed (sysexFrame [])
  | .stepperRequestOtherRx args => .feed (sysexFrame (Wire.stepperRequest :: args))
  | .analogMappingQueryRx args => .feed (sysexFrame (Wire.analogMappingQuery :: args))
  | .capabilityQueryRx args => .feed (sysexFrame (Wire.capabilityQuery :: args))
  | .capabilityResponseRx args => .feed (sysexFrame (Wire.capabilityResponse :: args))
  | .pinStateQueryRx args => .feed (sysexFrame (Wire.pinStateQuery :: args))
  | .pinStateResponseRx args => .feed (sysexFrame (Wire.pinStateResponse :: args))
  | .extendedAnalogRx args => .feed (sysexFrame (Wire.extendedAnalog :: args))
  | .servoConfigRx args => .feed (sysexFrame (Wire.servoConfig :: args))
  | .stringDataRx args => .feed (sysexFrame (Wire.stringData :: args))
  | .extensionRequestRx args => .feed (sysexFrame (Wire.extensionRequest :: args))
  | .extensionConfigRx args => .feed (sysexFrame (Wire.extensionConfig :: args))
  | .reportFirmwareRx args => .feed (sysexFrame (Wire.reportFirmware :: args))
  | .samplingIntervalRx args => .feed (sysexFrame (Wire.samplingInterval :: args))
  | .unknownSysexRx sub args => .feed (sysexFrame (sub :: args))
  | .setPinMode pin mode => .call (.setPinMode pin mode)
  | .digitalWrite pin value => .call (.digitalWrite pin value)
  | .analogWrite pin value => .call (.analogWrite pin value)
  | .servoWrite pin value => .call (.servoWrite pin value)
  | .sendSysex payload => .call (.sendSysex payload)
  | .reportAnalog channel enable => .call (.reportAnalog channel enable)
  | .reportDigital port enable => .call (.reportDigital port enable)
  | .stepperStep index steps => .call (.stepperStep index steps)
  | .reset => .call .reset
  | .split14 v => .call (.split14 v)
  | .join14 lo hi => .call (.join14 lo hi)
  | .encodeSigned32 value => .call (.encodeSigned32 value)
  | .decodeSigned32 b0 b1 b2 b3 b4 => .call (.decodeSigned32 b0 b1 b2 b3 b4)
  | .encodeCustomFloat value => .call (.encodeCustomFloat value)
  | .pack sign sig ef => .call (.pack sign sig ef)
  | .decodeCustomFloat b0 b1 b2 b3 => .call (.decodeCustomFloat b0 b1 b2 b3)

/-- Which parts of a `CH2` frame are read in a context: whole frames and first bytes in IDLE, data bytes while that
message is being collected. -/
def ChannelFrame.appliesIn (cmd : ActiveCmd) (c : RxContext) : ChannelFrame → Bool
  | .whole _ _ _ => c = .idle
  | .first _ => c = .idle
  | .data _ => c = .awaiting cmd

/-- The same for REPORT_VERSION. -/
def VersionFrame.appliesIn (c : RxContext) : VersionFrame → Bool
  | .whole _ _ => c = .idle
  | .first => c = .idle
  | .data _ => c = .awaiting .version

/-- The row applies in this context: "the parser mode decides which rows apply" (30_encoding.md conventions). Calls
apply always (R150). -/
def Instr.appliesIn (c : RxContext) : Instr → Bool
  | .digitalMessageRx f => f.appliesIn .digital c
  | .analogMessageRx f => f.appliesIn .analog c
  | .reportVersionRx f => f.appliesIn c
  | .startSysexRx => c = .idle || c = .overflowed
  | .endSysexRx => c = .idle || c = .inSysex || c = .overflowed
  | .sysexPayloadByteRx b => c = .inSysex || (c = .overflowed && b ≠ Wire.startSysex)
  | .abandonMultibyteRx _ =>
    match c with
    | .awaiting _ => true
    | _ => false
  | .strayDataRx _ => c = .idle || c = .awaiting .none
  | .unassigned8xRx _ => c = .idle
  | .unassignedAxBxRx _ _ => c = .idle
  | .reportAnalogRx _ => c = .idle
  | .reportDigitalRx _ => c = .idle
  | .unassignedF1Rx => c = .idle
  | .unassignedF2Rx => c = .idle
  | .unassignedF3Rx => c = .idle
  | .setPinModeRx => c = .idle
  | .unassignedF5Rx => c = .idle
  | .unassignedF6Rx => c = .idle
  | .unassignedF8Rx => c = .idle
  | .unassignedFARx => c = .idle
  | .unassignedFBRx => c = .idle
  | .unassignedFCRx => c = .idle
  | .unassignedFDRx => c = .idle
  | .unassignedFERx => c = .idle
  | .systemResetRx => c = .idle
  | .analogMappingResponseRx _ => c = .idle
  | .stepperMoveCompleteRx _ => c = .idle
  | .extensionReplyRx _ => c = .idle
  | .emptySysexRx => c = .idle
  | .stepperRequestOtherRx _ => c = .idle
  | .analogMappingQueryRx _ => c = .idle
  | .capabilityQueryRx _ => c = .idle
  | .capabilityResponseRx _ => c = .idle
  | .pinStateQueryRx _ => c = .idle
  | .pinStateResponseRx _ => c = .idle
  | .extendedAnalogRx _ => c = .idle
  | .servoConfigRx _ => c = .idle
  | .stringDataRx _ => c = .idle
  | .extensionRequestRx _ => c = .idle
  | .extensionConfigRx _ => c = .idle
  | .reportFirmwareRx _ => c = .idle
  | .samplingIntervalRx _ => c = .idle
  | .unknownSysexRx _ _ => c = .idle
  | .setPinMode _ _ => true
  | .digitalWrite _ _ => true
  | .analogWrite _ _ => true
  | .servoWrite _ _ => true
  | .sendSysex _ => true
  | .reportAnalog _ _ => true
  | .reportDigital _ _ => true
  | .stepperStep _ _ => true
  | .reset => true
  | .split14 _ => true
  | .join14 _ _ => true
  | .encodeSigned32 _ => true
  | .decodeSigned32 _ _ _ _ _ => true
  | .encodeCustomFloat _ => true
  | .pack _ _ _ => true
  | .decodeCustomFloat _ _ _ _ => true

/-! The words of spec/opcode_table.json (log 10). -/

/-- The bytes of a table word, byte 0 of the wire first: the table reads a frame "as one binary number (byte 0 most
significant)" (30_encoding.md conventions). -/
def wordBytes : Nat → Nat → List Byte
  | 0, _ => []
  | n + 1, w => BitVec.ofNat 8 (w >>> (8 * n)) :: wordBytes n w

/-- The 14-bit group of two data bytes as an operand. -/
def operand14 (l h : Byte) : Int := ((l.toNat + 128 * h.toNat : Nat) : Int)

/-- The call a word stands for that no incoming row has as its whole: the outgoing frames 0xF4, 0xC0, 0xD0 (R153,
R155, R158, R159), the ten bytes of `stepperStep` (R160), the operand bytes of the codec functions that take bytes
(R181, R183, R187), and the empty word of `reset` (R231). -/
def callOfWord : List Byte → Option Call
  | [] => some .reset
  | [b0, b1] =>
    if Wire.isData b0 && Wire.isData b1 then some (.join14 (b0.toNat : Int) (b1.toNat : Int))
    else if b0 &&& 0xF0 = Wire.reportAnalog ∧ b1.toNat ≤ 1 then
      some (.reportAnalog ((Wire.lowNibble b0).toNat : Int) (b1 = 1))
    else if b0 &&& 0xF0 = Wire.reportDigital ∧ b1.toNat ≤ 1 then
      some (.reportDigital ((Wire.lowNibble b0).toNat : Int) (b1 = 1))
    else none
  | [b0, p, m] =>
    if b0 = Wire.setPinMode ∧ Wire.isData p ∧ Wire.isData m then
      some (.setPinMode (p.toNat : Int) (m.toNat : Int))
    else none
  | [b0, b1, b2, b3] =>
    if [b0, b1, b2, b3].all Wire.isData then some (.decodeCustomFloat b0 b1 b2 b3) else none
  | [b0, b1, b2, b3, b4] =>
    if [b0, b1, b2, b3, b4].all Wire.isData then some (.decodeSigned32 b0 b1 b2 b3 b4) else none
  | [b0, p, m, c, l, h] =>
    if b0 = Wire.setPinMode ∧ Wire.isData p ∧ m = 0x03 ∧ c = Wire.channelByte Wire.analogMessage (Wire.lowNibble p)
        ∧ Wire.isData l ∧ h.toNat ≤ 1 then
      some (.analogWrite (p.toNat : Int) (operand14 l h))
    else none
  | [b0, b1, sub, index, s0, s1, s2, s3, s4, b9] =>
    if b0 = Wire.startSysex ∧ b1 = Wire.stepperRequest ∧ [sub, index, s0, s1, s2, s3].all Wire.isData
        ∧ s4.toNat < 16 ∧ b9 = Wire.endSysex then
      some (.stepperStep (index.toNat : Int) (Codec.decodeSigned32 s0 s1 s2 s3 s4))
    else none
  | _ => none

/-- A sysex row's word is the fixed prefix only, "variable_tail says what follows up to the closing 0xF7": the
shortest frame with that prefix. -/
def closeFrame : List Byte → List Byte
  | b0 :: b1 :: rest =>
    if b0 = Wire.startSysex ∧ (b1 :: rest).getLast? ≠ some Wire.endSysex then b0 :: b1 :: (rest ++ [Wire.endSysex])
    else b0 :: b1 :: rest
  | bs => bs

/-- The transaction a table word stands for. -/
def transactionOfWord (nbits w : Nat) : Transaction :=
  let bs := wordBytes (nbits / 8) w
  match callOfWord bs with
  | some c => .call c
  | none => .feed (closeFrame bs)

/-- The instruction the decoder reads from a word of spec/opcode_table.json, the parser in IDLE. -/
def decodeTableWord (nbits w : Nat) : Option Instr :=
  match decode .idle (transactionOfWord nbits w) with
  | .instr i _ => some i
  | .rejected _ => none

end Sys2Proof
end

