-- ==== Sys2Proof/Machine/Fetch.lean ====
section
/-! DEFINITION. What the next step works on: the transaction at the head of `pending`, an RX delivery decoded in the
parser's context (log 1, log 2). -/

namespace Sys2Proof.Machine

/-- What was fetched, with the state the work begins in: the work taken off `pending`, nothing returned yet. -/
inductive Fetched where
  /-- no transaction is pending, or a delivery of no byte: nothing to do (R204 b: the engine "simply remains") -/
  | nothing (s : State)
  | instr (i : Instr) (s : State)
  | query (q : Query) (s : State)
  | construct (s : State)
  deriving DecidableEq, Repr

/-- What stays pending when a delivery has been worked off up to `rest`. -/
def stillPending (rest : List Byte) (queue : List Transaction) : List Transaction :=
  match rest with
  | [] => queue
  | b :: bs => .feed (b :: bs) :: queue

/-- The fetch. -/
def fetch (s : State) : Fetched :=
  match s.pending with
  | [] => .nothing (s.begin [])
  | .query q :: queue => .query q (s.begin queue)
  | .construct :: queue => .construct (s.begin queue)
  | .feed bs :: queue =>
    match decode s.parser.context (.feed bs) with
    | .instr i rest => .instr i (s.begin (stillPending rest queue))
    | .rejected _ => .nothing (s.begin queue)
  | .call c :: queue => .instr (decodeCall c) (s.begin queue)

end Sys2Proof.Machine
end

