-- ==== Sys2Proof/Machine/Step.lean ====
section
/-! DEFINITION. The step: one transaction of the caller (00_scope.md R4), or one row of a longer RX delivery (log 2).
-/

namespace Sys2Proof.Machine

/-- One step. With nothing pending the engine stays as it is. -/
def step (s : State) : Host.Outcome State Fault Refusal :=
  match fetch s with
  | .nothing t => .next t
  | .instr i t => exec i t
  | .query q t => runQuery q t
  | .construct t => .next (construct t)

/-- `s` with the transaction of this table word first in line (log 10, log 17). -/
def State.withFetchWord (s : State) (nbits w : Nat) : State :=
  { s with pending := transactionOfWord nbits w :: s.pending }

end Sys2Proof.Machine
end

