-- ==== Sys2Proof/Safety.lean ====
section
/-! DEFINITION. What counts as a safe state and a safe run: the invariant of 10_state.md (R21 to R35) and the
transactions that exist. -/

namespace Sys2Proof.Machine

/-- The invariants of ParserState: R28 (i) to (v), the bounds of R21 and R26, the canonical fields of R23 and R27, and
what the buffer can hold (R25, R108, R113). -/
structure ParserState.Inv (p : ParserState) : Prop where
  /-- (i) `inSysex` implies `pendingByteCount = 0` and `activeCmd = NONE` -/
  sysexAlone : p.inSysex = true → p.pendingByteCount = 0 ∧ p.activeCmd = .none
  /-- (ii) `pendingByteCount > 0` if and only if `activeCmd != NONE` -/
  pendingIffActive : p.pendingByteCount > 0 ↔ p.activeCmd ≠ .none
  /-- (iii) -/
  pendingBound : p.pendingByteCount ≤ 2
  /-- (iv) -/
  lengthBound : p.sysexLength ≤ Config.sysexCap
  lengthOutside : p.inSysex = false → p.sysexLength = 0
  /-- (v), R27 -/
  overflowInside : p.overflowed = true → p.inSysex = true ∧ p.sysexLength = 0
  /-- R23: only a DIGITAL or ANALOG message has a channel -/
  channelOwned : p.activeCmd = .none ∨ p.activeCmd = .version → p.activeChannel = 0
  /-- the buffer is in its canonical form -/
  bufferWf : Memory.wf p.sysexBuffer = true
  /-- "a payload can never contain 0xF7" (R83) -/
  payloadBytes : p.inSysex = true → ∀ a, a < p.sysexLength → Memory.get p.sysexBuffer a ≠ Wire.endSysex
  /-- the first data byte of a message in progress is a data byte (R108) -/
  firstDataByte : p.pendingByteCount = 1 → (Memory.get p.sysexBuffer 1).toNat < 0x80

/-- The invariants of Device State, for an engine with these parameters. -/
structure DeviceState.Inv (params : Params) (d : DeviceState) : Prop where
  /-- "Bits 14 and 15 are therefore always 0" (R29) -/
  portBits : ∀ n, (d.portAt n).toNat < 2 ^ 14
  /-- "0..255 excluding 0xF7" (R31) -/
  mappingBytes : ∀ pin, d.pinAnalogChannelAt pin ≠ Wire.endSysex
  /-- the reply store is in its canonical form, each sequence at most 2045 long (R33) -/
  repliesWf : ReplyStore.wf d.extReply = true
  /-- no flag beyond `N_STEPPERS` is ever set (R34) -/
  steppersExist : ∀ index, params.nSteppers ≤ index.toNat → d.stepperAt index = false

/-- The invariant of the machine. -/
structure State.Inv (s : State) : Prop where
  parser : s.parser.Inv
  device : s.device.Inv s.params

/-- The transaction is one the interface has: every delivery of bytes (R80: "No incoming byte value is illegal"), every
call (R82; an operand out of range is answered, R152, R180), a QUERY of an element that exists (R39, R50; log 14). -/
def admissible (params : Params) : Transaction → Prop
  | .feed _ => True
  | .call _ => True
  | .query (.stepperStatus index) => index.toNat < params.nSteppers
  | .query _ => True
  | .construct => True

/-- What is pending is admissible. -/
def State.Admissible (s : State) : Prop := ∀ x ∈ s.pending, admissible s.params x

/-- The answer the ByteSink gives to the `k`-th of the writes to come (R210). -/
def answerAt (s : State) (k : Nat) : SinkAnswer := (s.sinkScript[k]?).getD (Config.sinkAnswer (s.sinkWrites + k))

end Sys2Proof.Machine
end

