-- ==== Sys2Proof/Certificates/Slice0/Obligations.lean ====
section
/-! DEFINITION. The statements. In all of them `exec i s` begins in a state with its `returned` list and appends the
results of its operations to it (log 3); `step` clears that list first. Register, buffer and reply-store contents are
said through reads (`portAt`, `Memory.get`, `replyAt`, ...). Bytes are written as numbers, not by the names of
Machine/Wire.lean. -/

namespace Sys2Proof.Claims

open Sys2Proof.Machine

/-- The environment's side and the parameters are as before: nothing written to the ByteSink, no answer of it used, no
transaction taken. -/
structure EnvSame (s t : State) : Prop where
  params : t.params = s.params
  pending : t.pending = s.pending
  tx : t.tx = s.tx
  sinkScript : t.sinkScript = s.sinkScript
  sinkWrites : t.sinkWrites = s.sinkWrites

/-- The canonical IDLE value of ParserState but for the buffer (R28 `mode <- IDLE`; the zeroed channel and length are the
spec's own decision D27). -/
structure IsIdle (p : ParserState) : Prop where
  inSysex : p.inSysex = false
  overflowed : p.overflowed = false
  pendingByteCount : p.pendingByteCount = 0
  activeCmd : p.activeCmd = .none
  activeChannel : p.activeChannel = 0
  sysexLength : p.sysexLength = 0

/-- What an encoder operation that emits `frame` does outside Device State (R150, R151, R203), for every behaviour of
the ByteSink: ParserState, parameters and pending transactions stay; if every write is accepted the frame is on the
wire and `Ok` is returned; if write `k` is the first one refused, with `e`, exactly the `k` bytes before it are on the
wire, nothing is retried and `SinkError(e)` is returned. -/
structure Emits (s : State) (frame : List Byte) (t : State) : Prop where
  params : t.params = s.params
  parser : t.parser = s.parser
  pending : t.pending = s.pending
  accepted : (∀ k, k < frame.length → answerAt s k = .ok) →
    t.tx = s.tx ++ frame ∧ t.returned = s.returned ++ [.ok] ∧
      t.sinkScript = s.sinkScript.drop frame.length ∧ t.sinkWrites = s.sinkWrites + frame.length
  refused : ∀ k e, k < frame.length → (∀ j, j < k → answerAt s j = .ok) → answerAt s k = .fail e →
    t.tx = s.tx ++ frame.take k ∧ t.returned = s.returned ++ [.error (.sinkError e)] ∧
      t.sinkScript = s.sinkScript.drop (k + 1) ∧ t.sinkWrites = s.sinkWrites + (k + 1)

/-- The operation ends with `InvalidArgument`, "having written no state and emitted no byte" (R152; that every operand with
a stated range is checked is the spec's own decision D12). -/
def Refuses (i : Instr) (s : State) : Prop :=
  exec i s = .next { s with returned := s.returned ++ [.error .invalidArgument] }

/-- The outcome of the `feed` of a whole sysex frame with this payload that starts outside an open frame: `None` for
every byte but the last, which returns `r`; the parser in IDLE; the payload in the buffer; nothing else but Device
State touched. -/
structure AfterFrame (s t : State) (payload : List Byte) (r : Response) : Prop where
  env : EnvSame s t
  idle : IsIdle t.parser
  buffer : ∀ a, Memory.get t.parser.sysexBuffer a = (payload[a]?).getD (Memory.get s.parser.sysexBuffer a)
  returned : t.returned = s.returned ++ List.replicate (payload.length + 1) .nothing ++ [r]

/-- The parser is outside a sysex frame (IDLE or AWAITING_MULTIBYTE), its buffer in canonical form. -/
structure OutsideSysex (s : State) : Prop where
  inSysex : s.parser.inSysex = false
  bufferWf : Memory.wf s.parser.sysexBuffer = true

/-- The parser is in IDLE (R28). -/
structure InIdle (s : State) : Prop where
  inSysex : s.parser.inSysex = false
  pending : s.parser.pendingByteCount = 0

/-- IN_SYSEX, not overflowed. -/
structure InFrame (s : State) : Prop where
  inSysex : s.parser.inSysex = true
  overflowed : s.parser.overflowed = false

/-- IN_SYSEX, overflowed. -/
structure InOverflow (s : State) : Prop where
  inSysex : s.parser.inSysex = true
  overflowed : s.parser.overflowed = true

/-- The table of R182: magnitude in groups of 7, 7, 7, 7 and 3 bits, the sign in bit 3 of the fifth byte. -/
def signed32Bytes (x : Int) : List Byte :=
  [BitVec.ofNat 8 (x.natAbs % 128), BitVec.ofNat 8 (x.natAbs / 2 ^ 7 % 128), BitVec.ofNat 8 (x.natAbs / 2 ^ 14 % 128),
    BitVec.ofNat 8 (x.natAbs / 2 ^ 21 % 128), BitVec.ofNat 8 (x.natAbs / 2 ^ 28 % 8 + if x < 0 then 8 else 0)]

/-- The table of R186. -/
def floatBytes (sign sig ef : Nat) : List Byte :=
  [BitVec.ofNat 8 (sig % 128), BitVec.ofNat 8 (sig / 2 ^ 7 % 128), BitVec.ofNat 8 (sig / 2 ^ 14 % 128),
    BitVec.ofNat 8 (sig / 2 ^ 21 % 4 + 4 * ef + 64 * sign)]

/-- The operands that `InvalidArgument` answers: "the complete list" of R202, and the operands outside the domain of the
codec functions that list does not name, by R180 (`split14` and `pack` log 12, `join14` log 22). -/
def OutOfRange (params : Params) : Instr → Prop
  | .setPinMode pin mode => ¬(0 ≤ pin ∧ pin ≤ 127) ∨ mode ∉ ([0, 1, 2, 3, 4, 5, 6, 11] : List Int)
  | .digitalWrite pin value => ¬(0 ≤ pin ∧ pin ≤ 127) ∨ ¬(value = 0 ∨ value = 1)
  | .analogWrite pin value => ¬(0 ≤ pin ∧ pin ≤ 127) ∨ ¬(0 ≤ value ∧ value ≤ 255)
  | .servoWrite pin value => ¬(0 ≤ pin ∧ pin ≤ 127) ∨ ¬(0 ≤ value ∧ value ≤ 180)
  | .reportAnalog channel _ => ¬(0 ≤ channel ∧ channel ≤ 15)
  | .reportDigital port _ => ¬(0 ≤ port ∧ port ≤ 15)
  | .stepperStep index steps =>
    ¬(0 ≤ index ∧ index < params.nSteppers) ∨ ¬(-(2 ^ 31 - 1) ≤ steps ∧ steps ≤ 2 ^ 31 - 1)
  | .encodeSigned32 value => ¬(-(2 ^ 31 - 1) ≤ value ∧ value ≤ 2 ^ 31 - 1)
  | .encodeCustomFloat value => value = .finite 0 ∨ value = .nonFinite
  | .split14 v => ¬(0 ≤ v ∧ v < 16384)
  | .join14 lo hi => ¬(0 ≤ lo ∧ lo ≤ 255) ∨ ¬(0 ≤ hi ∧ hi ≤ 255)
  | .pack sign sig ef => ¬((0 ≤ sign ∧ sign ≤ 1) ∧ (0 ≤ sig ∧ sig < 2 ^ 23) ∧ (0 ≤ ef ∧ ef ≤ 15))
  | _ => False

/-- The instruction is a `feed`: it is encoded as received bytes. -/
def IsFeed (i : Instr) : Prop := ∃ bs, encode i = .feed bs

/-- The eight encoder operations (43_command_encoder.md). -/
def IsEncoder : Instr → Prop
  | .setPinMode _ _ => True
  | .digitalWrite _ _ => True
  | .analogWrite _ _ => True
  | .servoWrite _ _ => True
  | .sendSysex _ => True
  | .reportAnalog _ _ => True
  | .reportDigital _ _ => True
  | .stepperStep _ _ => True
  | _ => False

/-- The codec functions (44_numeric_codec.md). -/
def IsCodec : Instr → Prop
  | .split14 _ => True
  | .join14 _ _ => True
  | .encodeSigned32 _ => True
  | .decodeSigned32 _ _ _ _ _ => True
  | .encodeCustomFloat _ => True
  | .pack _ _ _ => True
  | .decodeCustomFloat _ _ _ _ => True
  | _ => False

/-- At which positions of its frame an encoder operation puts a command byte: the first byte, the ANALOG_MESSAGE byte
of `analogWrite`, the END_SYSEX of `stepperStep` (R153 to R160). -/
def commandPosition : Instr → Nat → Bool
  | .analogWrite _ _, k => k == 0 || k == 3
  | .stepperStep _ _, k => k == 0 || k == 9
  | _, k => k == 0

/-- The state with other results of a step: what is left of it when only `returned` is ignored. -/
def forgetReturned (s : State) : State := { s with returned := [] }

/-- How many bytes a transaction still brings, at least 1: a bound on the steps it takes. -/
def stepsNeeded : Transaction → Nat
  | .feed bs => bs.length + 1
  | .call _ => 1
  | .query _ => 1
  | .construct => 1

end Sys2Proof.Claims

open Sys2Proof Sys2Proof.Machine Sys2Proof.Claims

/-! ## Encoding -/

/-- Every well-formed instruction decodes from its own words, in every context its row applies in, with every operand
at every value (30_encoding.md conventions: the parser mode decides which rows apply, the more specific prefix wins). -/
def Obligations.DecodeEncodeRoundTrip : Prop :=
  ∀ (i : Instr) (c : RxContext), i.wellFormed = true → i.appliesIn c = true → decode c (encode i) = .instr i []

/-- The other direction: whatever the RX decoder takes from a delivery is a well-formed instruction of the context,
and the bytes taken are exactly its words, at least one. No received byte is dropped, none is read twice. -/
def Obligations.DecodedBytesAreItsWords : Prop :=
  ∀ (c : RxContext) (bs rest : List Byte) (i : Instr), decodeRx c bs = .instr i rest →
    i.wellFormed = true ∧ i.appliesIn c = true ∧ ∃ w, encode i = .feed w ∧ w ≠ [] ∧ bs = w ++ rest

/-- R84, the first-byte map of IDLE over all 256 values, each byte delivered alone. -/
def Obligations.FirstByteMapOfIdle : Prop :=
  ∀ b : Byte,
    (b.toNat ≤ 0x7F → decodeRx .idle [b] = .instr (.strayDataRx (b.setWidth 7)) []) ∧
    (0x80 ≤ b.toNat ∧ b.toNat ≤ 0x8F → decodeRx .idle [b] = .instr (.unassigned8xRx (b.setWidth 4)) []) ∧
    (0x90 ≤ b.toNat ∧ b.toNat ≤ 0x9F →
      decodeRx .idle [b] = .instr (.digitalMessageRx (.first (b.setWidth 4))) []) ∧
    (0xA0 ≤ b.toNat ∧ b.toNat ≤ 0xBF →
      decodeRx .idle [b] = .instr (.unassignedAxBxRx (decide (0xB0 ≤ b.toNat)) (b.setWidth 4)) []) ∧
    (0xC0 ≤ b.toNat ∧ b.toNat ≤ 0xCF → decodeRx .idle [b] = .instr (.reportAnalogRx (b.setWidth 4)) []) ∧
    (0xD0 ≤ b.toNat ∧ b.toNat ≤ 0xDF → decodeRx .idle [b] = .instr (.reportDigitalRx (b.setWidth 4)) []) ∧
    (0xE0 ≤ b.toNat ∧ b.toNat ≤ 0xEF →
      decodeRx .idle [b] = .instr (.analogMessageRx (.first (b.setWidth 4))) []) ∧
    (b = 0xF0 → decodeRx .idle [b] = .instr .startSysexRx []) ∧
    (b = 0xF1 → decodeRx .idle [b] = .instr .unassignedF1Rx []) ∧
    (b = 0xF2 → decodeRx .idle [b] = .instr .unassignedF2Rx []) ∧
    (b = 0xF3 → decodeRx .idle [b] = .instr .unassignedF3Rx []) ∧
    (b = 0xF4 → decodeRx .idle [b] = .instr .setPinModeRx []) ∧
    (b = 0xF5 → decodeRx .idle [b] = .instr .unassignedF5Rx []) ∧
    (b = 0xF6 → decodeRx .idle [b] = .instr .unassignedF6Rx []) ∧
    (b = 0xF7 → decodeRx .idle [b] = .instr .endSysexRx []) ∧
    (b = 0xF8 → decodeRx .idle [b] = .instr .unassignedF8Rx []) ∧
    (b = 0xF9 → decodeRx .idle [b] = .instr (.reportVersionRx .first) []) ∧
    (b = 0xFA → decodeRx .idle [b] = .instr .unassignedFARx []) ∧
    (b = 0xFB → decodeRx .idle [b] = .instr .unassignedFBRx []) ∧
    (b = 0xFC → decodeRx .idle [b] = .instr .unassignedFCRx []) ∧
    (b = 0xFD → decodeRx .idle [b] = .instr .unassignedFDRx []) ∧
    (b = 0xFE → decodeRx .idle [b] = .instr .unassignedFERx []) ∧
    (b = 0xFF → decodeRx .idle [b] = .instr .systemResetRx [])

/-- A few words written out from the spec's formats (R71, R73): a word of each incoming family, in the context it is
read in. -/
def Obligations.SpecWordsDecode : Prop :=
  decodeRx .idle [0x92, 0x05, 0x01] = .instr (.digitalMessageRx (.whole 2 5 1)) [] ∧
  decodeRx .idle [0xE3, 0x7F, 0x07] = .instr (.analogMessageRx (.whole 3 0x7F 7)) [] ∧
  decodeRx .idle [0xF9, 0x02, 0x05] = .instr (.reportVersionRx (.whole 2 5)) [] ∧
  decodeRx .idle [0xF0, 0x6A, 0x7F, 0x00, 0x7F, 0xF7] = .instr (.analogMappingResponseRx [0x7F, 0, 0x7F]) [] ∧
  decodeRx .idle [0xF0, 0x62, 0x0A, 0x01, 0xF7, 0x05] = .instr (.stepperMoveCompleteRx [1]) [0x05] ∧
  decodeRx .idle [0xF0, 0x62, 0x02, 0x01, 0xF7] = .instr (.stepperRequestOtherRx [2, 1]) [] ∧
  decodeRx .idle [0xF0, 0xF0, 0x6A, 0x05, 0xF7] = .instr (.unknownSysexRx 0xF0 [0x6A, 5]) [] ∧
  decodeRx (.awaiting .analog) [0xC0, 0x01] = .instr (.abandonMultibyteRx 0x40) [0x01] ∧
  decodeRx .inSysex [0x90] = .instr (.sysexPayloadByteRx 0x90) []

/-- R70: each byte is in exactly one class, by its value alone; the class of a channel command fixes command and
channel, `byte & 0xF0` and `byte & 0x0F`. -/
def Obligations.ByteClassesPartition : Prop :=
  ∀ b : Byte,
    (Wire.byteClass b = .data ↔ b.toNat ≤ 0x7F) ∧
    (Wire.byteClass b = .channelCommand ↔ 0x80 ≤ b.toNat ∧ b.toNat ≤ 0xEF) ∧
    (Wire.byteClass b = .systemCommand ↔ 0xF0 ≤ b.toNat) ∧
    Wire.channelByte (b &&& 0xF0) (Wire.lowNibble b) = b ∧ (Wire.lowNibble b).toNat = b.toNat % 16

/-! ## The step -/

/-- A step runs the decoded instruction: the head of `pending` is taken off (an RX delivery up to the bytes not yet
used), the results of the last step are cleared, then `exec` runs. The way a step is cut is the model's (log 1, 2, 3). -/
def Obligations.StepRunsTheDecodedInstruction : Prop :=
  (∀ (s : State) (bs rest : List Byte) (queue : List Transaction) (i : Instr), s.pending = .feed bs :: queue →
    decode s.parser.context (.feed bs) = .instr i rest →
    step s = exec i { s with pending := (if rest = [] then queue else .feed rest :: queue), returned := [] }) ∧
  (∀ (s : State) (c : Call) (rest : List Byte) (queue : List Transaction) (i : Instr), s.pending = .call c :: queue →
    decode s.parser.context (.call c) = .instr i rest →
    step s = exec i { s with pending := queue, returned := [] })

/-- A QUERY returns the element and changes nothing (R39); of a stepper flag that does not exist there is no value,
the model faults (log 14). -/
def Obligations.QueryReadsTheElement : Prop :=
  ∀ (s : State) (q : Query) (queue : List Transaction), s.pending = .query q :: queue →
    let t : State := { s with pending := queue, returned := [] }
    match q with
    | .port n => step s = .next { t with returned := [.element (.port (s.device.portAt n))] }
    | .pinMode pin => step s = .next { t with returned := [.element (.pinMode (s.device.pinModeAt pin))] }
    | .pinAnalogChannel pin =>
      step s = .next { t with returned := [.element (.pinAnalogChannel (s.device.pinAnalogChannelAt pin))] }
    | .analogValue c => step s = .next { t with returned := [.element (.analogValue (s.device.analogValueAt c))] }
    | .extReply a r => step s = .next { t with returned := [.element (.extReply (s.device.replyAt a r))] }
    | .stepperStatus i =>
      step s = if i.toNat < s.params.nSteppers then
        .next { t with returned := [.element (.stepperStatus (s.device.stepperAt i))] }
      else .fault (.noSuchElement i.toNat)
    | .fwVersion => step s = .next { t with returned := [.element (.fwVersion s.device.fwVersion)] }

/-- With nothing pending, or a delivery of no byte, nothing happens (the model's choice, log 1: the engine "simply
remains", R204 b). A call is taken off and answered, whatever its operands and whatever the state (R150, R152, R180):
no call is refused. -/
def Obligations.StepWithoutWork : Prop :=
  (∀ s : State, s.pending = [] → step s = .next { s with returned := [] }) ∧
  (∀ (s : State) (queue : List Transaction), s.pending = .feed [] :: queue →
    step s = .next { s with pending := queue, returned := [] }) ∧
  (∀ (s : State) (c : Call) (queue : List Transaction), s.pending = .call c :: queue →
    ∃ t r, step s = .next t ∧ t.pending = queue ∧ t.returned = [r])

/-- Every incoming row is the `feed` of its bytes, in every mode of the parser, so inside a sysex frame the bytes of a
message are payload (opcode_table.json notes; R82, R101). -/
def Obligations.RxInstructionFeedsItsBytes : Prop :=
  ∀ (i : Instr) (bs : List Byte) (s : State), encode i = .feed bs → exec i s = feedAll bs s

/-- How a delivery is cut into instructions does not matter (log 2): from a state that meets the invariant, stepping
through one delivery of several bytes and stepping through the same bytes delivered one at a time end in the same
state, but for the results of the last step. -/
def Obligations.DeliveryCutDoesNotMatter : Prop :=
  ∀ (s : State) (bs : List Byte) (queue : List Transaction), s.Inv → bs ≠ [] →
    ∃ (k : Nat) (t u : State), k ≤ bs.length ∧
      core.run k { s with pending := .feed bs :: queue } = .next t ∧
      core.run bs.length { s with pending := bs.map (fun b => .feed [b]) ++ queue } = .next u ∧
      t.pending = queue ∧ forgetReturned t = forgetReturned u

/-! ## The Stream Parser -/

/-- R107: in IDLE these bytes change no state of any kind and return `None`. -/
def Obligations.IgnoredBytesInIdle : Prop :=
  ∀ s : State, InIdle s →
    let t : State := { s with returned := s.returned ++ [.nothing] }
    (∀ d, exec (.strayDataRx d) s = .next t) ∧ (∀ n, exec (.unassigned8xRx n) s = .next t) ∧
    (∀ x n, exec (.unassignedAxBxRx x n) s = .next t) ∧ (∀ n, exec (.reportAnalogRx n) s = .next t) ∧
    (∀ n, exec (.reportDigitalRx n) s = .next t) ∧ exec .unassignedF1Rx s = .next t ∧
    exec .unassignedF2Rx s = .next t ∧ exec .unassignedF3Rx s = .next t ∧ exec .setPinModeRx s = .next t ∧
    exec .unassignedF5Rx s = .next t ∧ exec .unassignedF6Rx s = .next t ∧ exec .endSysexRx s = .next t ∧
    exec .unassignedF8Rx s = .next t ∧ exec .unassignedFARx s = .next t ∧ exec .unassignedFBRx s = .next t ∧
    exec .unassignedFCRx s = .next t ∧ exec .unassignedFDRx s = .next t ∧ exec .unassignedFERx s = .next t ∧
    exec .systemResetRx s = .next t

/-- R103, R104, R105: the first byte of a multi-byte message in IDLE (that VERSION leaves `activeChannel` is the spec's own
decision, D27, R23). -/
def Obligations.FirstBytesStartAMessage : Prop :=
  ∀ s : State, InIdle s →
    (∀ n, exec (.digitalMessageRx (.first n)) s = .next { s with
      parser := { s.parser with pendingByteCount := 2, activeCmd := .digital, activeChannel := n }
      returned := s.returned ++ [.nothing] }) ∧
    (∀ n, exec (.analogMessageRx (.first n)) s = .next { s with
      parser := { s.parser with pendingByteCount := 2, activeCmd := .analog, activeChannel := n }
      returned := s.returned ++ [.nothing] }) ∧
    exec (.reportVersionRx .first) s = .next { s with
      parser := { s.parser with pendingByteCount := 2, activeCmd := .version }
      returned := s.returned ++ [.nothing] }

/-- R108: the first data byte of a message goes to index 1 and one byte is still owed; the second goes to index 0, the
message completes with what its kind says (R110, R111, R112) and the parser is in IDLE. (The events and their fields, R117,
are the spec's own decision D8, the zeroed channel of IDLE, R23, its decision D27.) -/
def Obligations.DataBytesFillAndComplete : Prop :=
  ∀ (s : State) (d : Data7), s.Inv →
    (∀ i, (s.parser.activeCmd = .digital ∧ i = .digitalMessageRx (.data d)) ∨
        (s.parser.activeCmd = .analog ∧ i = .analogMessageRx (.data d)) ∨
        (s.parser.activeCmd = .version ∧ i = .reportVersionRx (.data d)) →
      (s.parser.pendingByteCount = 2 →
        ∃ t, exec i s = .next t ∧ EnvSame s t ∧ t.device = s.device ∧ t.returned = s.returned ++ [.nothing] ∧
          t.parser = { s.parser with pendingByteCount := 1, sysexBuffer := t.parser.sysexBuffer } ∧
          ∀ a, Memory.get t.parser.sysexBuffer a =
            if a = 1 then d.setWidth 8 else Memory.get s.parser.sysexBuffer a) ∧
      (s.parser.pendingByteCount = 1 →
        let lo := Memory.get s.parser.sysexBuffer 1
        ∃ t r, exec i s = .next t ∧ EnvSame s t ∧ IsIdle t.parser ∧ t.returned = s.returned ++ [r] ∧
          (∀ a, Memory.get t.parser.sysexBuffer a =
            if a = 0 then d.setWidth 8 else Memory.get s.parser.sysexBuffer a) ∧
          (s.parser.activeCmd = .digital →
            r = .event (.digitalPortChanged s.parser.activeChannel (BitVec.ofNat 14 (lo.toNat + 128 * d.toNat))) ∧
            t.device = s.device.setPort s.parser.activeChannel (BitVec.ofNat 16 (lo.toNat + 128 * d.toNat))) ∧
          (s.parser.activeCmd = .analog →
            r = .event (.analogChannelChanged s.parser.activeChannel (BitVec.ofNat 14 (lo.toNat + 128 * d.toNat))) ∧
            t.device = s.device.setAnalogValue s.parser.activeChannel (BitVec.ofNat 14 (lo.toNat + 128 * d.toNat))) ∧
          (s.parser.activeCmd = .version →
            r = .event (.versionReported (lo.setWidth 7) d) ∧ t.device = s.device.setFwVersion (lo.setWidth 7) d)))

/-- R110: a DIGITAL_MESSAGE outside a sysex frame overwrites the whole register of its port with the 14-bit value and
nothing else of Device State.Where a
message is in progress, its abandonment (R109) is the spec's own reading, decision D2;
the event and its fields (R117) are decision D8. -/
def Obligations.DigitalMessageOverwritesPort : Prop :=
  ∀ (s : State) (n : Nibble) (l h : Data7), OutsideSysex s →
    ∃ t, exec (.digitalMessageRx (.whole n l h)) s = .next t ∧ EnvSame s t ∧ IsIdle t.parser ∧
      t.returned = s.returned ++
        [.nothing, .nothing, .event (.digitalPortChanged n (BitVec.ofNat 14 (l.toNat + 128 * h.toNat)))] ∧
      (t.device.portAt n).toNat = l.toNat + 128 * h.toNat ∧
      (∀ m, m ≠ n → t.device.portAt m = s.device.portAt m) ∧
      t.device = { s.device with port := t.device.port } ∧
      ∀ a, Memory.get t.parser.sysexBuffer a =
        if a = 0 then h.setWidth 8 else if a = 1 then l.setWidth 8 else Memory.get s.parser.sysexBuffer a

/-- R111: an ANALOG_MESSAGE outside a sysex frame.Where a
message is in progress, its abandonment (R109) is the spec's own reading, decision D2;
the event and its fields (R117) are decision D8. -/
def Obligations.AnalogMessageStoresReading : Prop :=
  ∀ (s : State) (n : Nibble) (l h : Data7), OutsideSysex s →
    ∃ t, exec (.analogMessageRx (.whole n l h)) s = .next t ∧ EnvSame s t ∧ IsIdle t.parser ∧
      t.returned = s.returned ++
        [.nothing, .nothing, .event (.analogChannelChanged n (BitVec.ofNat 14 (l.toNat + 128 * h.toNat)))] ∧
      (t.device.analogValueAt n).toNat = l.toNat + 128 * h.toNat ∧
      (∀ m, m ≠ n → t.device.analogValueAt m = s.device.analogValueAt m) ∧
      t.device = { s.device with analogValue := t.device.analogValue } ∧
      ∀ a, Memory.get t.parser.sysexBuffer a =
        if a = 0 then h.setWidth 8 else if a = 1 then l.setWidth 8 else Memory.get s.parser.sysexBuffer a

/-- R112: a REPORT_VERSION outside a sysex frame, first data byte major.Where a
message is in progress, its abandonment (R109) is the spec's own reading, decision D2;
the event and its fields (R117) are decision D8. -/
def Obligations.VersionMessageStoresPair : Prop :=
  ∀ (s : State) (m v : Data7), OutsideSysex s →
    ∃ t, exec (.reportVersionRx (.whole m v)) s = .next t ∧ EnvSame s t ∧ IsIdle t.parser ∧
      t.returned = s.returned ++ [.nothing, .nothing, .event (.versionReported m v)] ∧
      t.device.fwVersion.major = m ∧ t.device.fwVersion.minor = v ∧
      t.device = { s.device with fwVersion := t.device.fwVersion } ∧
      ∀ a, Memory.get t.parser.sysexBuffer a =
        if a = 0 then v.setWidth 8 else if a = 1 then m.setWidth 8 else Memory.get s.parser.sysexBuffer a

/-- A byte of 0x80 or above abandons a message in progress without event, error or Device State write, and is then
handled exactly as in IDLE (R109; that reading of "restarting IDLE-dispatch" is the spec's own, decision D2). -/
def Obligations.HighByteAbandonsMessage : Prop :=
  ∀ (s : State) (b : Data7), s.parser.inSysex = false → s.parser.pendingByteCount > 0 →
    let p : ParserState := { s.parser with
      inSysex := false, overflowed := false, pendingByteCount := 0, activeCmd := .none, activeChannel := 0
      sysexLength := 0 }
    let n : Nibble := b.setWidth 4
    ∃ t, exec (.abandonMultibyteRx b) s = .next t ∧ EnvSame s t ∧ t.device = s.device ∧
      t.returned = s.returned ++ [.nothing] ∧
      t.parser =
        if b &&& 0x70 = 0x10 then { p with pendingByteCount := 2, activeCmd := .digital, activeChannel := n }
        else if b &&& 0x70 = 0x60 then { p with pendingByteCount := 2, activeCmd := .analog, activeChannel := n }
        else if b = 0x79 then { p with pendingByteCount := 2, activeCmd := .version }
        else if b = 0x70 then { p with inSysex := true }
        else p

/-- R106: START_SYSEX in IDLE opens an empty frame; the buffer elements are not rewritten. (The flag `overflowed` and the
buffer contents are the spec's own decisions D3, D27.) -/
def Obligations.StartSysexOpensFrame : Prop :=
  ∀ s : State, InIdle s →
    exec .startSysexRx s = .next { s with
      parser := { s.parser with inSysex := true, sysexLength := 0, overflowed := false }
      returned := s.returned ++ [.nothing] }

/-- R113: any byte but END_SYSEX, START_SYSEX included, is stored at index `sysexLength` of an open frame with room. -/
def Obligations.PayloadByteIsAppended : Prop :=
  ∀ (s : State) (b : Byte) (i : Instr), InFrame s → Memory.wf s.parser.sysexBuffer = true →
    s.parser.sysexLength < 4096 → b ≠ 0xF7 →
    (i = .sysexPayloadByteRx b ∨ (b = 0xF0 ∧ i = .startSysexRx)) →
    ∃ t, exec i s = .next t ∧ EnvSame s t ∧ t.device = s.device ∧ t.returned = s.returned ++ [.nothing] ∧
      t.parser = { s.parser with
        sysexLength := s.parser.sysexLength + 1, sysexBuffer := t.parser.sysexBuffer } ∧
      ∀ a, Memory.get t.parser.sysexBuffer a =
        if a = s.parser.sysexLength then b else Memory.get s.parser.sysexBuffer a

/-- The 4097th payload byte, whatever its value but END_SYSEX, is dropped and `OverflowError` is returned; Device
State is untouched (R114, R201; the mechanism is the spec's own, decision D3). -/
def Obligations.OverflowOnThe4097thByte : Prop :=
  ∀ (s : State) (b : Byte), InFrame s → s.parser.sysexLength = 4096 → b ≠ 0xF7 →
    exec (.sysexPayloadByteRx b) s = .next { s with
      parser := { s.parser with overflowed := true, sysexLength := 0 }
      returned := s.returned ++ [.error .overflowError] } ∧
    (b = 0xF0 → exec .startSysexRx s = exec (.sysexPayloadByteRx b) s)

/-- After an overflow END_SYSEX ends the frame with nothing dispatched, START_SYSEX opens a new one at once, any other
byte is dropped; no error is returned again (R115, R208; the spec's own decisions D3, D4). -/
def Obligations.OverflowedFrameIsDiscarded : Prop :=
  ∀ s : State, InOverflow s →
    (∃ t, exec .endSysexRx s = .next t ∧ EnvSame s t ∧ t.device = s.device ∧ IsIdle t.parser ∧
      t.parser.sysexBuffer = s.parser.sysexBuffer ∧ t.returned = s.returned ++ [.nothing]) ∧
    exec .startSysexRx s = .next { s with
      parser := { s.parser with overflowed := false, sysexLength := 0 }, returned := s.returned ++ [.nothing] } ∧
    ∀ b, b ≠ 0xF7 → b ≠ 0xF0 →
      exec (.sysexPayloadByteRx b) s = .next { s with returned := s.returned ++ [.nothing] }

/-- R116: END_SYSEX dispatches the payload that lies in the buffer and the parser is in IDLE; the byte itself is not
stored. The dispatcher is stated below, frame by frame. -/
def Obligations.EndSysexDispatchesThePayload : Prop :=
  ∀ (s : State) (payload : List Byte), InFrame s → s.parser.sysexLength = payload.length → payload.length ≤ 4096 →
    (∀ i (h : i < payload.length), Memory.get s.parser.sysexBuffer i = payload[i]) →
    ∃ t, exec .endSysexRx s = .next t ∧ EnvSame s t ∧ IsIdle t.parser ∧
      t.parser.sysexBuffer = s.parser.sysexBuffer ∧ t.device = (dispatch s.params payload s.device).1 ∧
      t.returned = s.returned ++ [(dispatch s.params payload s.device).2]

/-- Every `feed` that goes on returns exactly one result (R117): `None`, an event, and then the parser is in IDLE, or
`OverflowError`, and that exactly when a 4097th payload byte arrives (R114; decision D3). It writes nothing to the
ByteSink (R100). -/
def Obligations.FeedReturnsOneResult : Prop :=
  ∀ (b : Byte) (s t : State), feed b s = .next t →
    EnvSame s t ∧ ∃ r, t.returned = s.returned ++ [r] ∧
      (r = .nothing ∨ (∃ e, r = .event e ∧ t.parser.mode = .idle) ∨ r = .error .overflowError) ∧
      (r = .error .overflowError ↔ s.parser.inSysex = true ∧ s.parser.overflowed = false ∧ b ≠ 0xF7 ∧
        4096 ≤ s.parser.sysexLength)

/-- A frame whose payload runs to more than 4096 bytes is lost whole and reported once, by the 4097th byte; END_SYSEX
then leads back to IDLE with Device State as it was (R237, R201, R208; decision D3). -/
def Obligations.OversizedFrameIsReportedOnce : Prop :=
  ∀ (s : State) (body tail : List Byte) (b : Byte), OutsideSysex s → body.length = 4096 →
    (∀ x ∈ body, x ≠ 0xF7) → b ≠ 0xF7 → (∀ x ∈ tail, x ≠ 0xF7 ∧ x ≠ 0xF0) →
    ∃ t, feedAll ([0xF0] ++ body ++ [b] ++ tail ++ [0xF7]) s = .next t ∧ EnvSame s t ∧ t.device = s.device ∧
      IsIdle t.parser ∧
      t.returned = s.returned ++ List.replicate (body.length + 1) .nothing ++ [.error .overflowError] ++
        List.replicate (tail.length + 1) .nothing

/-! ## The Sysex Dispatcher -/

/-- ANALOG_MAPPING_RESPONSE: entry `p` is mapping byte `p`, as received, and 127 where there is none; positions of 128
and above are dropped; no event (R133; dropping, storing unmasked and returning `None` are the spec's own decisions D7,
D24, D8). -/
def Obligations.AnalogMappingReplacesTheTable : Prop :=
  ∀ (s : State) (args : List Byte), OutsideSysex s → (Instr.analogMappingResponseRx args).wellFormed = true →
    ∃ t, exec (.analogMappingResponseRx args) s = .next t ∧ AfterFrame s t (0x6A :: args) .nothing ∧
      (∀ pin : Data7, t.device.pinAnalogChannelAt pin = (args[pin.toNat]?).getD 127) ∧
      t.device = { s.device with pinAnalogChannel := t.device.pinAnalogChannel }

/-- MOVE_COMPLETE: the flag of an existing index becomes 0 and the event is returned, whatever the flag was; a missing
index and one of `N_STEPPERS` or above change nothing (R134; the last two are the spec's own decisions D6, D7). -/
def Obligations.MoveCompleteClearsTheFlag : Prop :=
  ∀ (s : State) (args : List Byte), OutsideSysex s → (Instr.stepperMoveCompleteRx args).wellFormed = true →
    match args with
    | [] => ∃ t, exec (.stepperMoveCompleteRx args) s = .next t ∧ AfterFrame s t [0x62, 0x0A] .nothing ∧
        t.device = s.device
    | idx :: more =>
      if idx.toNat < s.params.nSteppers then
        ∃ t, exec (.stepperMoveCompleteRx args) s = .next t ∧
          AfterFrame s t (0x62 :: 0x0A :: idx :: more) (.event (.stepperCompleted (idx.setWidth 7))) ∧
          (∀ j : Data7, t.device.stepperAt j = if j.toNat = idx.toNat then false else s.device.stepperAt j) ∧
          t.device = { s.device with stepperStatus := t.device.stepperStatus }
      else
        ∃ t, exec (.stepperMoveCompleteRx args) s = .next t ∧
          AfterFrame s t (0x62 :: 0x0A :: idx :: more) .nothing ∧ t.device = s.device

/-- EXTENSION_REPLY: key and values are pairs `lo | (hi << 7)` of the bytes as received, the stored sequence is
overwritten, every other key unchanged; an odd last byte is dropped; a payload shorter than 5 bytes changes nothing
(R135, R61; the malformed cases and the missing mask are the spec's own decisions D6, D26). -/
def Obligations.ExtensionReplyStoresThePairs : Prop :=
  ∀ (s : State) (args : List Byte), OutsideSysex s → ReplyStore.wf s.device.extReply = true →
    (Instr.extensionReplyRx args).wellFormed = true →
    match args with
    | a0 :: a1 :: r0 :: r1 :: vs =>
      ∃ (t : State) (address register : Word15) (values : List Word15),
        exec (.extensionReplyRx args) s = .next t ∧
        AfterFrame s t (0x77 :: args) (.event (.extensionReplyReceived address register values)) ∧
        address.toNat = a0.toNat ||| (a1.toNat <<< 7) ∧ register.toNat = r0.toNat ||| (r1.toNat <<< 7) ∧
        values.length = vs.length / 2 ∧
        (∀ k (h : k < values.length),
          values[k].toNat = (vs.getD (2 * k) 0).toNat ||| ((vs.getD (2 * k + 1) 0).toNat <<< 7)) ∧
        (∀ a r, t.device.replyAt a r = if a = address ∧ r = register then some values else s.device.replyAt a r) ∧
        t.device = { s.device with extReply := t.device.extReply }
    | _ => ∃ t, exec (.extensionReplyRx args) s = .next t ∧ AfterFrame s t (0x77 :: args) .nothing ∧
        t.device = s.device

/-- R136, and R132 for the empty frame (decision D5): a frame that is not recognised changes no Device State and returns
`None`. -/
def Obligations.UnrecognisedSysexIsDiscarded : Prop :=
  ∀ (s : State) (i : Instr) (payload : List Byte), OutsideSysex s → i.wellFormed = true →
    (i = .emptySysexRx ∧ payload = [] ∨
      ∃ args : List Byte,
        i = .stepperRequestOtherRx args ∧ payload = 0x62 :: args ∨
        i = .analogMappingQueryRx args ∧ payload = 0x69 :: args ∨
        i = .capabilityQueryRx args ∧ payload = 0x6B :: args ∨
        i = .capabilityResponseRx args ∧ payload = 0x6C :: args ∨
        i = .pinStateQueryRx args ∧ payload = 0x6D :: args ∨
        i = .pinStateResponseRx args ∧ payload = 0x6E :: args ∨
        i = .extendedAnalogRx args ∧ payload = 0x6F :: args ∨
        i = .servoConfigRx args ∧ payload = 0x70 :: args ∨
        i = .stringDataRx args ∧ payload = 0x71 :: args ∨
        i = .extensionRequestRx args ∧ payload = 0x76 :: args ∨
        i = .extensionConfigRx args ∧ payload = 0x78 :: args ∨
        i = .reportFirmwareRx args ∧ payload = 0x79 :: args ∨
        i = .samplingIntervalRx args ∧ payload = 0x7A :: args ∨
        ∃ sub, i = .unknownSysexRx sub args ∧ payload = sub :: args) →
    ∃ t, exec i s = .next t ∧ AfterFrame s t payload .nothing ∧ t.device = s.device

/-- R37 for the incoming side: what a `feed` may write of Device State, and when. `pinMode[]` it never writes. -/
def Obligations.FeedWritesOnlyByItsRule : Prop :=
  ∀ (b : Byte) (s t : State), feed b s = .next t →
    let completes := s.parser.inSysex = false ∧ s.parser.pendingByteCount = 1 ∧ b.toNat < 0x80
    let dispatches := s.parser.inSysex = true ∧ s.parser.overflowed = false ∧ b = 0xF7
    t.device.pinMode = s.device.pinMode ∧
    (t.device.port ≠ s.device.port → completes ∧ s.parser.activeCmd = .digital) ∧
    (t.device.analogValue ≠ s.device.analogValue → completes ∧ s.parser.activeCmd = .analog) ∧
    (t.device.fwVersion ≠ s.device.fwVersion → completes ∧ s.parser.activeCmd = .version) ∧
    (t.device.pinAnalogChannel ≠ s.device.pinAnalogChannel →
      dispatches ∧ Memory.get s.parser.sysexBuffer 0 = 0x6A) ∧
    (t.device.stepperStatus ≠ s.device.stepperStatus →
      dispatches ∧ Memory.get s.parser.sysexBuffer 0 = 0x62 ∧ Memory.get s.parser.sysexBuffer 1 = 0x0A) ∧
    (t.device.extReply ≠ s.device.extReply → dispatches ∧ Memory.get s.parser.sysexBuffer 0 = 0x77)

/-! ## The Command Encoder -/

/-- `setPinMode` (R153): the mode is stored before the frame is emitted, and kept whatever the ByteSink answers (both
the spec's own decisions, D10, D13). -/
def Obligations.SetPinModeStoresThenEmits : Prop :=
  ∀ (s : State) (pin mode : Int),
    (0 ≤ pin ∧ pin ≤ 127 →
      ∀ m : PinMode, (mode, m) ∈ ([(0, .input), (1, .output), (2, .analog), (3, .pwm), (4, .servo), (5, .shift),
          (6, .i2c), (11, .inputPullup)] : List (Int × PinMode)) →
      ∃ t, exec (.setPinMode pin mode) s = .next t ∧
        Emits s [0xF4, BitVec.ofInt 8 pin, BitVec.ofInt 8 mode] t ∧
        (∀ q : Data7, t.device.pinModeAt q = if (q.toNat : Int) = pin then m else s.device.pinModeAt q) ∧
        t.device = { s.device with pinMode := t.device.pinMode }) ∧
    (¬(0 ≤ pin ∧ pin ≤ 127) ∨ mode ∉ ([0, 1, 2, 3, 4, 5, 6, 11] : List Int) → Refuses (.setPinMode pin mode) s)

/-- `digitalWrite` (R154): bit `pin & 7` of port `pin >> 3` becomes the level, every other bit and port is preserved, and
the whole updated register is emitted (that it is the whole register, and that the write is kept on a failure, are the
spec's own decisions D11, D13). -/
def Obligations.DigitalWriteReadModifiesWrites : Prop :=
  ∀ (s : State) (pin value : Int),
    (0 ≤ pin ∧ pin ≤ 127 ∧ (value = 0 ∨ value = 1) →
      let port : Nibble := BitVec.ofInt 4 (pin / 8)
      let m := fun t : State => (t.device.portAt port).toNat
      ∃ t, exec (.digitalWrite pin value) s = .next t ∧
        Emits s [0x90 ||| port.setWidth 8, BitVec.ofNat 8 (m t % 128), BitVec.ofNat 8 (m t / 128)] t ∧
        (∀ k, k < 16 → (t.device.portAt port).getLsbD k =
          if (k : Int) = pin % 8 then decide (value = 1) else (s.device.portAt port).getLsbD k) ∧
        (∀ q, q ≠ port → t.device.portAt q = s.device.portAt q) ∧
        t.device = { s.device with port := t.device.port }) ∧
    (¬(0 ≤ pin ∧ pin ≤ 127) ∨ ¬(value = 0 ∨ value = 1) → Refuses (.digitalWrite pin value) s)

/-- `analogWrite` (R155): `setPinMode(pin, PWM)` and then the ANALOG_MESSAGE of channel `pin & 0x0F`, six bytes in all;
`analogValue[]` is not written (the stored mode is the spec's own decision D10). -/
def Obligations.AnalogWriteSetsPwmThenEmits : Prop :=
  ∀ (s : State) (pin value : Int),
    (0 ≤ pin ∧ pin ≤ 127 ∧ 0 ≤ value ∧ value ≤ 255 →
      ∃ t, exec (.analogWrite pin value) s = .next t ∧
        Emits s [0xF4, BitVec.ofInt 8 pin, 3, 0xE0 ||| BitVec.ofInt 8 (pin % 16), BitVec.ofInt 8 (value % 128),
          BitVec.ofInt 8 (value / 128)] t ∧
        (∀ q : Data7, t.device.pinModeAt q = if (q.toNat : Int) = pin then .pwm else s.device.pinModeAt q) ∧
        t.device = { s.device with pinMode := t.device.pinMode }) ∧
    (¬(0 ≤ pin ∧ pin ≤ 127) ∨ ¬(0 ≤ value ∧ value ≤ 255) → Refuses (.analogWrite pin value) s)

/-- `servoWrite` (R156): the same framing, no SET_PIN_MODE, no state written. (Which operands are checked is the spec's
own decision D12.) -/
def Obligations.ServoWriteEmitsOnly : Prop :=
  ∀ (s : State) (pin value : Int),
    (0 ≤ pin ∧ pin ≤ 127 ∧ 0 ≤ value ∧ value ≤ 180 →
      ∃ t, exec (.servoWrite pin value) s = .next t ∧ t.device = s.device ∧
        Emits s [0xE0 ||| BitVec.ofInt 8 (pin % 16), BitVec.ofInt 8 (value % 128), BitVec.ofInt 8 (value / 128)] t) ∧
    (¬(0 ≤ pin ∧ pin ≤ 127) ∨ ¬(0 ≤ value ∧ value ≤ 180) → Refuses (.servoWrite pin value) s)

/-- `sendSysex` (R157): START_SYSEX, the payload verbatim, END_SYSEX, for every payload (that nothing is checked is the
spec's own decision D14). -/
def Obligations.SendSysexEmitsVerbatim : Prop :=
  ∀ (s : State) (payload : List Byte),
    ∃ t, exec (.sendSysex payload) s = .next t ∧ t.device = s.device ∧ Emits s ([0xF0] ++ payload ++ [0xF7]) t

/-- `reportAnalog` and `reportDigital` (R158, R159): the two bytes, no state written. -/
def Obligations.ReportTogglesEmitOnly : Prop :=
  ∀ (s : State) (index : Int) (enable : Bool),
    (0 ≤ index ∧ index ≤ 15 →
      (∃ t, exec (.reportAnalog index enable) s = .next t ∧ t.device = s.device ∧
        Emits s [0xC0 ||| BitVec.ofInt 8 index, if enable then 1 else 0] t) ∧
      (∃ t, exec (.reportDigital index enable) s = .next t ∧ t.device = s.device ∧
        Emits s [0xD0 ||| BitVec.ofInt 8 index, if enable then 1 else 0] t)) ∧
    (¬(0 ≤ index ∧ index ≤ 15) → Refuses (.reportAnalog index enable) s ∧ Refuses (.reportDigital index enable) s)

/-- `stepperStep` (R160): the flag of the index is set, then the ten bytes are emitted, for every value of the two open
parameters (the layout of the frame and the order of write and emission are the spec's own decisions D15, D13). -/
def Obligations.StepperStepSetsFlagThenEmits : Prop :=
  ∀ (s : State) (index steps : Int),
    (0 ≤ index ∧ index < s.params.nSteppers ∧ -(2 ^ 31 - 1) ≤ steps ∧ steps ≤ 2 ^ 31 - 1 →
      ∃ t, exec (.stepperStep index steps) s = .next t ∧
        Emits s ([0xF0, 0x62, s.params.stepSubop.setWidth 8, BitVec.ofInt 8 index] ++ signed32Bytes steps ++ [0xF7]) t ∧
        (∀ j : Data7, t.device.stepperAt j = if (j.toNat : Int) = index then true else s.device.stepperAt j) ∧
        t.device = { s.device with stepperStatus := t.device.stepperStatus }) ∧
    (¬(0 ≤ index ∧ index < s.params.nSteppers) ∨ ¬(-(2 ^ 31 - 1) ≤ steps ∧ steps ≤ 2 ^ 31 - 1) →
      Refuses (.stepperStep index steps) s)

/-- R202, R180: `InvalidArgument` is what exactly the operands out of range, or outside a codec function's domain, return,
with no effect at all; everything else never returns it. (That `split14`, `pack` and `join14`, which the list of R202 does
not name, answer it outside their domain is R180 as the model reads it, log 12, log 22.) -/
def Obligations.InvalidArgumentExactlyOutOfRange : Prop :=
  ∀ (i : Instr) (s : State),
    (OutOfRange s.params i → Refuses i s) ∧
    (∀ t rs, exec i s = .next t → t.returned = s.returned ++ rs → .error .invalidArgument ∈ rs →
      OutOfRange s.params i)

/-- R150, first half: an encoder operation, a codec function, does the same whatever ParserState is, and leaves it. -/
def Obligations.EncodersIgnoreTheParser : Prop :=
  ∀ (i : Instr) (s t : State) (p : ParserState), IsEncoder i ∨ IsCodec i → exec i s = .next t →
    t.parser = s.parser ∧ exec i { s with parser := p } = .next { t with parser := p }

/-- All data positions that the encoder fills are 7-bit-safe, but in `sendSysex` (R81), from states that meet the
invariant. -/
def Obligations.EncoderDataBytesAreSevenBitSafe : Prop :=
  ∀ (i : Instr) (s t : State), IsEncoder i → (∀ payload, i ≠ .sendSysex payload) → s.Inv → exec i s = .next t →
    ∃ w, t.tx = s.tx ++ w ∧ ∀ k (h : k < w.length), 0x80 ≤ w[k].toNat → commandPosition i k = true

/-- R37 for the calls: which registers an encoder operation or `reset` or a codec function may write. Only an encoder
operation writes to the ByteSink: nothing else puts a byte on the wire, counts a write or uses an answer. -/
def Obligations.CallsWriteOnlyTheirRegisters : Prop :=
  ∀ (i : Instr) (s t : State), ¬IsFeed i → exec i s = .next t →
    t.params = s.params ∧ t.pending = s.pending ∧
    (t.parser ≠ s.parser → i = .reset) ∧
    (t.device.port ≠ s.device.port → ∃ pin v, i = .digitalWrite pin v) ∧
    (t.device.pinMode ≠ s.device.pinMode → (∃ pin m, i = .setPinMode pin m) ∨ ∃ pin v, i = .analogWrite pin v) ∧
    t.device.pinAnalogChannel = s.device.pinAnalogChannel ∧ t.device.analogValue = s.device.analogValue ∧
    t.device.extReply = s.device.extReply ∧ t.device.fwVersion = s.device.fwVersion ∧
    (t.device.stepperStatus ≠ s.device.stepperStatus → ∃ k n, i = .stepperStep k n) ∧
    (t.tx ≠ s.tx ∨ t.sinkWrites ≠ s.sinkWrites ∨ t.sinkScript ≠ s.sinkScript → IsEncoder i) ∧
    s.returned <+: t.returned

/-- The feedback hazard of R240: after an incoming report for a port, a `digitalWrite` on that port sends the reported
levels of the other pins back, bits 8 to 13 in the third byte. -/
def Obligations.ReportedBitsAreSentBack : Prop :=
  ∀ (s t u : State) (n : Nibble) (l h : Data7) (pin value : Int), OutsideSysex s →
    0 ≤ pin ∧ pin ≤ 127 → pin / 8 = n.toNat → value = 0 ∨ value = 1 →
    exec (.digitalMessageRx (.whole n l h)) s = .next t → exec (.digitalWrite pin value) t = .next u →
    (∀ k, k < 3 → answerAt t k = .ok) →
    ∃ b1 b2 : Byte, u.tx = s.tx ++ [0x90 ||| n.setWidth 8, b1, b2] ∧ b1.toNat < 128 ∧ b2.toNat < 128 ∧
      (∀ k, k < 7 → b1.getLsbD k = if (k : Int) = pin % 8 then decide (value = 1) else l.getLsbD k) ∧
      (∀ k, k < 7 → b2.getLsbD k = if (k : Int) + 7 = pin % 8 then decide (value = 1) else h.getLsbD k)

/-! ## Control, construction, invariants -/

/-- `reset()` (R231): in any state the parser is in IDLE afterwards and `Ok` is returned; Device State, the buffer
contents and the wire are as before (the extent is the spec's own decision D23). -/
def Obligations.ResetReturnsTheParserToIdle : Prop :=
  ∀ s : State, ∃ t, exec .reset s = .next t ∧ EnvSame s t ∧ t.device = s.device ∧ IsIdle t.parser ∧
    t.parser.mode = .idle ∧ t.parser.sysexBuffer = s.parser.sysexBuffer ∧ t.returned = s.returned ++ [.ok]

/-- Construction (R230): every element at its reset value, in the state after reset and after an RST transaction from
any state; no byte, no event. (The zeros of `port`, `analogValue`, `stepperStatus` are the spec's own decision D9, those
of the buffer and the channel D27; the environment's side after reset is the model's, log 18.) -/
def Obligations.ConstructionGivesTheResetValues : Prop :=
  ∀ t : State, (t = State.reset ∨ ∃ (s : State) (queue : List Transaction),
      s.pending = .construct :: queue ∧ step s = .next t ∧ t.tx = s.tx ∧ t.pending = queue) →
    IsIdle t.parser ∧ (∀ a, Memory.get t.parser.sysexBuffer a = 0) ∧ (∀ n, t.device.portAt n = 0) ∧
    (∀ p, t.device.pinModeAt p = .unconfigured) ∧ (∀ p, t.device.pinAnalogChannelAt p = 127) ∧
    (∀ c, t.device.analogValueAt c = 0) ∧ (∀ a r, t.device.replyAt a r = none) ∧
    (∀ i, t.device.stepperAt i = false) ∧ t.device.fwVersion.major = 0 ∧ t.device.fwVersion.minor = 0 ∧
    t.returned = []

/-- An RST transaction is a step that gives parser and Device State their reset values (R230). That construction is a
transaction taken from `pending` (log 1) and that it keeps the parameters, the other pending transactions, the history
of the wire and the sink's answers (log 15) is the model's own choice. -/
def Obligations.ConstructionIsAStep : Prop :=
  ∀ (s : State) (queue : List Transaction), s.pending = .construct :: queue →
    ∃ t, step s = .next t ∧ t.params = s.params ∧ t.pending = queue ∧ t.tx = s.tx ∧
      t.sinkScript = s.sinkScript ∧ t.sinkWrites = s.sinkWrites ∧ t.device = State.reset.device ∧
      t.parser = State.reset.parser

/-- The invariant holds after reset. -/
def Obligations.ResetMeetsTheInvariant : Prop := State.reset.Inv

/-- Every step keeps the invariant (R28: "These invariants hold after every operation, and every rule preserves
them"; R29, R31, R33). -/
def Obligations.StepKeepsTheInvariant : Prop :=
  ∀ s t : State, s.Inv → step s = .next t → t.Inv

/-- From a state that meets the invariant no step makes an access at a buffer index of 4096 or above and no message
completes without its command (R51, R108): whatever is pending. -/
def Obligations.InvariantStatesNeverFaultInTheParser : Prop :=
  ∀ s : State, s.Inv → (∀ k, step s ≠ .fault (.bufferIndex k)) ∧ step s ≠ .fault .noActiveCommand

/-- "It is total" (R100) and "every operation is one step and always terminates" (D28, the spec's own decision): from a
state that meets the invariant, with admissible transactions pending, a step answers a next state. The pending list
(log 1), the cut of a delivery (log 2) and what is admissible (log 14) are the model's own choice. -/
def Obligations.AdmissibleStepsAnswerNext : Prop :=
  ∀ s : State, s.Inv → s.Admissible → ∃ t, step s = .next t

/-- From a state that meets the invariant every list of admissible transactions is worked off, within as many steps as it
has bytes and transactions, and the state reached meets the invariant. That an operation always terminates is the spec's
own decision (D28); the list of transactions (log 1), the cut of a delivery into steps (log 2) and what is admissible,
no QUERY of a flag that does not exist (log 14), are the model's own choice. -/
def Obligations.AdmissibleRunsFinish : Prop :=
  ∀ s : State, s.Inv → s.Admissible →
    ∃ (k : Nat) (t : State), k ≤ (s.pending.map stepsNeeded).sum ∧ core.run k s = .next t ∧ t.pending = [] ∧ t.Inv

/-! ## The Numeric Codec -/

/-- `split14` and `join14` (R181): each other's inverse on 14-bit values, `join14` defined on all bytes. Outside their
domains both answer `InvalidArgument` (R180; the model's reading, log 12, log 22). -/
def Obligations.Split14AndJoin14 : Prop :=
  (∀ (s : State) (v : Int), 0 ≤ v ∧ v < 16384 →
    ∃ lo hi : Byte, exec (.split14 v) s = .next { s with returned := s.returned ++ [.bytes [lo, hi]] } ∧
      (lo.toNat : Int) = v % 128 ∧ (hi.toNat : Int) = v / 128 ∧ lo.toNat < 128 ∧ hi.toNat < 128 ∧
      exec (.join14 lo.toNat hi.toNat) s = .next { s with returned := s.returned ++ [.word (BitVec.ofInt 15 v)] }) ∧
  (∀ (s : State) (lo hi : Byte), ∃ w : Word15,
    exec (.join14 lo.toNat hi.toNat) s = .next { s with returned := s.returned ++ [.word w] } ∧
      w.toNat = lo.toNat ||| (hi.toNat <<< 7)) ∧
  (∀ (s : State) (v : Int), ¬(0 ≤ v ∧ v < 16384) → Refuses (.split14 v) s) ∧
  (∀ (s : State) (lo hi : Int), ¬(0 ≤ lo ∧ lo ≤ 255) ∨ ¬(0 ≤ hi ∧ hi ≤ 255) → Refuses (.join14 lo hi) s)

/-- `encodeSigned32` (R182): the five bytes of the table, all below 128, on the whole domain; outside it
`InvalidArgument`. -/
def Obligations.EncodeSigned32Layout : Prop :=
  ∀ (s : State) (x : Int),
    (-(2 ^ 31 - 1) ≤ x ∧ x ≤ 2 ^ 31 - 1 →
      exec (.encodeSigned32 x) s = .next { s with returned := s.returned ++ [.bytes (signed32Bytes x)] } ∧
      ∀ b ∈ signed32Bytes x, b.toNat < 128) ∧
    (¬(-(2 ^ 31 - 1) ≤ x ∧ x ≤ 2 ^ 31 - 1) → Refuses (.encodeSigned32 x) s)

/-- `decodeSigned32` (R183) is total on its five bytes: it reads 7, 7, 7, 7 and 3 bits and the sign, and ignores every other
bit (ignoring them is the spec's own decision D17). -/
def Obligations.DecodeSigned32IsTotal : Prop :=
  ∀ (s : State) (b0 b1 b2 b3 b4 : Byte),
    let m : Int := b0.toNat % 128 + 2 ^ 7 * (b1.toNat % 128 : Int) + 2 ^ 14 * (b2.toNat % 128 : Int)
      + 2 ^ 21 * (b3.toNat % 128 : Int) + 2 ^ 28 * (b4.toNat % 8 : Int)
    exec (.decodeSigned32 b0 b1 b2 b3 b4) s = .next { s with
      returned := s.returned ++ [.integer (if b4.getLsbD 3 then -m else m)] }

/-- `decodeSigned32(encodeSigned32(x)) = x` for every `x` of the domain (R183's law, "derived" in the spec; the source
states it for -2^30..2^30). -/
def Obligations.Signed32RoundTrips : Prop :=
  ∀ (s : State) (x : Int), -(2 ^ 31 - 1) ≤ x ∧ x ≤ 2 ^ 31 - 1 →
    ∃ b0 b1 b2 b3 b4 : Byte,
      exec (.encodeSigned32 x) s = .next { s with returned := s.returned ++ [.bytes [b0, b1, b2, b3, b4]] } ∧
      exec (.decodeSigned32 b0 b1 b2 b3 b4) s = .next { s with returned := s.returned ++ [.integer x] }

/-- `pack` (R186; the layout is the spec's own decision D19); outside its domain `InvalidArgument` (R180; the model's
reading, log 12). -/
def Obligations.PackLayout : Prop :=
  ∀ (s : State) (sign sig ef : Int),
    ((0 ≤ sign ∧ sign ≤ 1) ∧ (0 ≤ sig ∧ sig < 2 ^ 23) ∧ (0 ≤ ef ∧ ef ≤ 15) →
      exec (.pack sign sig ef) s = .next { s with
        returned := s.returned ++ [.bytes (floatBytes sign.toNat sig.toNat ef.toNat)] } ∧
      ∀ b ∈ floatBytes sign.toNat sig.toNat ef.toNat, b.toNat < 128) ∧
    (¬((0 ≤ sign ∧ sign ≤ 1) ∧ (0 ≤ sig ∧ sig < 2 ^ 23) ∧ (0 ≤ ef ∧ ef ≤ 15)) → Refuses (.pack sign sig ef) s)

/-- `encodeCustomFloat` (R185) in closed form: `e0 = floor(log10 |v|)`; `k` is the least number of decades after which
`|v| / 10^e0` is an integer or at least 2^23; one decade is taken back (`j = 1`) exactly when it then exceeds 2^23; the
bytes hold the sign, the floor of the result modulo 2^23 and the final exponent plus 11 modulo 16. Zero and what is no
finite real is refused. (Exact arithmetic, both wraps and the stored exponent are the spec's own decisions D18, D20,
D21, the layout D19.) -/
def Obligations.EncodeCustomFloatFollowsTheAlgorithm : Prop :=
  (∀ (s : State) (v : ℚ), v ≠ 0 →
    ∃ (e0 : ℤ) (k j : ℕ),
      let m0 : ℚ := |v| / (10 : ℚ) ^ e0
      let m1 : ℚ := m0 * 10 ^ k
      let m2 : ℚ := m1 / 10 ^ j
      let e : ℤ := e0 - k + j
      (1 ≤ m0 ∧ m0 < 10) ∧
      ((∃ z : ℤ, m1 = z) ∨ 2 ^ 23 ≤ m1) ∧
      (∀ i, i < k → ¬(∃ z : ℤ, m0 * 10 ^ i = z) ∧ m0 * 10 ^ i < 2 ^ 23) ∧
      (j = if 2 ^ 23 < m1 then 1 else 0) ∧ m2 ≤ 2 ^ 23 ∧ k ≤ 7 ∧
      exec (.encodeCustomFloat (.finite v)) s = .next { s with returned := s.returned ++
        [.bytes (floatBytes (if v < 0 then 1 else 0) (⌊m2⌋.toNat % 2 ^ 23) ((e + 11) % 16).toNat)] }) ∧
  (∀ s : State, Refuses (.encodeCustomFloat (.finite 0)) s ∧ Refuses (.encodeCustomFloat .nonFinite) s)

/-- `decodeCustomFloat` (R187) is total on its four bytes: `(-1)^sign * sig * 10^(ef - 11)`, bit 7 of every byte ignored
(decision D22, the layout D19). -/
def Obligations.DecodeCustomFloatIsTotal : Prop :=
  ∀ (s : State) (b0 b1 b2 b3 : Byte),
    let sig : ℕ := b0.toNat % 128 + 2 ^ 7 * (b1.toNat % 128) + 2 ^ 14 * (b2.toNat % 128) + 2 ^ 21 * (b3.toNat % 4)
    let ef : ℕ := b3.toNat / 4 % 16
    exec (.decodeCustomFloat b0 b1 b2 b3) s = .next { s with returned := s.returned ++
      [.rational ((if b3.getLsbD 6 then -1 else 1) * (sig : ℚ) * (10 : ℚ) ^ ((ef : ℤ) - 11))] }

/-- The law of R187 ("derived" in the spec): where the final exponent is in range and `|v|` is not `8388608 * 10^k`, what
is decoded has the sign of `v`, is at most `|v|` in magnitude and differs from `v` by less than `10^e`. (Exact arithmetic
and the layout are the spec's own decisions D18, D19, log 16; 0, where the model's predicate is its own choice, log 21, is
not covered.) -/
def Obligations.CustomFloatTruncatesTowardZero : Prop :=
  ∀ (s : State) (v : ℚ), v ≠ 0 → Codec.floatExpInRange v = true → (∀ k : ℤ, |v| ≠ 8388608 * (10 : ℚ) ^ k) →
    ∃ (b0 b1 b2 b3 : Byte) (w : ℚ),
      exec (.encodeCustomFloat (.finite v)) s = .next { s with returned := s.returned ++ [.bytes [b0, b1, b2, b3]] } ∧
      exec (.decodeCustomFloat b0 b1 b2 b3) s = .next { s with returned := s.returned ++ [.rational w] } ∧
      0 < w * v ∧ |w| ≤ |v| ∧ |v - w| < (10 : ℚ) ^ Codec.finalExponent v ∧ b0.toNat < 128 ∧ b1.toNat < 128 ∧
      b2.toNat < 128 ∧ b3.toNat < 128

/-- R180: a codec function reads no engine state and writes none: it always answers, its one result depends on the
operand alone, and nothing but the returned result changes; that result is `InvalidArgument` exactly where the operand is
outside the function's domain (where R202 does not name the function: log 12, log 22), so never of a decoder (R202). -/
def Obligations.CodecFunctionsArePure : Prop :=
  ∀ (i : Instr), IsCodec i → ∃ r : Response, ∀ s : State,
    exec i s = .next { s with returned := s.returned ++ [r] } ∧ (OutOfRange s.params i ↔ r = .error .invalidArgument)

/-! ## The buffer and the reply store -/

/-- A stored byte reads back and every other index reads as before; the canonical form is kept; two canonical buffers
that read alike are equal data (R25, R51; the representation is the model's, log 7). -/
def Obligations.BufferReadsWhatWasWritten : Prop :=
  (∀ (m : List Host.Cell) (a x : Nat) (b : Byte), Memory.wf m = true → a < 4096 →
    ∃ m', Memory.write m a b = some m' ∧ Memory.wf m' = true ∧
      Memory.get m' x = if x = a then b else Memory.get m x) ∧
  (∀ (m : List Host.Cell) (a : Nat) (b : Byte), 4096 ≤ a → Memory.write m a b = none ∧ Memory.read m a = none) ∧
  (∀ m m' : List Host.Cell, Memory.wf m = true → Memory.wf m' = true →
    (∀ a, a < 4096 → Memory.read m a = Memory.read m' a) → m = m')

/-- R61: after the reply for a key, that key reads the new sequence and every other key is unchanged; the canonical form
is kept; two canonical stores that read alike are equal data. -/
def Obligations.ReplyStoreReadsWhatWasWritten : Prop :=
  (∀ (m : List ReplyEntry) (n : ReplyEntry) (a r : Word15), ReplyStore.wf m = true → n.values.length ≤ 2045 →
    ReplyStore.wf (ReplyStore.insert m n) = true ∧
    ReplyStore.lookup (ReplyStore.insert m n) a r =
      if a = n.address ∧ r = n.register then some n.values else ReplyStore.lookup m a r) ∧
  (∀ m m' : List ReplyEntry, ReplyStore.wf m = true → ReplyStore.wf m' = true →
    (∀ a r, ReplyStore.lookup m a r = ReplyStore.lookup m' a r) → m = m')
end

