-- ==== Sys2Proof/Laws/Codec.lean ====
section
/-! SUPPORT. What the functions of the Numeric Codec compute: the bytes as quotients and remainders, and the
normalisation of R185 in closed form. -/

namespace Sys2Proof.Codec

theorem split14Bytes_eq (v : Nat) : split14Bytes v = [BitVec.ofNat 8 (v % 128), BitVec.ofNat 8 (v / 128)] := by
  have h := Nat.and_two_pow_sub_one_eq_mod v 7
  simp only [Nat.reducePow, Nat.reduceSub] at h
  simp [split14Bytes, toBytes, h, Nat.shiftRight_eq_div_pow]

/-- The two data bytes of an operand that is a byte (R155, R156). -/
theorem split14Bytes_value {v : Int} (h : 0 ≤ v ∧ v ≤ 255) :
    split14Bytes (BitVec.ofInt 8 v).toNat = [BitVec.ofInt 8 (v % 128), BitVec.ofInt 8 (v / 128)] := by
  rw [split14Bytes_eq]
  congr 1
  · apply BitVec.eq_of_toNat_eq
    simp only [BitVec.toNat_ofInt, BitVec.toNat_ofNat]
    omega
  · congr 1
    apply BitVec.eq_of_toNat_eq
    simp only [BitVec.toNat_ofInt, BitVec.toNat_ofNat]
    omega

theorem join14Operands_bytes (lo hi : Byte) : join14Operands (lo.toNat : Int) (hi.toNat : Int) = some (join14 lo hi) := by
  have := lo.isLt
  have := hi.isLt
  simp only [join14Operands]
  rw [if_pos (by omega)]
  simp [BitVec.ofInt_natCast]

theorem join14Operands_none {lo hi : Int} (h : ¬(0 ≤ lo ∧ lo ≤ 255) ∨ ¬(0 ≤ hi ∧ hi ≤ 255)) :
    join14Operands lo hi = none := by
  simp only [join14Operands]
  rw [if_neg (by tauto)]

theorem join14_toNat (lo hi : Byte) : (join14 lo hi).toNat = lo.toNat ||| (hi.toNat <<< 7) := by
  have := lo.isLt
  have := hi.isLt
  simp only [join14, BitVec.toNat_or, BitVec.toNat_setWidth, BitVec.toNat_shiftLeft]
  rw [Nat.mod_eq_of_lt (by omega), Nat.mod_eq_of_lt (a := hi.toNat) (by omega),
    Nat.mod_eq_of_lt (by rw [Nat.shiftLeft_eq]; omega)]

/-- The five bytes of R182 on its domain. -/
theorem encodeSigned32_of_mem {x : Int} (h : -(2 ^ 31 - 1) ≤ x ∧ x ≤ 2 ^ 31 - 1) :
    encodeSigned32 x = some [BitVec.ofNat 8 (x.natAbs % 128), BitVec.ofNat 8 (x.natAbs / 2 ^ 7 % 128),
      BitVec.ofNat 8 (x.natAbs / 2 ^ 14 % 128), BitVec.ofNat 8 (x.natAbs / 2 ^ 21 % 128),
      BitVec.ofNat 8 (x.natAbs / 2 ^ 28 % 8 + if x < 0 then 8 else 0)] := by
  simp only [encodeSigned32]
  rw [if_neg (by omega)]
  simp [toBytes, bits, Nat.shiftRight_eq_div_pow]

theorem encodeSigned32_of_not_mem {x : Int} (h : ¬(-(2 ^ 31 - 1) ≤ x ∧ x ≤ 2 ^ 31 - 1)) :
    encodeSigned32 x = none := by
  simp only [encodeSigned32]
  rw [if_pos (by omega)]

/-- The four bytes of R186. -/
theorem packBytes_eq (sign sig ef : Nat) :
    packBytes sign sig ef = [BitVec.ofNat 8 (sig % 128), BitVec.ofNat 8 (sig / 2 ^ 7 % 128),
      BitVec.ofNat 8 (sig / 2 ^ 14 % 128), BitVec.ofNat 8 (sig / 2 ^ 21 % 4 + 4 * ef + 64 * sign)] := by
  have h : ∀ a : Nat, a + ef * 2 ^ 2 + sign * 2 ^ 6 = a + 4 * ef + 64 * sign := by intro a; omega
  simp only [packBytes, toBytes, bits, Nat.shiftRight_eq_div_pow, Nat.shiftLeft_eq, List.map_cons, List.map_nil, h]
  norm_num

/-- Where the upward scan stops: `10^k` is the last power of ten that fits. -/
theorem log10Up_spec (fuel num den : Nat) (e : Int) (h1 : den ≤ num) (h2 : num < den * 10 ^ fuel) :
    ∃ k : Nat, log10Up fuel num den e = e + k ∧ den * 10 ^ k ≤ num ∧ num < den * 10 ^ (k + 1) := by
  induction fuel generalizing den e with
  | zero => simp at h2; omega
  | succ fuel ih =>
    simp only [log10Up]
    split
    · rename_i h
      obtain ⟨k, a, b, c⟩ := ih (den * 10) (e + 1) h (by
        rw [Nat.pow_succ] at h2
        rw [Nat.mul_assoc, Nat.mul_comm 10]
        exact h2)
      refine ⟨k + 1, by rw [a]; push_cast; ring, ?_, ?_⟩
      · rw [Nat.pow_succ, Nat.mul_comm (10 ^ k), ← Nat.mul_assoc]; exact b
      · rw [Nat.pow_succ _ (k+1), Nat.mul_comm (10 ^ (k+1)), ← Nat.mul_assoc]; exact c
    · exact ⟨0, by simp, by simpa using h1, by simp; omega⟩

/-- Where the downward scan stops. -/
theorem log10Down_spec (fuel num den : Nat) (e : Int) (h2 : den ≤ num * 10 ^ fuel) :
    ∃ k : Nat, log10Down fuel num den e = e - k ∧ den ≤ num * 10 ^ k ∧ (k = 0 ∨ num * 10 ^ (k - 1) < den) := by
  induction fuel generalizing num e with
  | zero => exact ⟨0, by simp [log10Down], by simpa using h2, .inl rfl⟩
  | succ fuel ih =>
    simp only [log10Down]
    split
    · rename_i h
      obtain ⟨k, a, b, c⟩ := ih (num * 10) (e - 1) (by
        rw [Nat.pow_succ] at h2
        rw [Nat.mul_assoc, Nat.mul_comm 10]
        exact h2)
      refine ⟨k + 1, by rw [a]; push_cast; ring, ?_, .inr ?_⟩
      · rw [Nat.pow_succ, Nat.mul_comm (10 ^ k), ← Nat.mul_assoc]; exact b
      · rcases c with rfl | c
        · simpa using h
        · have hk : k ≠ 0 := by rintro rfl; simp at c; simp at b; omega
          obtain ⟨j, rfl⟩ := Nat.exists_eq_succ_of_ne_zero hk
          simp only [Nat.succ_eq_add_one, Nat.add_sub_cancel] at c ⊢
          rw [Nat.pow_succ, Nat.mul_comm (10 ^ j), ← Nat.mul_assoc]; exact c
    · exact ⟨0, by simp, by simp; omega, .inl rfl⟩

/-- The fuel of the scans of `floorLog10` is enough. -/
theorem log10_fuel (a b : Nat) (hb : 0 < b) : a < b * 10 ^ (Nat.log2 a + 1) := by
  have h : a < 2 ^ (Nat.log2 a + 1) := Nat.lt_log2_self
  have h2 : 2 ^ (Nat.log2 a + 1) ≤ 10 ^ (Nat.log2 a + 1) := Nat.pow_le_pow_left (by omega) _
  calc a < 10 ^ (Nat.log2 a + 1) := by omega
    _ ≤ b * 10 ^ (Nat.log2 a + 1) := Nat.le_mul_of_pos_left _ hb

/-- The running value `m` of R185 as a rational. -/
def Scaled.val (x : Scaled) : ℚ := x.num / x.den

/-- `m = a / 10^e` with `1 <= m < 10` (R185). -/
theorem normalise_spec (num den : Nat) (hn : 0 < num) (hd : 0 < den) :
    (normalise num den).val = (num / den : ℚ) / (10 : ℚ) ^ (normalise num den).e ∧ 0 < (normalise num den).den ∧
      1 ≤ (normalise num den).val ∧ (normalise num den).val < 10 := by
  have hd' : (0 : ℚ) < den := by exact_mod_cast hd
  have hn' : (0 : ℚ) < num := by exact_mod_cast hn
  by_cases h : den ≤ num
  · obtain ⟨k, a, b, c⟩ := log10Up_spec (Nat.log2 num + 1) num den 0 h (log10_fuel num den hd)
    have hf : floorLog10 num den = (k : Int) := by rw [floorLog10, if_pos h, a]; simp
    have hN : normalise num den = { num := num, den := den * 10 ^ k, e := (k : Int) } := by
      simp [normalise, hf]
    have hpos : (0 : ℚ) < den * 10 ^ k := by positivity
    rw [hN]
    refine ⟨?_, by simp; omega, ?_, ?_⟩
    · simp only [Scaled.val, Nat.cast_mul, Nat.cast_pow, Nat.cast_ofNat, zpow_natCast, div_div]
    · simp only [Scaled.val, Nat.cast_mul, Nat.cast_pow, Nat.cast_ofNat]
      rw [le_div_iff₀ hpos, one_mul]; exact_mod_cast b
    · simp only [Scaled.val, Nat.cast_mul, Nat.cast_pow, Nat.cast_ofNat]
      rw [div_lt_iff₀ hpos]
      have : (num : ℚ) < den * 10 ^ (k + 1) := by exact_mod_cast c
      rw [pow_succ] at this; linarith
  · have h' : num < den := by omega
    have hfu := log10_fuel den num hn
    obtain ⟨k, a, b, c⟩ := log10Down_spec (Nat.log2 den + 1) num den 0 (by omega)
    have hk : k ≠ 0 := by rintro rfl; simp at b; omega
    have c := c.resolve_left hk
    have hf : floorLog10 num den = -(k : Int) := by rw [floorLog10, if_neg h, a]; simp
    have hN : normalise num den = { num := num * 10 ^ k, den := den, e := -(k : Int) } := by
      simp only [normalise, hf]
      rw [if_neg (by omega)]; simp
    rw [hN]
    refine ⟨?_, hd, ?_, ?_⟩
    · simp only [Scaled.val, Nat.cast_mul, Nat.cast_pow, Nat.cast_ofNat, zpow_neg, zpow_natCast]
      field_simp
    · simp only [Scaled.val, Nat.cast_mul, Nat.cast_pow, Nat.cast_ofNat]
      rw [le_div_iff₀ hd', one_mul]; exact_mod_cast b
    · simp only [Scaled.val, Nat.cast_mul, Nat.cast_pow, Nat.cast_ofNat]
      rw [div_lt_iff₀ hd']
      obtain ⟨j, rfl⟩ := Nat.exists_eq_succ_of_ne_zero hk
      simp only [Nat.succ_eq_add_one, Nat.add_sub_cancel] at c ⊢
      have : (num : ℚ) * 10 ^ j < den := by exact_mod_cast c
      rw [pow_succ]; linarith

theorem div_is_int (n d : Nat) (hd : 0 < d) : n % d = 0 ↔ ∃ z : ℤ, ((n : ℚ) / d) = z := by
  have hd' : (d : ℚ) ≠ 0 := by positivity
  constructor
  · intro h
    obtain ⟨c, hc⟩ := Nat.dvd_of_mod_eq_zero h
    exact ⟨c, by rw [div_eq_iff hd', hc]; push_cast; ring⟩
  · rintro ⟨z, hz⟩
    rw [div_eq_iff hd'] at hz
    have : (n : ℤ) = z * d := by exact_mod_cast hz
    have : (d : ℤ) ∣ n := ⟨z, by rw [this]; ring⟩
    exact Nat.mod_eq_zero_of_dvd (by exact_mod_cast this)

/-- What the first loop of R185 does, in closed form. -/
theorem scaleUp_spec (fuel : Nat) (x : Scaled) (hd : 0 < x.den) :
    ∃ k : Nat, k ≤ fuel ∧ scaleUp fuel x = { num := x.num * 10 ^ k, den := x.den, e := x.e - k } ∧
      (∀ i, i < k → ¬(∃ z : ℤ, x.val * 10 ^ i = z) ∧ x.val * 10 ^ i < 2 ^ 23) ∧
      (k = fuel ∨ (∃ z : ℤ, x.val * 10 ^ k = z) ∨ 2 ^ 23 ≤ x.val * 10 ^ k) := by
  have hd' : (0 : ℚ) < x.den := by exact_mod_cast hd
  have hlt : ∀ n d : Nat, (0:ℚ) < d → (n < 2 ^ 23 * d ↔ ((n : ℚ) / d) < 2 ^ 23) := by
    intro n d h
    rw [div_lt_iff₀ h]
    constructor
    · intro h; exact_mod_cast h
    · intro h; exact_mod_cast h
  induction fuel generalizing x with
  | zero => exact ⟨0, le_refl _, by simp [scaleUp], by simp, .inl rfl⟩
  | succ fuel ih =>
    simp only [scaleUp]
    split
    · rename_i h
      obtain ⟨k, h1, h2, h3, h4⟩ := ih { x with num := x.num * 10, e := x.e - 1 } hd hd'
      have hv : Scaled.val { x with num := x.num * 10, e := x.e - 1 } = x.val * 10 := by
        simp only [Scaled.val]; push_cast; ring
      rw [hv] at h3 h4
      refine ⟨k + 1, by omega, ?_, ?_, ?_⟩
      · rw [h2]; simp only [Scaled.mk.injEq, true_and]; constructor
        · ring
        · push_cast; ring
      · intro i hi
        cases i with
        | zero =>
          simp only [pow_zero, mul_one]
          refine ⟨fun hz => h.1 ((div_is_int _ _ hd).2 hz), (hlt _ _ hd').1 h.2⟩
        | succ i =>
          have := h3 i (by omega)
          rw [pow_succ, mul_comm (10 ^ i), ← mul_assoc]; exact this
      · rw [pow_succ, mul_comm (10 ^ k), ← mul_assoc]
        rcases h4 with h4 | h4
        · exact .inl (by omega)
        · exact .inr h4
    · rename_i h
      refine ⟨0, by omega, by simp, by simp, .inr ?_⟩
      simp only [pow_zero, mul_one]
      by_cases h5 : x.num % x.den = 0
      · exact .inl ((div_is_int _ _ hd).1 h5)
      · right
        by_contra h6
        exact h ⟨h5, (hlt _ _ hd').2 (not_le.1 h6)⟩

/-- Both loops of R185 in closed form. -/
theorem scaled_spec (v : ℚ) (hv : v ≠ 0) :
    ∃ (e0 : ℤ) (k j : ℕ),
      (1 ≤ |v| / (10 : ℚ) ^ e0 ∧ |v| / (10 : ℚ) ^ e0 < 10) ∧
      ((∃ z : ℤ, |v| / (10 : ℚ) ^ e0 * 10 ^ k = z) ∨ 2 ^ 23 ≤ |v| / (10 : ℚ) ^ e0 * 10 ^ k) ∧
      (∀ i, i < k → ¬(∃ z : ℤ, |v| / (10 : ℚ) ^ e0 * 10 ^ i = z) ∧ |v| / (10 : ℚ) ^ e0 * 10 ^ i < 2 ^ 23) ∧
      (j = if 2 ^ 23 < |v| / (10 : ℚ) ^ e0 * 10 ^ k then 1 else 0) ∧
      |v| / (10 : ℚ) ^ e0 * 10 ^ k / 10 ^ j ≤ 2 ^ 23 ∧ k ≤ 7 ∧
      0 < (scaled v).den ∧ (scaled v).val = |v| / (10 : ℚ) ^ e0 * 10 ^ k / 10 ^ j ∧ (scaled v).e = e0 - k + j := by
  have hn : 0 < v.num.natAbs := Int.natAbs_pos.2 (Rat.num_ne_zero.2 hv)
  have habs : ((v.num.natAbs : ℚ) / v.den) = |v| := by
    conv_rhs => rw [← Rat.num_div_den v, abs_div, Nat.abs_cast]
    congr 1
    rw [Nat.cast_natAbs, Int.cast_abs]
  obtain ⟨a1, a2, a3, a4⟩ := normalise_spec v.num.natAbs v.den hn v.den_pos
  rw [habs] at a1
  obtain ⟨k, b1, b2, b3, b4⟩ := scaleUp_spec 8 (normalise v.num.natAbs v.den) a2
  generalize hx : normalise v.num.natAbs v.den = x at *
  have hk7 : k ≤ 7 := by
    by_contra hk
    have := (b3 7 (by omega)).2
    norm_num at this
    linarith
  have b4 := b4.resolve_left (by omega)
  have hd' : (0 : ℚ) < x.den := by exact_mod_cast a2
  have hcmp : 2 ^ 23 * x.den < x.num * 10 ^ k ↔ 2 ^ 23 < x.val * 10 ^ k := by
    have : x.val * 10 ^ k = (x.num * 10 ^ k : ℚ) / x.den := by simp only [Scaled.val]; ring
    rw [this, lt_div_iff₀ hd']
    constructor
    · intro h; exact_mod_cast h
    · intro h; exact_mod_cast h
  have a1' : |v| / (10 : ℚ) ^ x.e = x.num / x.den := a1.symm
  rw [a1] at hcmp a3 a4 b3 b4
  have hs : scaled v = scaleDown 2 (scaleUp 8 x) := by simp only [scaled, hx]
  by_cases hj : 2 ^ 23 < |v| / (10 : ℚ) ^ x.e * 10 ^ k
  · have hk0 : k ≠ 0 := by rintro rfl; norm_num at hj; linarith
    obtain ⟨i, rfl⟩ := Nat.exists_eq_succ_of_ne_zero hk0
    have hprev := (b3 i (by omega)).2
    have hle : |v| / (10 : ℚ) ^ x.e * 10 ^ (i + 1) / 10 ^ 1 ≤ 2 ^ 23 := by
      rw [pow_succ, pow_one]; linarith
    have hstop : ¬ (2 ^ 23 * (x.den * 10) < x.num * 10 ^ (i + 1)) := by
      intro h
      have h' : (2 : ℚ) ^ 23 * (x.den * 10) < x.num * 10 ^ (i + 1) := by exact_mod_cast h
      have : |v| / (10 : ℚ) ^ x.e = x.num / x.den := a1'
      rw [this] at hle
      have h3 : (x.num : ℚ) / x.den * 10 ^ (i+1) / 10 ^ 1 = (x.num * 10 ^ (i+1)) / (x.den * 10) := by field_simp
      rw [h3, div_le_iff₀ (by positivity)] at hle
      linarith
    have hres : scaled v = { num := x.num * 10 ^ (i+1), den := x.den * 10, e := x.e - (i+1 : ℕ) + 1 } := by
      rw [hs, b2]
      simp only [scaleDown, Nat.succ_eq_add_one]
      rw [if_pos (hcmp.2 hj), if_neg hstop]
    refine ⟨x.e, i + 1, 1, ⟨a3, a4⟩, b4, b3, by rw [if_pos hj], hle, hk7, ?_, ?_, ?_⟩
    · rw [hres]; simp; omega
    · rw [hres]
      have : |v| / (10 : ℚ) ^ x.e = x.num / x.den := a1'
      rw [this]; simp only [Scaled.val]; push_cast; field_simp
    · rw [hres]; rfl
  · have hres : scaled v = { num := x.num * 10 ^ k, den := x.den, e := x.e - k } := by
      rw [hs, b2]
      simp only [scaleDown]
      rw [if_neg (fun h => hj (hcmp.1 h))]
    refine ⟨x.e, k, 0, ⟨a3, a4⟩, b4, b3, by rw [if_neg hj], ?_, hk7, ?_, ?_, ?_⟩
    · rw [pow_zero, div_one]; exact not_lt.1 hj
    · rw [hres]; exact a2
    · rw [hres]
      have : |v| / (10 : ℚ) ^ x.e = x.num / x.den := a1'
      rw [this]; simp only [Scaled.val]; push_cast; field_simp
    · rw [hres]; simp

/-- `sig = floor(m)`. -/
theorem significand_eq (v : ℚ) (hv : v ≠ 0) : (significand v : ℤ) = ⌊(scaled v).val⌋ := by
  obtain ⟨_, _, _, _, _, _, _, _, _, hd, _⟩ := scaled_spec v hv
  simp only [significand, Scaled.val]
  exact (Rat.floor_natCast_div_natCast _ _).symm

end Sys2Proof.Codec
end

