-- ==== Sys2Proof/Laws/Decode.lean ====
section
/-! SUPPORT. What the decoder does with the words the encoder writes: sysex frames, channel frames, version frames and
single bytes. -/

namespace Sys2Proof

theorem tailOk_iff {n : Nat} {args : List Byte} :
    tailOk n args = true ↔ (∀ b ∈ args, b ≠ Wire.endSysex) ∧ n + args.length ≤ Config.sysexCap := by
  simp only [tailOk, noEndSysex, Bool.and_eq_true, List.all_eq_true, decide_eq_true_eq]

theorem splitFrame_append {p rest : List Byte} (h : ∀ b ∈ p, b ≠ Wire.endSysex) :
    splitFrame (p ++ Wire.endSysex :: rest) = some (p, rest) := by
  induction p with
  | nil => simp [splitFrame]
  | cons b p ih =>
    simp only [List.cons_append, splitFrame]
    rw [if_neg (h b (by simp)), ih (fun c hc => h c (by simp [hc]))]

/-- Where a frame is split, the bytes are the payload, END_SYSEX and the rest, and the payload holds no END_SYSEX. -/
theorem splitFrame_spec {bs p rest : List Byte} (h : splitFrame bs = some (p, rest)) :
    bs = p ++ Wire.endSysex :: rest ∧ ∀ b ∈ p, b ≠ Wire.endSysex := by
  induction bs generalizing p rest with
  | nil => simp [splitFrame] at h
  | cons b bs ih =>
    simp only [splitFrame] at h
    split at h
    · simp_all
    · rename_i hb
      split at h
      · simp at h
      · rename_i q r hq
        simp only [Option.some.injEq, Prod.mk.injEq] at h
        obtain ⟨rfl, rfl⟩ := h
        obtain ⟨h1, h2⟩ := ih hq
        refine ⟨by simp [h1], fun c hc => ?_⟩
        rcases List.mem_cons.1 hc with rfl | hc
        · exact hb
        · exact h2 c hc

/-- A whole frame in IDLE decodes to the row of its payload. -/
theorem decodeRx_sysexFrame {p rest : List Byte} (h : ∀ b ∈ p, b ≠ Wire.endSysex)
    (hcap : p.length ≤ Config.sysexCap) :
    decodeRx .idle (Wire.startSysex :: (p ++ Wire.endSysex :: rest)) = .instr (classifyPayload p) rest := by
  have hd : decodeIdle Wire.startSysex (p ++ Wire.endSysex :: rest) = decodeSysexFrame (p ++ Wire.endSysex :: rest) := by
    rfl
  simp only [decodeRx, hd, decodeSysexFrame, splitFrame_append h, if_pos hcap]

/-- A sysex row decodes from its own frame when its payload is classified as it. -/
theorem decode_sysexRow {i : Instr} {p : List Byte} (he : encode i = .feed (sysexFrame p))
    (h : ∀ b ∈ p, b ≠ Wire.endSysex) (hcap : p.length ≤ Config.sysexCap) (hc : classifyPayload p = i) :
    decode .idle (encode i) = .instr i [] := by
  rw [he]
  simp only [decode, sysexFrame]
  rw [decodeRx_sysexFrame h hcap, hc]

/-- The same for a row whose payload is one fixed sub-command byte and a tail. -/
theorem decode_subCommandRow {i : Instr} {sub : Byte} {args : List Byte} (he : encode i = .feed (sysexFrame (sub :: args)))
    (hs : sub ≠ Wire.endSysex) (hw : tailOk 1 args = true) (hc : classifyPayload (sub :: args) = i) :
    decode .idle (encode i) = .instr i [] := by
  obtain ⟨h1, h2⟩ := tailOk_iff.1 hw
  refine decode_sysexRow he ?_ (by simp; omega) hc
  intro b hb
  rcases List.mem_cons.1 hb with rfl | hb
  · exact hs
  · exact h1 b hb

theorem dataByte_low7 {b : Byte} (h : Wire.isData b = true) : Wire.dataByte (Wire.low7 b) = b := by
  revert b; decide

theorem low7_dataByte' (d : Data7) : Wire.low7 (Wire.dataByte d) = d := by
  revert d; decide

theorem isData_dataByte' (d : Data7) : Wire.isData (Wire.dataByte d) = true := by
  revert d; decide

theorem lowNibble_channelByte' (cmd : Byte) (n : Nibble) (h : cmd &&& 0x0F = 0) :
    Wire.lowNibble (Wire.channelByte cmd n) = n := by
  simp only [Wire.channelByte, Wire.lowNibble]
  revert h n cmd
  decide +revert

theorem decodeIdle_digital (n : Nibble) (rest : List Byte) :
    decodeIdle (Wire.channelByte Wire.digitalMessage n) rest = decodeChannelFrame .digitalMessageRx n rest := by
  have h1 : Wire.byteClass (Wire.channelByte Wire.digitalMessage n) = .channelCommand := by revert n; decide
  have h2 : Wire.channelByte Wire.digitalMessage n &&& 0xF0 = Wire.digitalMessage := by revert n; decide
  have h3 := lowNibble_channelByte' Wire.digitalMessage n (by decide)
  simp only [decodeIdle, h1, decodeChannel, h2, h3]
  rfl

theorem decodeIdle_analog (n : Nibble) (rest : List Byte) :
    decodeIdle (Wire.channelByte Wire.analogMessage n) rest = decodeChannelFrame .analogMessageRx n rest := by
  have h1 : Wire.byteClass (Wire.channelByte Wire.analogMessage n) = .channelCommand := by revert n; decide
  have h2 : Wire.channelByte Wire.analogMessage n &&& 0xF0 = Wire.analogMessage := by revert n; decide
  have h3 := lowNibble_channelByte' Wire.analogMessage n (by decide)
  simp only [decodeIdle, h1, decodeChannel, h2, h3]
  rfl

theorem decodeIdle_version (rest : List Byte) :
    decodeIdle Wire.reportVersion rest = decodeVersionFrame rest := rfl

@[simp] theorem decodeChannelFrame_whole (mk : ChannelFrame → Instr) (n : Nibble) (l h : Data7) (rest : List Byte) :
    decodeChannelFrame mk n (Wire.dataByte l :: Wire.dataByte h :: rest) = (mk (.whole n l h), rest) := by
  simp [decodeChannelFrame, isData_dataByte', low7_dataByte']

@[simp] theorem decodeVersionFrame_whole (m v : Data7) (rest : List Byte) :
    decodeVersionFrame (Wire.dataByte m :: Wire.dataByte v :: rest) = (.reportVersionRx (.whole m v), rest) := by
  simp [decodeVersionFrame, isData_dataByte', low7_dataByte']

/-- The row of a payload is well-formed, applies in IDLE, and its words are the frame with that payload. -/
theorem classifyPayload_spec (p : List Byte) (hp : ∀ b ∈ p, b ≠ Wire.endSysex) (hc : p.length ≤ Config.sysexCap) :
    (classifyPayload p).wellFormed = true ∧ (classifyPayload p).appliesIn .idle = true ∧
      encode (classifyPayload p) = .feed (sysexFrame p) := by
  cases p with
  | nil => exact ⟨rfl, rfl, rfl⟩
  | cons sub args =>
    have ht : tailOk 1 args = true := tailOk_iff.2 ⟨fun b hb => hp b (by simp [hb]), by simp at hc; omega⟩
    have h7 := hp sub (by simp)
    by_cases h0 : sub = Wire.stepperRequest
    · subst h0
      cases args with
      | nil => exact ⟨rfl, rfl, rfl⟩
      | cons op more =>
        by_cases h : op = Wire.moveComplete
        · subst h
          have ht' := tailOk_iff.1 ht
          exact ⟨tailOk_iff.2 ⟨fun b hb => ht'.1 b (by simp [hb]), by have := ht'.2; simp at this; omega⟩, rfl, rfl⟩
        · have he : classifyPayload (Wire.stepperRequest :: op :: more) = .stepperRequestOtherRx (op :: more) := by
            show (if op = Wire.moveComplete then _ else _) = _
            rw [if_neg h]
          rw [he]
          refine ⟨?_, rfl, rfl⟩
          show (tailOk 1 (op :: more) && decide ((op :: more).head? ≠ some Wire.moveComplete)) = true
          rw [ht]; simpa using h
    by_cases h1' : sub = Wire.analogMappingResponse
    · subst h1'; exact ⟨ht, rfl, rfl⟩
    by_cases h2' : sub = Wire.extensionReply
    · subst h2'; exact ⟨ht, rfl, rfl⟩
    by_cases h3' : sub = Wire.analogMappingQuery
    · subst h3'; exact ⟨ht, rfl, rfl⟩
    by_cases h4' : sub = Wire.capabilityQuery
    · subst h4'; exact ⟨ht, rfl, rfl⟩
    by_cases h5' : sub = Wire.capabilityResponse
    · subst h5'; exact ⟨ht, rfl, rfl⟩
    by_cases h6' : sub = Wire.pinStateQuery
    · subst h6'; exact ⟨ht, rfl, rfl⟩
    by_cases h7' : sub = Wire.pinStateResponse
    · subst h7'; exact ⟨ht, rfl, rfl⟩
    by_cases h8' : sub = Wire.extendedAnalog
    · subst h8'; exact ⟨ht, rfl, rfl⟩
    by_cases h9' : sub = Wire.servoConfig
    · subst h9'; exact ⟨ht, rfl, rfl⟩
    by_cases h10' : sub = Wire.stringData
    · subst h10'; exact ⟨ht, rfl, rfl⟩
    by_cases h11' : sub = Wire.extensionRequest
    · subst h11'; exact ⟨ht, rfl, rfl⟩
    by_cases h12' : sub = Wire.extensionConfig
    · subst h12'; exact ⟨ht, rfl, rfl⟩
    by_cases h13' : sub = Wire.reportFirmware
    · subst h13'; exact ⟨ht, rfl, rfl⟩
    by_cases h14' : sub = Wire.samplingInterval
    · subst h14'; exact ⟨ht, rfl, rfl⟩
    have he : classifyPayload (sub :: args) = .unknownSysexRx sub args := by
      refine (if_neg h0).trans ?_
      refine (if_neg h1').trans ?_
      refine (if_neg h2').trans ?_
      refine (if_neg h3').trans ?_
      refine (if_neg h4').trans ?_
      refine (if_neg h5').trans ?_
      refine (if_neg h6').trans ?_
      refine (if_neg h7').trans ?_
      refine (if_neg h8').trans ?_
      refine (if_neg h9').trans ?_
      refine (if_neg h10').trans ?_
      refine (if_neg h11').trans ?_
      refine (if_neg h12').trans ?_
      refine (if_neg h13').trans ?_
      refine (if_neg h14').trans ?_
      rfl
    have hn : Wire.namedSubCommands.contains sub = false := by
      simp only [List.contains_eq_mem, decide_eq_false_iff_not, Wire.namedSubCommands, List.mem_cons, List.not_mem_nil,
        or_false, not_or]
      exact ⟨h0, h3', h1', h4', h5', h6', h7', h8', h9', h10', h11', h2', h12', h13', h14'⟩
    rw [he]
    refine ⟨?_, rfl, rfl⟩
    show (tailOk 1 args && decide (sub ≠ Wire.endSysex) && !(Wire.namedSubCommands.contains sub)) = true
    rw [ht, hn, decide_eq_true h7]
    rfl

/-- The seven channel commands (R84). -/
theorem channel_commands : ∀ b : Byte, Wire.byteClass b = .channelCommand →
    b &&& 0xF0 ∈ ([0x80, Wire.digitalMessage, 0xA0, 0xB0, Wire.reportAnalog, Wire.reportDigital,
      Wire.analogMessage] : List Byte) := by decide

/-- The sixteen system commands (R84). -/
theorem system_commands : ∀ b : Byte, Wire.byteClass b = .systemCommand →
    b ∈ ([Wire.startSysex, 0xF1, 0xF2, 0xF3, Wire.setPinMode, 0xF5, 0xF6, Wire.endSysex, 0xF8, Wire.reportVersion,
      0xFA, 0xFB, 0xFC, 0xFD, 0xFE, 0xFF] : List Byte) := by decide

end Sys2Proof
end

