-- ==== Sys2Proof/Laws/State.lean ====
section
/-! SUPPORT. One lemma a field for every update of the state, of ParserState and of Device State. -/

namespace Sys2Proof.Machine

@[simp] theorem State.withParser_params (p : ParserState) (s : State) : (s.withParser p).params = s.params := rfl
@[simp] theorem State.withParser_parser (p : ParserState) (s : State) : (s.withParser p).parser = p := rfl
@[simp] theorem State.withParser_device (p : ParserState) (s : State) : (s.withParser p).device = s.device := rfl
@[simp] theorem State.withParser_pending (p : ParserState) (s : State) : (s.withParser p).pending = s.pending := rfl
@[simp] theorem State.withParser_returned (p : ParserState) (s : State) : (s.withParser p).returned = s.returned := rfl
@[simp] theorem State.withParser_tx (p : ParserState) (s : State) : (s.withParser p).tx = s.tx := rfl
@[simp] theorem State.withParser_sinkScript (p : ParserState) (s : State) : (s.withParser p).sinkScript = s.sinkScript := rfl
@[simp] theorem State.withParser_sinkWrites (p : ParserState) (s : State) : (s.withParser p).sinkWrites = s.sinkWrites := rfl

@[simp] theorem State.withDevice_params (d : DeviceState) (s : State) : (s.withDevice d).params = s.params := rfl
@[simp] theorem State.withDevice_parser (d : DeviceState) (s : State) : (s.withDevice d).parser = s.parser := rfl
@[simp] theorem State.withDevice_device (d : DeviceState) (s : State) : (s.withDevice d).device = d := rfl
@[simp] theorem State.withDevice_pending (d : DeviceState) (s : State) : (s.withDevice d).pending = s.pending := rfl
@[simp] theorem State.withDevice_returned (d : DeviceState) (s : State) : (s.withDevice d).returned = s.returned := rfl
@[simp] theorem State.withDevice_tx (d : DeviceState) (s : State) : (s.withDevice d).tx = s.tx := rfl
@[simp] theorem State.withDevice_sinkScript (d : DeviceState) (s : State) : (s.withDevice d).sinkScript = s.sinkScript := rfl
@[simp] theorem State.withDevice_sinkWrites (d : DeviceState) (s : State) : (s.withDevice d).sinkWrites = s.sinkWrites := rfl

@[simp] theorem State.begin_params (q : List Transaction) (s : State) : (s.begin q).params = s.params := rfl
@[simp] theorem State.begin_parser (q : List Transaction) (s : State) : (s.begin q).parser = s.parser := rfl
@[simp] theorem State.begin_device (q : List Transaction) (s : State) : (s.begin q).device = s.device := rfl
@[simp] theorem State.begin_pending (q : List Transaction) (s : State) : (s.begin q).pending = q := rfl
@[simp] theorem State.begin_returned (q : List Transaction) (s : State) : (s.begin q).returned = [] := rfl
@[simp] theorem State.begin_tx (q : List Transaction) (s : State) : (s.begin q).tx = s.tx := rfl
@[simp] theorem State.begin_sinkScript (q : List Transaction) (s : State) : (s.begin q).sinkScript = s.sinkScript := rfl
@[simp] theorem State.begin_sinkWrites (q : List Transaction) (s : State) : (s.begin q).sinkWrites = s.sinkWrites := rfl

@[simp] theorem State.respond_params (r : Response) (s : State) : (s.respond r).params = s.params := rfl
@[simp] theorem State.respond_parser (r : Response) (s : State) : (s.respond r).parser = s.parser := rfl
@[simp] theorem State.respond_device (r : Response) (s : State) : (s.respond r).device = s.device := rfl
@[simp] theorem State.respond_pending (r : Response) (s : State) : (s.respond r).pending = s.pending := rfl
@[simp] theorem State.respond_returned (r : Response) (s : State) : (s.respond r).returned = s.returned ++ [r] := rfl
@[simp] theorem State.respond_tx (r : Response) (s : State) : (s.respond r).tx = s.tx := rfl
@[simp] theorem State.respond_sinkScript (r : Response) (s : State) : (s.respond r).sinkScript = s.sinkScript := rfl
@[simp] theorem State.respond_sinkWrites (r : Response) (s : State) : (s.respond r).sinkWrites = s.sinkWrites := rfl

@[simp] theorem raiseError_params (e : EngineError) (s : State) : (raiseError e s).params = s.params := rfl
@[simp] theorem raiseError_parser (e : EngineError) (s : State) : (raiseError e s).parser = s.parser := rfl
@[simp] theorem raiseError_device (e : EngineError) (s : State) : (raiseError e s).device = s.device := rfl
@[simp] theorem raiseError_pending (e : EngineError) (s : State) : (raiseError e s).pending = s.pending := rfl
@[simp] theorem raiseError_returned (e : EngineError) (s : State) : (raiseError e s).returned = s.returned ++ [.error e] := rfl
@[simp] theorem raiseError_tx (e : EngineError) (s : State) : (raiseError e s).tx = s.tx := rfl
@[simp] theorem raiseError_sinkScript (e : EngineError) (s : State) : (raiseError e s).sinkScript = s.sinkScript := rfl
@[simp] theorem raiseError_sinkWrites (e : EngineError) (s : State) : (raiseError e s).sinkWrites = s.sinkWrites := rfl

@[simp] theorem State.wrote_params (b : Byte) (s : State) : (s.wrote b).params = s.params := rfl
@[simp] theorem State.wrote_parser (b : Byte) (s : State) : (s.wrote b).parser = s.parser := rfl
@[simp] theorem State.wrote_device (b : Byte) (s : State) : (s.wrote b).device = s.device := rfl
@[simp] theorem State.wrote_pending (b : Byte) (s : State) : (s.wrote b).pending = s.pending := rfl
@[simp] theorem State.wrote_returned (b : Byte) (s : State) : (s.wrote b).returned = s.returned := rfl
@[simp] theorem State.wrote_sinkScript (b : Byte) (s : State) : (s.wrote b).sinkScript = s.sinkScript.tail := rfl
@[simp] theorem State.wrote_sinkWrites (b : Byte) (s : State) : (s.wrote b).sinkWrites = s.sinkWrites + 1 := rfl

@[simp] theorem ParserState.toIdle_pendingByteCount (p : ParserState) : p.toIdle.pendingByteCount = 0 := rfl
@[simp] theorem ParserState.toIdle_activeCmd (p : ParserState) : p.toIdle.activeCmd = .none := rfl
@[simp] theorem ParserState.toIdle_activeChannel (p : ParserState) : p.toIdle.activeChannel = 0 := rfl
@[simp] theorem ParserState.toIdle_inSysex (p : ParserState) : p.toIdle.inSysex = false := rfl
@[simp] theorem ParserState.toIdle_sysexBuffer (p : ParserState) : p.toIdle.sysexBuffer = p.sysexBuffer := rfl
@[simp] theorem ParserState.toIdle_sysexLength (p : ParserState) : p.toIdle.sysexLength = 0 := rfl
@[simp] theorem ParserState.toIdle_overflowed (p : ParserState) : p.toIdle.overflowed = false := rfl

@[simp] theorem ParserState.setOverflow_pendingByteCount (p : ParserState) : p.setOverflow.pendingByteCount = p.pendingByteCount := rfl
@[simp] theorem ParserState.setOverflow_activeCmd (p : ParserState) : p.setOverflow.activeCmd = p.activeCmd := rfl
@[simp] theorem ParserState.setOverflow_activeChannel (p : ParserState) : p.setOverflow.activeChannel = p.activeChannel := rfl
@[simp] theorem ParserState.setOverflow_inSysex (p : ParserState) : p.setOverflow.inSysex = p.inSysex := rfl
@[simp] theorem ParserState.setOverflow_sysexBuffer (p : ParserState) : p.setOverflow.sysexBuffer = p.sysexBuffer := rfl
@[simp] theorem ParserState.setOverflow_sysexLength (p : ParserState) : p.setOverflow.sysexLength = 0 := rfl
@[simp] theorem ParserState.setOverflow_overflowed (p : ParserState) : p.setOverflow.overflowed = true := rfl

@[simp] theorem ParserState.openSysex_pendingByteCount (p : ParserState) : p.openSysex.pendingByteCount = p.pendingByteCount := rfl
@[simp] theorem ParserState.openSysex_activeCmd (p : ParserState) : p.openSysex.activeCmd = p.activeCmd := rfl
@[simp] theorem ParserState.openSysex_activeChannel (p : ParserState) : p.openSysex.activeChannel = p.activeChannel := rfl
@[simp] theorem ParserState.openSysex_inSysex (p : ParserState) : p.openSysex.inSysex = true := rfl
@[simp] theorem ParserState.openSysex_sysexBuffer (p : ParserState) : p.openSysex.sysexBuffer = p.sysexBuffer := rfl
@[simp] theorem ParserState.openSysex_sysexLength (p : ParserState) : p.openSysex.sysexLength = 0 := rfl
@[simp] theorem ParserState.openSysex_overflowed (p : ParserState) : p.openSysex.overflowed = false := rfl

@[simp] theorem ParserState.toIdle_toIdle (p : ParserState) : p.toIdle.toIdle = p.toIdle := rfl

@[simp] theorem DeviceState.setPort_pinMode (d : DeviceState) (n : Nibble) (v : Word16) : (d.setPort n v).pinMode = d.pinMode := rfl
@[simp] theorem DeviceState.setPort_pinAnalogChannel (d : DeviceState) (n : Nibble) (v : Word16) : (d.setPort n v).pinAnalogChannel = d.pinAnalogChannel := rfl
@[simp] theorem DeviceState.setPort_analogValue (d : DeviceState) (n : Nibble) (v : Word16) : (d.setPort n v).analogValue = d.analogValue := rfl
@[simp] theorem DeviceState.setPort_extReply (d : DeviceState) (n : Nibble) (v : Word16) : (d.setPort n v).extReply = d.extReply := rfl
@[simp] theorem DeviceState.setPort_stepperStatus (d : DeviceState) (n : Nibble) (v : Word16) : (d.setPort n v).stepperStatus = d.stepperStatus := rfl
@[simp] theorem DeviceState.setPort_fwVersion (d : DeviceState) (n : Nibble) (v : Word16) : (d.setPort n v).fwVersion = d.fwVersion := rfl

@[simp] theorem DeviceState.setPinMode_port (d : DeviceState) (pin : Data7) (m : PinMode) : (d.setPinMode pin m).port = d.port := rfl
@[simp] theorem DeviceState.setPinMode_pinAnalogChannel (d : DeviceState) (pin : Data7) (m : PinMode) : (d.setPinMode pin m).pinAnalogChannel = d.pinAnalogChannel := rfl
@[simp] theorem DeviceState.setPinMode_analogValue (d : DeviceState) (pin : Data7) (m : PinMode) : (d.setPinMode pin m).analogValue = d.analogValue := rfl
@[simp] theorem DeviceState.setPinMode_extReply (d : DeviceState) (pin : Data7) (m : PinMode) : (d.setPinMode pin m).extReply = d.extReply := rfl
@[simp] theorem DeviceState.setPinMode_stepperStatus (d : DeviceState) (pin : Data7) (m : PinMode) : (d.setPinMode pin m).stepperStatus = d.stepperStatus := rfl
@[simp] theorem DeviceState.setPinMode_fwVersion (d : DeviceState) (pin : Data7) (m : PinMode) : (d.setPinMode pin m).fwVersion = d.fwVersion := rfl

@[simp] theorem DeviceState.setPinAnalogChannels_port (d : DeviceState) (v : Vector Byte 128) : (d.setPinAnalogChannels v).port = d.port := rfl
@[simp] theorem DeviceState.setPinAnalogChannels_pinMode (d : DeviceState) (v : Vector Byte 128) : (d.setPinAnalogChannels v).pinMode = d.pinMode := rfl
@[simp] theorem DeviceState.setPinAnalogChannels_analogValue (d : DeviceState) (v : Vector Byte 128) : (d.setPinAnalogChannels v).analogValue = d.analogValue := rfl
@[simp] theorem DeviceState.setPinAnalogChannels_extReply (d : DeviceState) (v : Vector Byte 128) : (d.setPinAnalogChannels v).extReply = d.extReply := rfl
@[simp] theorem DeviceState.setPinAnalogChannels_stepperStatus (d : DeviceState) (v : Vector Byte 128) : (d.setPinAnalogChannels v).stepperStatus = d.stepperStatus := rfl
@[simp] theorem DeviceState.setPinAnalogChannels_fwVersion (d : DeviceState) (v : Vector Byte 128) : (d.setPinAnalogChannels v).fwVersion = d.fwVersion := rfl

@[simp] theorem DeviceState.setAnalogValue_port (d : DeviceState) (channel : Nibble) (v : Word14) : (d.setAnalogValue channel v).port = d.port := rfl
@[simp] theorem DeviceState.setAnalogValue_pinMode (d : DeviceState) (channel : Nibble) (v : Word14) : (d.setAnalogValue channel v).pinMode = d.pinMode := rfl
@[simp] theorem DeviceState.setAnalogValue_pinAnalogChannel (d : DeviceState) (channel : Nibble) (v : Word14) : (d.setAnalogValue channel v).pinAnalogChannel = d.pinAnalogChannel := rfl
@[simp] theorem DeviceState.setAnalogValue_extReply (d : DeviceState) (channel : Nibble) (v : Word14) : (d.setAnalogValue channel v).extReply = d.extReply := rfl
@[simp] theorem DeviceState.setAnalogValue_stepperStatus (d : DeviceState) (channel : Nibble) (v : Word14) : (d.setAnalogValue channel v).stepperStatus = d.stepperStatus := rfl
@[simp] theorem DeviceState.setAnalogValue_fwVersion (d : DeviceState) (channel : Nibble) (v : Word14) : (d.setAnalogValue channel v).fwVersion = d.fwVersion := rfl

@[simp] theorem DeviceState.setReply_port (d : DeviceState) (address register : Word15) (values : List Word15) : (d.setReply address register values).port = d.port := rfl
@[simp] theorem DeviceState.setReply_pinMode (d : DeviceState) (address register : Word15) (values : List Word15) : (d.setReply address register values).pinMode = d.pinMode := rfl
@[simp] theorem DeviceState.setReply_pinAnalogChannel (d : DeviceState) (address register : Word15) (values : List Word15) : (d.setReply address register values).pinAnalogChannel = d.pinAnalogChannel := rfl
@[simp] theorem DeviceState.setReply_analogValue (d : DeviceState) (address register : Word15) (values : List Word15) : (d.setReply address register values).analogValue = d.analogValue := rfl
@[simp] theorem DeviceState.setReply_stepperStatus (d : DeviceState) (address register : Word15) (values : List Word15) : (d.setReply address register values).stepperStatus = d.stepperStatus := rfl
@[simp] theorem DeviceState.setReply_fwVersion (d : DeviceState) (address register : Word15) (values : List Word15) : (d.setReply address register values).fwVersion = d.fwVersion := rfl

@[simp] theorem DeviceState.setStepper_port (d : DeviceState) (index : Data7) (moving : Bool) : (d.setStepper index moving).port = d.port := rfl
@[simp] theorem DeviceState.setStepper_pinMode (d : DeviceState) (index : Data7) (moving : Bool) : (d.setStepper index moving).pinMode = d.pinMode := rfl
@[simp] theorem DeviceState.setStepper_pinAnalogChannel (d : DeviceState) (index : Data7) (moving : Bool) : (d.setStepper index moving).pinAnalogChannel = d.pinAnalogChannel := rfl
@[simp] theorem DeviceState.setStepper_analogValue (d : DeviceState) (index : Data7) (moving : Bool) : (d.setStepper index moving).analogValue = d.analogValue := rfl
@[simp] theorem DeviceState.setStepper_extReply (d : DeviceState) (index : Data7) (moving : Bool) : (d.setStepper index moving).extReply = d.extReply := rfl
@[simp] theorem DeviceState.setStepper_fwVersion (d : DeviceState) (index : Data7) (moving : Bool) : (d.setStepper index moving).fwVersion = d.fwVersion := rfl

@[simp] theorem DeviceState.setFwVersion_port (d : DeviceState) (major minor : Data7) : (d.setFwVersion major minor).port = d.port := rfl
@[simp] theorem DeviceState.setFwVersion_pinMode (d : DeviceState) (major minor : Data7) : (d.setFwVersion major minor).pinMode = d.pinMode := rfl
@[simp] theorem DeviceState.setFwVersion_pinAnalogChannel (d : DeviceState) (major minor : Data7) : (d.setFwVersion major minor).pinAnalogChannel = d.pinAnalogChannel := rfl
@[simp] theorem DeviceState.setFwVersion_analogValue (d : DeviceState) (major minor : Data7) : (d.setFwVersion major minor).analogValue = d.analogValue := rfl
@[simp] theorem DeviceState.setFwVersion_extReply (d : DeviceState) (major minor : Data7) : (d.setFwVersion major minor).extReply = d.extReply := rfl
@[simp] theorem DeviceState.setFwVersion_stepperStatus (d : DeviceState) (major minor : Data7) : (d.setFwVersion major minor).stepperStatus = d.stepperStatus := rfl

@[simp] theorem DeviceState.setPinAnalogChannels_own (d : DeviceState) (v : Vector Byte 128) :
    (d.setPinAnalogChannels v).pinAnalogChannel = v := rfl

@[simp] theorem DeviceState.setFwVersion_own (d : DeviceState) (major minor : Data7) :
    (d.setFwVersion major minor).fwVersion = { major := major, minor := minor } := rfl

/-! Reads after writes of the registers (R29 to R35). -/

@[simp] theorem DeviceState.portAt_setPort (d : DeviceState) (n m : Nibble) (v : Word16) :
    (d.setPort n v).portAt m = if m = n then v else d.portAt m := by
  simp only [DeviceState.setPort, DeviceState.portAt, Vector.getElem_set, BitVec.toNat_inj, eq_comm]

@[simp] theorem DeviceState.pinModeAt_setPinMode (d : DeviceState) (p q : Data7) (m : PinMode) :
    (d.setPinMode p m).pinModeAt q = if q = p then m else d.pinModeAt q := by
  simp only [DeviceState.setPinMode, DeviceState.pinModeAt, Vector.getElem_set, BitVec.toNat_inj, eq_comm]

@[simp] theorem DeviceState.analogValueAt_setAnalogValue (d : DeviceState) (n m : Nibble) (v : Word14) :
    (d.setAnalogValue n v).analogValueAt m = if m = n then v else d.analogValueAt m := by
  simp only [DeviceState.setAnalogValue, DeviceState.analogValueAt, Vector.getElem_set, BitVec.toNat_inj, eq_comm]

@[simp] theorem DeviceState.stepperAt_setStepper (d : DeviceState) (i j : Data7) (b : Bool) :
    (d.setStepper i b).stepperAt j = if j = i then b else d.stepperAt j := by
  simp only [DeviceState.setStepper, DeviceState.stepperAt, Vector.getElem_set, BitVec.toNat_inj, eq_comm]

/-! The registers a write leaves alone, through their reads. -/

@[simp] theorem DeviceState.pinModeAt_setPort (d : DeviceState) (n0 : Nibble) (v : Word16) (q : Data7) : (d.setPort n0 v).pinModeAt q = d.pinModeAt q := rfl
@[simp] theorem DeviceState.pinAnalogChannelAt_setPort (d : DeviceState) (n0 : Nibble) (v : Word16) (q : Data7) : (d.setPort n0 v).pinAnalogChannelAt q = d.pinAnalogChannelAt q := rfl
@[simp] theorem DeviceState.analogValueAt_setPort (d : DeviceState) (n0 : Nibble) (v : Word16) (k : Nibble) : (d.setPort n0 v).analogValueAt k = d.analogValueAt k := rfl
@[simp] theorem DeviceState.replyAt_setPort (d : DeviceState) (n0 : Nibble) (v : Word16) (a r : Word15) : (d.setPort n0 v).replyAt a r = d.replyAt a r := rfl
@[simp] theorem DeviceState.stepperAt_setPort (d : DeviceState) (n0 : Nibble) (v : Word16) (j : Data7) : (d.setPort n0 v).stepperAt j = d.stepperAt j := rfl

@[simp] theorem DeviceState.portAt_setPinMode (d : DeviceState) (pin : Data7) (m : PinMode) (n : Nibble) : (d.setPinMode pin m).portAt n = d.portAt n := rfl
@[simp] theorem DeviceState.pinAnalogChannelAt_setPinMode (d : DeviceState) (pin : Data7) (m : PinMode) (q : Data7) : (d.setPinMode pin m).pinAnalogChannelAt q = d.pinAnalogChannelAt q := rfl
@[simp] theorem DeviceState.analogValueAt_setPinMode (d : DeviceState) (pin : Data7) (m : PinMode) (k : Nibble) : (d.setPinMode pin m).analogValueAt k = d.analogValueAt k := rfl
@[simp] theorem DeviceState.replyAt_setPinMode (d : DeviceState) (pin : Data7) (m : PinMode) (a r : Word15) : (d.setPinMode pin m).replyAt a r = d.replyAt a r := rfl
@[simp] theorem DeviceState.stepperAt_setPinMode (d : DeviceState) (pin : Data7) (m : PinMode) (j : Data7) : (d.setPinMode pin m).stepperAt j = d.stepperAt j := rfl

@[simp] theorem DeviceState.portAt_setPinAnalogChannels (d : DeviceState) (v : Vector Byte 128) (n : Nibble) : (d.setPinAnalogChannels v).portAt n = d.portAt n := rfl
@[simp] theorem DeviceState.pinModeAt_setPinAnalogChannels (d : DeviceState) (v : Vector Byte 128) (q : Data7) : (d.setPinAnalogChannels v).pinModeAt q = d.pinModeAt q := rfl
@[simp] theorem DeviceState.analogValueAt_setPinAnalogChannels (d : DeviceState) (v : Vector Byte 128) (k : Nibble) : (d.setPinAnalogChannels v).analogValueAt k = d.analogValueAt k := rfl
@[simp] theorem DeviceState.replyAt_setPinAnalogChannels (d : DeviceState) (v : Vector Byte 128) (a r : Word15) : (d.setPinAnalogChannels v).replyAt a r = d.replyAt a r := rfl
@[simp] theorem DeviceState.stepperAt_setPinAnalogChannels (d : DeviceState) (v : Vector Byte 128) (j : Data7) : (d.setPinAnalogChannels v).stepperAt j = d.stepperAt j := rfl

@[simp] theorem DeviceState.portAt_setAnalogValue (d : DeviceState) (channel : Nibble) (v : Word14) (n : Nibble) : (d.setAnalogValue channel v).portAt n = d.portAt n := rfl
@[simp] theorem DeviceState.pinModeAt_setAnalogValue (d : DeviceState) (channel : Nibble) (v : Word14) (q : Data7) : (d.setAnalogValue channel v).pinModeAt q = d.pinModeAt q := rfl
@[simp] theorem DeviceState.pinAnalogChannelAt_setAnalogValue (d : DeviceState) (channel : Nibble) (v : Word14) (q : Data7) : (d.setAnalogValue channel v).pinAnalogChannelAt q = d.pinAnalogChannelAt q := rfl
@[simp] theorem DeviceState.replyAt_setAnalogValue (d : DeviceState) (channel : Nibble) (v : Word14) (a r : Word15) : (d.setAnalogValue channel v).replyAt a r = d.replyAt a r := rfl
@[simp] theorem DeviceState.stepperAt_setAnalogValue (d : DeviceState) (channel : Nibble) (v : Word14) (j : Data7) : (d.setAnalogValue channel v).stepperAt j = d.stepperAt j := rfl

@[simp] theorem DeviceState.portAt_setReply (d : DeviceState) (address register : Word15) (values : List Word15) (n : Nibble) : (d.setReply address register values).portAt n = d.portAt n := rfl
@[simp] theorem DeviceState.pinModeAt_setReply (d : DeviceState) (address register : Word15) (values : List Word15) (q : Data7) : (d.setReply address register values).pinModeAt q = d.pinModeAt q := rfl
@[simp] theorem DeviceState.pinAnalogChannelAt_setReply (d : DeviceState) (address register : Word15) (values : List Word15) (q : Data7) : (d.setReply address register values).pinAnalogChannelAt q = d.pinAnalogChannelAt q := rfl
@[simp] theorem DeviceState.analogValueAt_setReply (d : DeviceState) (address register : Word15) (values : List Word15) (k : Nibble) : (d.setReply address register values).analogValueAt k = d.analogValueAt k := rfl
@[simp] theorem DeviceState.stepperAt_setReply (d : DeviceState) (address register : Word15) (values : List Word15) (j : Data7) : (d.setReply address register values).stepperAt j = d.stepperAt j := rfl

@[simp] theorem DeviceState.portAt_setStepper (d : DeviceState) (index : Data7) (moving : Bool) (n : Nibble) : (d.setStepper index moving).portAt n = d.portAt n := rfl
@[simp] theorem DeviceState.pinModeAt_setStepper (d : DeviceState) (index : Data7) (moving : Bool) (q : Data7) : (d.setStepper index moving).pinModeAt q = d.pinModeAt q := rfl
@[simp] theorem DeviceState.pinAnalogChannelAt_setStepper (d : DeviceState) (index : Data7) (moving : Bool) (q : Data7) : (d.setStepper index moving).pinAnalogChannelAt q = d.pinAnalogChannelAt q := rfl
@[simp] theorem DeviceState.analogValueAt_setStepper (d : DeviceState) (index : Data7) (moving : Bool) (k : Nibble) : (d.setStepper index moving).analogValueAt k = d.analogValueAt k := rfl
@[simp] theorem DeviceState.replyAt_setStepper (d : DeviceState) (index : Data7) (moving : Bool) (a r : Word15) : (d.setStepper index moving).replyAt a r = d.replyAt a r := rfl

@[simp] theorem DeviceState.portAt_setFwVersion (d : DeviceState) (major minor : Data7) (n : Nibble) : (d.setFwVersion major minor).portAt n = d.portAt n := rfl
@[simp] theorem DeviceState.pinModeAt_setFwVersion (d : DeviceState) (major minor : Data7) (q : Data7) : (d.setFwVersion major minor).pinModeAt q = d.pinModeAt q := rfl
@[simp] theorem DeviceState.pinAnalogChannelAt_setFwVersion (d : DeviceState) (major minor : Data7) (q : Data7) : (d.setFwVersion major minor).pinAnalogChannelAt q = d.pinAnalogChannelAt q := rfl
@[simp] theorem DeviceState.analogValueAt_setFwVersion (d : DeviceState) (major minor : Data7) (k : Nibble) : (d.setFwVersion major minor).analogValueAt k = d.analogValueAt k := rfl
@[simp] theorem DeviceState.replyAt_setFwVersion (d : DeviceState) (major minor : Data7) (a r : Word15) : (d.setFwVersion major minor).replyAt a r = d.replyAt a r := rfl
@[simp] theorem DeviceState.stepperAt_setFwVersion (d : DeviceState) (major minor : Data7) (j : Data7) : (d.setFwVersion major minor).stepperAt j = d.stepperAt j := rfl

end Sys2Proof.Machine
end

