-- ==== Sys2Proof/Laws/Memory.lean ====
section
/-! SUPPORT. The laws of the sysex buffer and of the reply store: read after write, the canonical form kept, equal
reads give equal data. -/

namespace Sys2Proof.Machine

/-! The sysex buffer. -/

theorem Memory.get_of_rising {m : List Host.Cell} {a : Nat} (h : m.all (fun c => a < c.1) = true) :
    Memory.get m a = 0 := by
  induction m with
  | nil => rfl
  | cons c rest ih =>
    obtain ⟨k, v⟩ := c
    simp only [List.all_cons, Bool.and_eq_true, decide_eq_true_eq] at h
    simp only [Memory.get]
    rw [if_neg (by omega)]
    exact ih h.2

theorem Memory.wf_cons {k : Nat} {v : Byte} {rest : List Host.Cell} :
    Memory.wf ((k, v) :: rest) = true ↔
      k < Config.sysexCap ∧ v ≠ 0 ∧ rest.all (fun c => k < c.1) = true ∧ Memory.wf rest = true := by
  simp [Memory.wf, and_assoc]

theorem Memory.rising_mono {m : List Host.Cell} {a k : Nat} (hk : a ≤ k) (h : m.all (fun c => k < c.1) = true) :
    m.all (fun c => a < c.1) = true := by
  simp only [List.all_eq_true, decide_eq_true_eq] at h ⊢
  intro c hc
  have := h c hc
  omega

theorem Memory.put_rising {m : List Host.Cell} {k a : Nat} {b : Byte} (hk : k < a)
    (h : m.all (fun c => k < c.1) = true) : (Memory.put m a b).all (fun c => k < c.1) = true := by
  induction m with
  | nil => by_cases hb : b = 0 <;> simp [Memory.put, hb, hk]
  | cons c rest ih =>
    obtain ⟨k', v⟩ := c
    simp only [List.all_cons, Bool.and_eq_true, decide_eq_true_eq] at h
    simp only [Memory.put]
    split
    · simp only [List.all_cons, Bool.and_eq_true, decide_eq_true_eq]
      exact ⟨h.1, ih h.2⟩
    · split
      · split
        · exact h.2
        · simp only [List.all_cons, Bool.and_eq_true, decide_eq_true_eq]
          exact ⟨hk, h.2⟩
      · split
        · simp only [List.all_cons, Bool.and_eq_true, decide_eq_true_eq]; exact h
        · simp only [List.all_cons, Bool.and_eq_true, decide_eq_true_eq]; exact ⟨hk, h⟩

/-- Every write keeps the canonical form. -/
theorem Memory.put_wf {m : List Host.Cell} {a : Nat} {b : Byte} (ha : a < Config.sysexCap) (h : Memory.wf m = true) :
    Memory.wf (Memory.put m a b) = true := by
  induction m with
  | nil =>
    simp only [Memory.put]
    split <;> simp_all [Memory.wf]
  | cons c rest ih =>
    obtain ⟨k, v⟩ := c
    obtain ⟨h1, h2, h3, h4⟩ := Memory.wf_cons.1 h
    simp only [Memory.put]
    split
    · exact Memory.wf_cons.2 ⟨h1, h2, Memory.put_rising ‹_› h3, ih h4⟩
    · split
      · subst_vars
        split
        · exact h4
        · exact Memory.wf_cons.2 ⟨ha, ‹_›, h3, h4⟩
      · split
        · exact h
        · refine Memory.wf_cons.2 ⟨ha, ‹_›, ?_, h⟩
          simp only [List.all_cons, Bool.and_eq_true, decide_eq_true_eq]
          exact ⟨by omega, Memory.rising_mono (by omega) h3⟩

/-- Read after write. -/
theorem Memory.get_put {m : List Host.Cell} (h : Memory.wf m = true) (a x : Nat) (b : Byte) :
    Memory.get (Memory.put m a b) x = if x = a then b else Memory.get m x := by
  induction m with
  | nil =>
    simp only [Memory.put]
    split <;> simp_all [Memory.get, eq_comm (a := a)]
  | cons c rest ih =>
    obtain ⟨k, v⟩ := c
    obtain ⟨h1, h2, h3, h4⟩ := Memory.wf_cons.1 h
    have hlow : ∀ y, y ≤ k → Memory.get rest y = 0 := fun y hy => Memory.get_of_rising (Memory.rising_mono hy h3)
    simp only [Memory.put]
    split
    · simp only [Memory.get, ih h4]
      by_cases hx : k = x
      · rw [if_pos hx, if_pos hx, if_neg (by omega)]
      · rw [if_neg hx, if_neg hx]
    · split
      · rename_i hk
        subst hk
        have hb := hlow k (le_refl _)
        by_cases hx : x = k
        · subst hx
          split <;> simp_all [Memory.get]
        · split <;> simp [Memory.get, Ne.symm hx]
      · have ha : k ≠ a := ‹_›
        have hb := hlow a (by omega)
        by_cases hx : x = a
        · subst hx
          split <;> simp_all [Memory.get]
        · split <;> simp [Memory.get, Ne.symm hx]

/-- Two canonical buffers that read alike are equal data. -/
theorem Memory.ext_of_get {m m' : List Host.Cell} (h : Memory.wf m = true) (h' : Memory.wf m' = true)
    (e : ∀ a, Memory.get m a = Memory.get m' a) : m = m' := by
  induction m generalizing m' with
  | nil =>
    cases m' with
    | nil => rfl
    | cons c rest =>
      obtain ⟨k, v⟩ := c
      exact absurd (by simpa [Memory.get] using (e k).symm) (Memory.wf_cons.1 h').2.1
  | cons c rest ih =>
    obtain ⟨k, v⟩ := c
    obtain ⟨h1, h2, h3, h4⟩ := Memory.wf_cons.1 h
    cases m' with
    | nil => exact absurd (by simpa [Memory.get] using e k) h2
    | cons c' rest' =>
      obtain ⟨k', v'⟩ := c'
      obtain ⟨h1', h2', h3', h4'⟩ := Memory.wf_cons.1 h'
      have hlow : ∀ y, y ≤ k → Memory.get rest y = 0 := fun y hy => Memory.get_of_rising (Memory.rising_mono hy h3)
      have hlow' : ∀ y, y ≤ k' → Memory.get rest' y = 0 :=
        fun y hy => Memory.get_of_rising (Memory.rising_mono hy h3')
      have hk : k = k' := by
        rcases Nat.lt_trichotomy k k' with hlt | heq | hgt
        · have := e k
          simp only [Memory.get, if_true] at this
          rw [if_neg (by omega), hlow' k (by omega)] at this
          exact absurd this h2
        · exact heq
        · have := e k'
          simp only [Memory.get, if_true] at this
          rw [if_neg (by omega), hlow k' (by omega)] at this
          exact absurd this.symm h2'
      subst hk
      have hv : v = v' := by simpa [Memory.get] using e k
      subst hv
      have : rest = rest' := by
        apply ih h4 h4'
        intro a
        by_cases ha : a ≤ k
        · rw [hlow a ha, hlow' a ha]
        · have := e a
          simp only [Memory.get] at this
          rwa [if_neg (by omega), if_neg (by omega)] at this
      rw [this]

@[simp] theorem Memory.read_of_lt {m : List Host.Cell} {a : Nat} (h : a < Config.sysexCap) :
    Memory.read m a = some (Memory.get m a) := by simp [Memory.read, h]

@[simp] theorem Memory.write_of_lt {m : List Host.Cell} {a : Nat} {b : Byte} (h : a < Config.sysexCap) :
    Memory.write m a b = some (Memory.put m a b) := by simp [Memory.write, h]

/-- A range inside the buffer reads the bytes it holds. -/
theorem Memory.readRange_eq {m : List Host.Cell} {bs : List Byte} (a : Nat) (hcap : a + bs.length ≤ Config.sysexCap)
    (h : ∀ i (hi : i < bs.length), Memory.get m (a + i) = bs[i]) : Memory.readRange m a bs.length = some bs := by
  induction bs generalizing a with
  | nil => rfl
  | cons b bs ih =>
    simp only [List.length_cons] at hcap
    simp only [List.length_cons, Memory.readRange]
    rw [Memory.read_of_lt (by omega), ih (a + 1) (by omega) ?_]
    · have := h 0 (by simp)
      simp only [Nat.add_zero, List.getElem_cons_zero] at this
      simp [this]
    · intro i hi
      have := h (i + 1) (by simpa using hi)
      simpa [Nat.add_assoc, Nat.add_comm 1 i] using this

/-- Inside the buffer a range always reads. -/
theorem Memory.readRange_total {m : List Host.Cell} (a n : Nat) (hcap : a + n ≤ Config.sysexCap) :
    ∃ bs, Memory.readRange m a n = some bs ∧ bs.length = n ∧
      ∀ i (hi : i < bs.length), bs[i] = Memory.get m (a + i) := by
  refine ⟨(List.range n).map (fun i => Memory.get m (a + i)), ?_, by simp, by simp⟩
  have := Memory.readRange_eq (m := m) (bs := (List.range n).map (fun i => Memory.get m (a + i))) a (by simpa) (by simp)
  simpa using this

/-! The reply store. -/

theorem ReplyStore.key_inj {a r a' r' : Word15} (h : ReplyStore.key a r = ReplyStore.key a' r') : a = a' ∧ r = r' := by
  simp only [ReplyStore.key] at h
  have h1 := r.isLt
  have h2 := r'.isLt
  constructor <;> apply BitVec.eq_of_toNat_eq <;> omega

theorem ReplyStore.lookup_of_rising {m : List ReplyEntry} {a r : Word15}
    (h : m.all (fun x => ReplyStore.key a r < x.key) = true) : ReplyStore.lookup m a r = none := by
  induction m with
  | nil => rfl
  | cons e rest ih =>
    simp only [List.all_cons, Bool.and_eq_true, decide_eq_true_eq] at h
    simp only [ReplyStore.lookup]
    rw [if_neg ?_]
    · exact ih h.2
    · rintro ⟨rfl, rfl⟩
      simp [ReplyEntry.key] at h

theorem ReplyStore.wf_cons {e : ReplyEntry} {rest : List ReplyEntry} :
    ReplyStore.wf (e :: rest) = true ↔
      e.values.length ≤ 2045 ∧ rest.all (fun x => e.key < x.key) = true ∧ ReplyStore.wf rest = true := by
  simp [ReplyStore.wf, and_assoc]

theorem ReplyStore.insert_rising {m : List ReplyEntry} {n : ReplyEntry} {k : Nat} (hk : k < n.key)
    (h : m.all (fun x => k < x.key) = true) : (ReplyStore.insert m n).all (fun x => k < x.key) = true := by
  induction m with
  | nil => simp [ReplyStore.insert, hk]
  | cons e rest ih =>
    simp only [List.all_cons, Bool.and_eq_true, decide_eq_true_eq] at h
    simp only [ReplyStore.insert]
    split
    · simp [List.all_cons, h.1, ih h.2]
    · split
      · simp [List.all_cons, hk, h.2]
      · simp [List.all_cons, hk, h.1, h.2]

/-- Every overwrite keeps the canonical form. -/
theorem ReplyStore.insert_wf {m : List ReplyEntry} {n : ReplyEntry} (hn : n.values.length ≤ 2045)
    (h : ReplyStore.wf m = true) : ReplyStore.wf (ReplyStore.insert m n) = true := by
  induction m with
  | nil => simp [ReplyStore.insert, ReplyStore.wf, hn]
  | cons e rest ih =>
    obtain ⟨h1, h2, h3⟩ := ReplyStore.wf_cons.1 h
    simp only [ReplyStore.insert]
    split
    · exact ReplyStore.wf_cons.2 ⟨h1, ReplyStore.insert_rising ‹_› h2, ih h3⟩
    · split
      · rename_i hk
        refine ReplyStore.wf_cons.2 ⟨hn, ?_, h3⟩
        rw [← hk]; exact h2
      · refine ReplyStore.wf_cons.2 ⟨hn, ?_, h⟩
        simp only [List.all_cons, Bool.and_eq_true, decide_eq_true_eq, List.all_eq_true] at h2 ⊢
        refine ⟨by omega, fun x hx => ?_⟩
        have := h2 x hx
        omega

/-- Read after overwrite (R61): the key reads the new sequence, "every other key is unchanged". -/
theorem ReplyStore.lookup_insert {m : List ReplyEntry} (h : ReplyStore.wf m = true) (n : ReplyEntry)
    (a r : Word15) :
    ReplyStore.lookup (ReplyStore.insert m n) a r =
      if a = n.address ∧ r = n.register then some n.values else ReplyStore.lookup m a r := by
  induction m with
  | nil => simp [ReplyStore.insert, ReplyStore.lookup, eq_comm]
  | cons e rest ih =>
    obtain ⟨h1, h2, h3⟩ := ReplyStore.wf_cons.1 h
    simp only [ReplyStore.insert]
    split
    · rename_i hlt
      simp only [ReplyStore.lookup, ih h3]
      by_cases he : e.address = a ∧ e.register = r
      · rw [if_pos he, if_pos he, if_neg]
        rintro ⟨h4, h5⟩
        simp [ReplyEntry.key, he.1, he.2, h4, h5] at hlt
      · rw [if_neg he, if_neg he]
    · split
      · rename_i hk
        obtain ⟨h4, h5⟩ := ReplyStore.key_inj hk
        simp only [ReplyStore.lookup, h4, h5]
        by_cases he : a = n.address ∧ r = n.register
        · rw [if_pos ⟨he.1.symm, he.2.symm⟩, if_pos he]
        · rw [if_neg (fun x => he ⟨x.1.symm, x.2.symm⟩), if_neg he, if_neg (fun x => he ⟨x.1.symm, x.2.symm⟩)]
      · simp only [ReplyStore.lookup, eq_comm]

/-- Two canonical stores that read alike are equal data. -/
theorem ReplyStore.ext_of_lookup {m m' : List ReplyEntry} (h : ReplyStore.wf m = true) (h' : ReplyStore.wf m' = true)
    (e : ∀ a r, ReplyStore.lookup m a r = ReplyStore.lookup m' a r) : m = m' := by
  induction m generalizing m' with
  | nil =>
    cases m' with
    | nil => rfl
    | cons x rest => simpa [ReplyStore.lookup] using e x.address x.register
  | cons x rest ih =>
    obtain ⟨h1, h2, h3⟩ := ReplyStore.wf_cons.1 h
    cases m' with
    | nil => simpa [ReplyStore.lookup] using e x.address x.register
    | cons y rest' =>
      obtain ⟨h1', h2', h3'⟩ := ReplyStore.wf_cons.1 h'
      have low : ∀ {l : List ReplyEntry} {k : Nat} {a r : Word15}, l.all (fun z => k < z.key) = true →
          ReplyStore.key a r ≤ k → ReplyStore.lookup l a r = none := by
        intro l k a r hl hk
        apply ReplyStore.lookup_of_rising
        simp only [List.all_eq_true, decide_eq_true_eq] at hl ⊢
        intro z hz
        have := hl z hz
        omega
      have hk : x.key = y.key := by
        rcases Nat.lt_trichotomy x.key y.key with hlt | heq | hgt
        · have := e x.address x.register
          simp only [ReplyStore.lookup, and_self, if_true] at this
          rw [if_neg, low h2' (by simp only [ReplyEntry.key] at hlt ⊢; omega)] at this
          · simp at this
          · rintro ⟨h4, h5⟩; simp [ReplyEntry.key, h4, h5] at hlt
        · exact heq
        · have := e y.address y.register
          simp only [ReplyStore.lookup, and_self, if_true] at this
          rw [if_neg, low h2 (by simp only [ReplyEntry.key] at hgt ⊢; omega)] at this
          · simp at this
          · rintro ⟨h4, h5⟩; simp [ReplyEntry.key, h4, h5] at hgt
      obtain ⟨ha, hr⟩ := ReplyStore.key_inj hk
      have hv : x.values = y.values := by
        have := e x.address x.register
        simpa [ReplyStore.lookup, ha, hr] using this
      have hxy : x = y := by cases x; cases y; simp_all
      subst hxy
      have : rest = rest' := by
        apply ih h3 h3'
        intro a r
        by_cases hx : x.address = a ∧ x.register = r
        · obtain ⟨rfl, rfl⟩ := hx
          rw [low h2 (le_refl _), low h2' (le_refl _)]
        · have := e a r
          simpa only [ReplyStore.lookup, if_neg hx] using this
      rw [this]

@[simp] theorem DeviceState.replyAt_setReply {d : DeviceState} (h : ReplyStore.wf d.extReply = true)
    (a r a' r' : Word15) (vs : List Word15) :
    (d.setReply a r vs).replyAt a' r' = if a' = a ∧ r' = r then some vs else d.replyAt a' r' := by
  simp only [DeviceState.setReply, DeviceState.replyAt]
  rw [ReplyStore.lookup_insert h]

end Sys2Proof.Machine
end

