-- ==== Sys2Proof/Laws/Dispatcher.lean ====
section
/-! SUPPORT. What the Sysex Dispatcher computes, and what each payload leaves alone (R130). -/

namespace Sys2Proof.Machine

/-- Entry `q` of the table after the mapping bytes `cs` from position `p` on (R133). -/
theorem getElem_applyMapping (p : Nat) (cs : List Byte) (v : Vector Byte 128) (q : Nat) (hq : q < 128) :
   (applyMapping p cs v)[q] = if p ≤ q then (cs[q - p]?).getD v[q] else v[q] := by
  induction cs generalizing p v with
  | nil => simp [applyMapping]
  | cons c cs ih =>
    rw [applyMapping, ih]
    have hv : (if h : p < 128 then v.set p c h else v)[q] = if p = q then c else v[q] := by
      split
      · rw [Vector.getElem_set]
      · rw [if_neg (by omega)]
    by_cases h1 : p + 1 ≤ q
    · rw [if_pos h1, if_pos (by omega)]
      obtain ⟨k, rfl⟩ : ∃ k, q = p + 1 + k := ⟨q - (p+1), by omega⟩
      have e1 : p + 1 + k - (p + 1) = k := by omega
      have e2 : p + 1 + k - p = k + 1 := by omega
      rw [e1, e2, hv, if_neg (by omega)]; simp
    · rw [if_neg h1, hv]
      by_cases h2 : p = q
      · subst h2; simp
      · rw [if_neg h2, if_neg (by omega)]

theorem replyValues_length (vs : List Byte) : (replyValues vs).length = vs.length / 2 := by
  induction vs using replyValues.induct with
  | case1 lo hi rest ih => simp [replyValues, ih]; omega
  | case2 x h =>
    match x, h with
    | [], _ => rfl
    | [a], _ => simp [replyValues]
    | a :: b :: c, h => exact absurd rfl (h a b c)

/-- Value `k` is the pair of bytes `2k` and `2k + 1` (R135). -/
theorem replyValues_get (vs : List Byte) (k : Nat) (h : k < (replyValues vs).length) :
    (replyValues vs)[k] = Codec.join14 (vs.getD (2 * k) 0) (vs.getD (2 * k + 1) 0) := by
  induction vs using replyValues.induct generalizing k with
  | case1 lo hi rest ih =>
    cases k with
    | zero => simp [replyValues]
    | succ k =>
      simp only [replyValues, List.length_cons, Nat.add_lt_add_iff_right] at h
      simp only [replyValues, List.getElem_cons_succ, ih k h]
      rw [show 2 * (k+1) = 2 * k + 1 + 1 by omega]; simp
  | case2 x h' =>
    match x, h' with
    | [], _ => simp [replyValues] at h
    | [a], _ => simp [replyValues] at h
    | a :: b :: c, h => exact absurd rfl (h a b c)

/-- Which register a payload may change, by its first bytes (R130, R37). -/
theorem dispatch_frame (p : Params) (pl : List Byte) (d : DeviceState) :
   let e := (dispatch p pl d).1
   e.pinMode = d.pinMode ∧ e.port = d.port ∧ e.analogValue = d.analogValue ∧ e.fwVersion = d.fwVersion ∧
   (e.pinAnalogChannel ≠ d.pinAnalogChannel → pl[0]? = some 0x6A) ∧
   (e.stepperStatus ≠ d.stepperStatus → pl[0]? = some 0x62 ∧ pl[1]? = some 0x0A) ∧
   (e.extReply ≠ d.extReply → pl[0]? = some 0x77) := by
  simp only [dispatch]
  split
  · simp
  · split
    · simp [analogMapping]; intros; assumption
    · split
      · split
        · simp
        · split
          · rename_i h1 _ _ _ h2
            have : ∀ more, (moveComplete p more d).1 = d ∨ ∃ i, (moveComplete p more d).1 = d.setStepper i false := by
              intro more
              simp only [moveComplete]
              split
              · simp
              · split
                · simp
                · exact .inr ⟨_, rfl⟩
            rcases this ‹_› with h | ⟨i, h⟩
            · rw [h]; simp
            · rw [h]; simp; intros; exact ⟨h1, h2⟩
          · simp
      · split
        · rename_i h1
          have : ∀ args, (extensionReply args d).1 = d ∨ ∃ a r v, (extensionReply args d).1 = d.setReply a r v := by
            intro args
            simp only [extensionReply]
            split
            · exact .inr ⟨_, _, _, rfl⟩
            · simp
          rcases this ‹_› with h | ⟨a, r, v, h⟩
          · rw [h]; simp
          · rw [h]; simp; intros; exact h1
        · simp

/-- A range that was read holds the bytes read. -/
theorem Memory.readRange_get {m : List Host.Cell} (n a : Nat) (p : List Byte) (h : Memory.readRange m a n = some p) :
    ∀ i (hi : i < p.length), Memory.get m (a + i) = p[i] := by
  induction n generalizing a p with
  | zero => simp [Memory.readRange] at h; subst h; simp
  | succ n ih =>
    simp only [Memory.readRange] at h
    split at h
    · rename_i b bs h1 h2
      cases h
      intro i hi
      cases i with
      | zero => simp [Memory.read] at h1; simp [h1]
      | succ i =>
        have := ih (a+1) bs h2 i (by simpa using hi)
        simpa [Nat.add_assoc, Nat.add_comm 1] using this
    · simp at h

end Sys2Proof.Machine
end

