-- ==== Sys2Proof/Laws/Emit.lean ====
section
/-! SUPPORT. Everything `emit` can do (R151, R203): it touches only the environment's side, and where it stops is
decided by the first write that is not accepted. -/

namespace Sys2Proof.Machine

theorem answerAt_zero (s : State) : answerAt s 0 = nextAnswer s := by
  simp only [answerAt, nextAnswer]
  cases s.sinkScript <;> simp

theorem answerAt_wrote (s : State) (b : Byte) (k : Nat) : answerAt (s.wrote b) k = answerAt s (k + 1) := by
  simp only [answerAt, State.wrote_sinkScript, State.wrote_sinkWrites, List.getElem?_tail]
  rw [Nat.add_assoc, Nat.add_comm 1 k]

theorem State.wrote_ok (s : State) (b : Byte) (h : nextAnswer s = .ok) :
    s.wrote b = { s with tx := s.tx ++ [b], sinkScript := s.sinkScript.tail, sinkWrites := s.sinkWrites + 1 } := by
  simp [State.wrote, h]

theorem State.wrote_fail (s : State) (b : Byte) (e : Nat) (h : nextAnswer s = .fail e) :
    s.wrote b = { s with sinkScript := s.sinkScript.tail, sinkWrites := s.sinkWrites + 1 } := by
  simp [State.wrote, h]

/-- Every write accepted: all the bytes are on the wire. -/
theorem emit_ok (bs : List Byte) (s : State) (h : ∀ k, k < bs.length → answerAt s k = .ok) :
    emit bs s = ({ s with
      tx := s.tx ++ bs
      sinkScript := s.sinkScript.drop bs.length
      sinkWrites := s.sinkWrites + bs.length }, none) := by
  induction bs generalizing s with
  | nil => simp [emit]
  | cons b bs ih =>
    have h0 : nextAnswer s = .ok := by rw [← answerAt_zero]; exact h 0 (by simp)
    simp only [emit, h0]
    rw [ih]
    · rw [s.wrote_ok b h0]
      simp [Nat.add_assoc, Nat.add_comm 1]
    · intro k hk
      rw [answerAt_wrote]
      exact h (k + 1) (by simpa using hk)

/-- Write `k` is the first one refused: the bytes before it are on the wire, nothing after it is attempted. -/
theorem emit_fail (bs : List Byte) (s : State) (k e : Nat) (hk : k < bs.length)
    (hok : ∀ j, j < k → answerAt s j = .ok) (hf : answerAt s k = .fail e) :
    emit bs s = ({ s with
      tx := s.tx ++ bs.take k
      sinkScript := s.sinkScript.drop (k + 1)
      sinkWrites := s.sinkWrites + (k + 1) }, some e) := by
  induction bs generalizing s k with
  | nil => simp at hk
  | cons b bs ih =>
    cases k with
    | zero =>
      have h0 : nextAnswer s = .fail e := by rw [← answerAt_zero]; exact hf
      simp only [emit, h0]
      rw [s.wrote_fail b e h0]
      simp
    | succ k =>
      have h0 : nextAnswer s = .ok := by rw [← answerAt_zero]; exact hok 0 (by omega)
      simp only [emit, h0]
      rw [ih (s.wrote b) k (by simpa using hk)]
      · rw [s.wrote_ok b h0]
        simp [Nat.add_assoc, Nat.add_comm 1]
      · intro j hj
        rw [answerAt_wrote]
        exact hok (j + 1) (by omega)
      · rw [answerAt_wrote]; exact hf

/-- Either every write of a sequence is accepted or there is a first one that is not. -/
theorem answers_cases (s : State) (n : Nat) :
    (∀ k, k < n → answerAt s k = .ok) ∨
      ∃ k e, k < n ∧ (∀ j, j < k → answerAt s j = .ok) ∧ answerAt s k = .fail e := by
  induction n with
  | zero => exact .inl (by simp)
  | succ n ih =>
    rcases ih with h | ⟨k, e, hk, hok, hf⟩
    · cases ha : answerAt s n with
      | ok =>
        refine .inl fun k hk => ?_
        rcases Nat.lt_succ_iff_lt_or_eq.1 hk with h' | rfl
        · exact h k h'
        · exact ha
      | fail e => exact .inr ⟨n, e, by omega, h, ha⟩
    · exact .inr ⟨k, e, by omega, hok, hf⟩

/-- What an operation that ends in `emit` answers when every write is accepted. -/
theorem emitAndReturn_ok (bs : List Byte) (s : State) (h : ∀ k, k < bs.length → answerAt s k = .ok) :
    emitAndReturn bs s = { s with
      tx := s.tx ++ bs
      sinkScript := s.sinkScript.drop bs.length
      sinkWrites := s.sinkWrites + bs.length
      returned := s.returned ++ [.ok] } := by
  simp [emitAndReturn, emit_ok bs s h, State.respond]

/-- What it answers when write `k` is the first one refused. -/
theorem emitAndReturn_fail (bs : List Byte) (s : State) (k e : Nat) (hk : k < bs.length)
    (hok : ∀ j, j < k → answerAt s j = .ok) (hf : answerAt s k = .fail e) :
    emitAndReturn bs s = { s with
      tx := s.tx ++ bs.take k
      sinkScript := s.sinkScript.drop (k + 1)
      sinkWrites := s.sinkWrites + (k + 1)
      returned := s.returned ++ [.error (.sinkError e)] } := by
  simp [emitAndReturn, emit_fail bs s k e hk hok hf, raiseError, State.respond]

/-- `emit` of a sequence and then of another, if the first succeeds, is `emit` of the two together (R151). -/
theorem emit_append (as bs : List Byte) (s : State) :
    emit (as ++ bs) s =
      match emit as s with
      | (t, none) => emit bs t
      | (t, some e) => (t, some e) := by
  induction as generalizing s with
  | nil => simp [emit]
  | cons a as ih =>
    simp only [List.cons_append, emit]
    split <;> simp_all

/-! What an encoder operation leaves alone, whatever the sink answers. -/

theorem emit_keeps (bs : List Byte) (s : State) :
    (emit bs s).1.params = s.params ∧ (emit bs s).1.parser = s.parser ∧ (emit bs s).1.device = s.device ∧
      (emit bs s).1.pending = s.pending ∧ (emit bs s).1.returned = s.returned := by
  induction bs generalizing s with
  | nil => simp [emit]
  | cons b bs ih =>
    simp only [emit]
    split
    · simpa using ih (s.wrote b)
    · simp

theorem emitAndReturn_keeps (bs : List Byte) (s : State) :
    (emitAndReturn bs s).params = s.params ∧ (emitAndReturn bs s).parser = s.parser ∧
      (emitAndReturn bs s).device = s.device ∧ (emitAndReturn bs s).pending = s.pending := by
  have h := emit_keeps bs s
  simp only [emitAndReturn]
  split <;> simp_all

@[simp] theorem emitAndReturn_params (bs : List Byte) (s : State) : (emitAndReturn bs s).params = s.params :=
  (emitAndReturn_keeps bs s).1

@[simp] theorem emitAndReturn_parser (bs : List Byte) (s : State) : (emitAndReturn bs s).parser = s.parser :=
  (emitAndReturn_keeps bs s).2.1

@[simp] theorem emitAndReturn_device (bs : List Byte) (s : State) : (emitAndReturn bs s).device = s.device :=
  (emitAndReturn_keeps bs s).2.2.1

@[simp] theorem emitAndReturn_pending (bs : List Byte) (s : State) : (emitAndReturn bs s).pending = s.pending :=
  (emitAndReturn_keeps bs s).2.2.2

/-- What it returns: `Ok`, or the failure of the sink. -/
theorem emitAndReturn_returned (bs : List Byte) (s : State) :
    (emitAndReturn bs s).returned = s.returned ++ [.ok] ∨
      ∃ e, (emitAndReturn bs s).returned = s.returned ++ [.error (.sinkError e)] := by
  have := (emit_keeps bs s).2.2.2.2
  simp only [emitAndReturn]
  rcases hh : emit bs s with ⟨t, _ | e⟩
  · left; rw [hh] at this; simp at this; simp [this]
  · right; rw [hh] at this; simp at this; exact ⟨e, by simp [this]⟩

/-- What it puts on the wire: a prefix of the bytes. -/
theorem emitAndReturn_tx (bs : List Byte) (s : State) : ∃ k, (emitAndReturn bs s).tx = s.tx ++ bs.take k := by
  rcases answers_cases s bs.length with h | ⟨k, e, hk, hok, hf⟩
  · exact ⟨bs.length, by rw [emitAndReturn_ok bs s h]; simp⟩
  · exact ⟨k, by rw [emitAndReturn_fail bs s k e hk hok hf]⟩

end Sys2Proof.Machine
end

