-- ==== Sys2Proof/Laws/Feed.lean ====
section
/-! SUPPORT. Everything `feed` can do, a lemma for each branch of its selection (R101), and what the `feed` of a whole
sysex frame does. -/

namespace Sys2Proof.Machine

@[simp] theorem andThen_next (s : State) (f : State → Host.Outcome State Fault Refusal) :
    andThen (.next s) f = f s := rfl

@[simp] theorem andThen_fault (r : Fault) (f : State → Host.Outcome State Fault Refusal) :
    andThen (.fault r) f = .fault r := rfl

@[simp] theorem andThen_refused (r : Refusal) (f : State → Host.Outcome State Fault Refusal) :
    andThen (.refused r) f = .refused r := rfl

@[simp] theorem feedAll_nil (s : State) : feedAll [] s = .next s := rfl

theorem feedAll_cons (b : Byte) (bs : List Byte) (s : State) : feedAll (b :: bs) s = andThen (feed b s) (feedAll bs) :=
  rfl

@[simp] theorem feedAll_one (b : Byte) (s : State) : feedAll [b] s = feed b s := by
  simp only [feedAll]
  cases feed b s <;> rfl

theorem feedAll_append (as bs : List Byte) (s : State) :
    feedAll (as ++ bs) s = andThen (feedAll as s) (feedAll bs) := by
  induction as generalizing s with
  | nil => rfl
  | cons a as ih =>
    simp only [List.cons_append, feedAll]
    cases feed a s with
    | next t => simpa using ih t
    | fault r => rfl
    | refused r => rfl

/-! Outside a sysex frame. -/

theorem feed_idle (b : Byte) (s : State) (hx : s.parser.inSysex = false) (hp : s.parser.pendingByteCount = 0) :
    feed b s = .next ((s.withParser (idleDispatch b s.parser)).respond .nothing) := by
  simp [feed, hx, hp]

/-- R109, then R102. -/
theorem feed_abandon (b : Byte) (s : State) (hx : s.parser.inSysex = false) (hp : s.parser.pendingByteCount > 0)
    (hb : Wire.isData b = false) :
    feed b s = .next ((s.withParser (idleDispatch b s.parser.toIdle)).respond .nothing) := by
  simp [feed, hx, hp, hb]

theorem feed_data (b : Byte) (s : State) (hx : s.parser.inSysex = false) (hp : s.parser.pendingByteCount > 0)
    (hb : Wire.isData b = true) : feed b s = multiData b s := by
  simp [feed, hx, hp, hb]

/-! Inside a sysex frame. -/

theorem feed_discard (b : Byte) (s : State) (hx : s.parser.inSysex = true) (ho : s.parser.overflowed = true) :
    feed b s = sysexDiscard b s := by
  simp [feed, hx, ho]

theorem feed_end (s : State) (hx : s.parser.inSysex = true) (ho : s.parser.overflowed = false) :
    feed Wire.endSysex s = sysexEnd s := by
  simp [feed, hx, ho]

theorem feed_append (b : Byte) (s : State) (hx : s.parser.inSysex = true) (ho : s.parser.overflowed = false)
    (hb : b ≠ Wire.endSysex) (hl : s.parser.sysexLength < Config.sysexCap) :
    feed b s = .next ((s.withParser { s.parser with
      sysexBuffer := Memory.put s.parser.sysexBuffer s.parser.sysexLength b
      sysexLength := s.parser.sysexLength + 1 }).respond .nothing) := by
  simp only [feed, hx, ho, if_true, if_neg hb, if_pos hl, sysexAppend, Memory.write_of_lt hl, Bool.false_eq_true,
    if_false]

theorem feed_overflow (b : Byte) (s : State) (hx : s.parser.inSysex = true) (ho : s.parser.overflowed = false)
    (hb : b ≠ Wire.endSysex) (hl : Config.sysexCap ≤ s.parser.sysexLength) :
    feed b s = .next (raiseError .overflowError (s.withParser s.parser.setOverflow)) := by
  simp only [feed, hx, ho, if_true, if_neg hb, if_neg (Nat.not_lt.2 hl), sysexOverflow, Bool.false_eq_true, if_false]

/-! What the command bytes do in IDLE (R102). -/

theorem channelByte_and (cmd : Byte) (n : Nibble) (h : cmd &&& 0x0F = 0) : Wire.channelByte cmd n &&& 0xF0 = cmd := by
  simp only [Wire.channelByte]
  revert h n cmd
  decide +revert

theorem lowNibble_channelByte (cmd : Byte) (n : Nibble) (h : cmd &&& 0x0F = 0) :
    Wire.lowNibble (Wire.channelByte cmd n) = n := by
  simp only [Wire.channelByte, Wire.lowNibble]
  revert h n cmd
  decide +revert

theorem isData_dataByte (d : Data7) : Wire.isData (Wire.dataByte d) = true := by
  revert d; decide

theorem low7_dataByte (d : Data7) : Wire.low7 (Wire.dataByte d) = d := by
  revert d; decide

/-- The parser when the first byte of a new frame is dispatched: a message in progress is abandoned first (R109). -/
def ParserState.atFrameStart (p : ParserState) : ParserState := if p.pendingByteCount > 0 then p.toIdle else p

theorem ParserState.atFrameStart_cases (p : ParserState) : p.atFrameStart = p.toIdle ∨ p.atFrameStart = p := by
  simp only [ParserState.atFrameStart]
  split <;> simp

@[simp] theorem ParserState.atFrameStart_toIdle (p : ParserState) : p.atFrameStart.toIdle = p.toIdle := by
  simp only [ParserState.atFrameStart]
  split <;> rfl

@[simp] theorem ParserState.atFrameStart_sysexBuffer (p : ParserState) :
    p.atFrameStart.sysexBuffer = p.sysexBuffer := by
  simp only [ParserState.atFrameStart]
  split <;> rfl

theorem ParserState.atFrameStart_inSysex (p : ParserState) (hx : p.inSysex = false) :
    p.atFrameStart.inSysex = false := by
  simp only [ParserState.atFrameStart]
  split
  · rfl
  · exact hx

/-- A command byte outside a sysex frame, in IDLE or AWAITING_MULTIBYTE (R102, R109). -/
theorem feed_command (b : Byte) (s : State) (hx : s.parser.inSysex = false) (hb : Wire.isData b = false) :
    feed b s = .next ((s.withParser (idleDispatch b s.parser.atFrameStart)).respond .nothing) := by
  by_cases hp : s.parser.pendingByteCount > 0
  · rw [feed_abandon b s hx hp hb, ParserState.atFrameStart, if_pos hp]
  · rw [feed_idle b s hx (by omega), ParserState.atFrameStart, if_neg hp]

theorem isData_channelByte (cmd : Byte) (n : Nibble) (h : Wire.isData cmd = false) :
    Wire.isData (Wire.channelByte cmd n) = false := by
  simp only [Wire.channelByte]
  revert h n cmd
  decide +revert

theorem idleDispatch_digital (n : Nibble) (p : ParserState) :
    idleDispatch (Wire.channelByte Wire.digitalMessage n) p = startMessage .digital n p := by
  have h1 : (Wire.channelByte Wire.digitalMessage n).toNat < 0xF0 := by revert n; decide
  simp only [idleDispatch, if_pos h1, channelByte_and Wire.digitalMessage n (by decide),
    lowNibble_channelByte Wire.digitalMessage n (by decide), if_true]

theorem idleDispatch_analog (n : Nibble) (p : ParserState) :
    idleDispatch (Wire.channelByte Wire.analogMessage n) p = startMessage .analog n p := by
  have h1 : (Wire.channelByte Wire.analogMessage n).toNat < 0xF0 := by revert n; decide
  simp only [idleDispatch, if_pos h1, channelByte_and Wire.analogMessage n (by decide),
    lowNibble_channelByte Wire.analogMessage n (by decide), if_true]
  rw [if_neg (by decide)]

theorem idleDispatch_version (p : ParserState) :
    idleDispatch Wire.reportVersion p = startMessage .version p.activeChannel p := by
  simp [idleDispatch]

theorem idleDispatch_startSysex (p : ParserState) : idleDispatch Wire.startSysex p = p.openSysex := by
  simp [idleDispatch]

/-- The bytes `IdleDispatch` reacts to (R102); all others are ignored (R107). -/
def startsFrame (b : Byte) : Bool :=
  b &&& 0xF0 = Wire.digitalMessage || b &&& 0xF0 = Wire.analogMessage || b = Wire.reportVersion
    || b = Wire.startSysex

theorem idleDispatch_ignored (b : Byte) (p : ParserState) (h : startsFrame b = false) : idleDispatch b p = p := by
  have h1 : (if b.toNat < 0xF0 then b &&& 0xF0 else b) ≠ Wire.digitalMessage := by revert b; decide
  have h2 : (if b.toNat < 0xF0 then b &&& 0xF0 else b) ≠ Wire.analogMessage := by revert b; decide
  have h3 : (if b.toNat < 0xF0 then b &&& 0xF0 else b) ≠ Wire.reportVersion := by revert b; decide
  have h4 : (if b.toNat < 0xF0 then b &&& 0xF0 else b) ≠ Wire.startSysex := by revert b; decide
  simp only [idleDispatch, if_neg h1, if_neg h2, if_neg h3, if_neg h4]

/-! The two data bytes of a multi-byte message. -/

/-- The buffer after both data bytes of a message: the first at index 1, the second at index 0 (R51, R108). -/
def messageBuffer (m : List Host.Cell) (l h : Data7) : List Host.Cell :=
  Memory.put (Memory.put m 1 (Wire.dataByte l)) 0 (Wire.dataByte h)

theorem messageBuffer_wf {m : List Host.Cell} (hm : Memory.wf m = true) (l h : Data7) :
    Memory.wf (messageBuffer m l h) = true :=
  Memory.put_wf (by decide) (Memory.put_wf (by decide) hm)

theorem messageBuffer_get {m : List Host.Cell} (hm : Memory.wf m = true) (l h : Data7) (a : Nat) :
    Memory.get (messageBuffer m l h) a =
      if a = 0 then Wire.dataByte h else if a = 1 then Wire.dataByte l else Memory.get m a := by
  rw [messageBuffer, Memory.get_put (Memory.put_wf (by decide) hm), Memory.get_put hm]

/-- The first data byte (R108). -/
theorem feed_firstData (d : Data7) (s : State) (hx : s.parser.inSysex = false) (hp : s.parser.pendingByteCount = 2) :
    feed (Wire.dataByte d) s = .next ((s.withParser { s.parser with
      pendingByteCount := 1
      sysexBuffer := Memory.put s.parser.sysexBuffer 1 (Wire.dataByte d) }).respond .nothing) := by
  rw [feed_data _ s hx (by omega) (isData_dataByte d)]
  simp only [multiData, hp]
  rw [Memory.write_of_lt (by decide)]
  simp

/-- The second data byte completes the message (R108). -/
theorem feed_lastData (d : Data7) (s : State) (hx : s.parser.inSysex = false) (hp : s.parser.pendingByteCount = 1)
    (dev : DeviceState) (r : Response)
    (hc : completeMessage { s.parser with
      pendingByteCount := 0
      sysexBuffer := Memory.put s.parser.sysexBuffer 0 (Wire.dataByte d) } s.device = some (dev, r)) :
    feed (Wire.dataByte d) s = .next (((s.withParser { s.parser.toIdle with
      sysexBuffer := Memory.put s.parser.sysexBuffer 0 (Wire.dataByte d) }).withDevice dev).respond r) := by
  rw [feed_data _ s hx (by omega) (isData_dataByte d)]
  simp only [multiData, hp]
  rw [Memory.write_of_lt (by decide)]
  simp only [Nat.sub_self, Nat.lt_irrefl, gt_iff_lt, if_false, hc]
  rfl

/-- A whole multi-byte message outside a sysex frame: a started message of kind `cmd` and its two data bytes. -/
theorem feedAll_message (first : Byte) (l h : Data7) (cmd : ActiveCmd) (n : Nibble) (s : State)
    (hx : s.parser.inSysex = false) (hd : Wire.isData first = false)
    (hs : idleDispatch first s.parser.atFrameStart = startMessage cmd n s.parser.atFrameStart)
    (dev : DeviceState) (r : Response)
    (hc : completeMessage (startMessage cmd n { s.parser.atFrameStart with
        sysexBuffer := messageBuffer s.parser.sysexBuffer l h }) s.device = some (dev, r)) :
    feedAll [first, Wire.dataByte l, Wire.dataByte h] s =
      .next { s with
        parser := { s.parser.toIdle with sysexBuffer := messageBuffer s.parser.sysexBuffer l h }
        device := dev
        returned := s.returned ++ [.nothing, .nothing, r] } := by
  have hx' := s.parser.atFrameStart_inSysex hx
  rw [feedAll_cons, feed_command first s hx hd, hs, andThen_next, feedAll_cons,
    feed_firstData l _ (by simpa [startMessage] using hx') (by simp [startMessage, Config.multiByteLen]),
    andThen_next, feedAll_one, feed_lastData h _ (by simpa [startMessage] using hx') (by simp) dev r ?_]
  · simp [State.withParser, State.withDevice, State.respond, startMessage, messageBuffer, ParserState.toIdle]
  · rw [← hc]
    simp only [completeMessage, startMessage, messageBuffer, State.respond_parser, State.withParser_parser,
      State.respond_device, State.withParser_device, ParserState.atFrameStart_sysexBuffer]
    cases cmd <;> simp [completeDigital, completeAnalog, completeVersion, messageValue]

/-- The value two data bytes carry, `lo | (hi << 7)` (R77). -/
def value14 (l h : Data7) : Word14 := BitVec.ofNat 14 (l.toNat + 128 * h.toNat)

theorem messageValue_messageBuffer (p : ParserState) (m : List Host.Cell) (hm : Memory.wf m = true) (l h : Data7)
    (hp : p.sysexBuffer = messageBuffer m l h) : messageValue p = value14 l h := by
  simp only [messageValue, hp, messageBuffer_get hm, value14, Nat.shiftLeft_eq]
  congr 1
  simp [Wire.dataByte]
  omega

/-! A whole sysex frame. -/

/-- The buffer with `bs` stored from index `a` on. -/
def Memory.putAll (m : List Host.Cell) : Nat → List Byte → List Host.Cell
  | _, [] => m
  | a, b :: bs => Memory.putAll (Memory.put m a b) (a + 1) bs

theorem Memory.putAll_wf {m : List Host.Cell} (a : Nat) (bs : List Byte) (hcap : a + bs.length ≤ Config.sysexCap)
    (h : Memory.wf m = true) : Memory.wf (Memory.putAll m a bs) = true := by
  induction bs generalizing m a with
  | nil => exact h
  | cons b bs ih =>
    simp only [List.length_cons] at hcap
    exact ih (a + 1) (by omega) (Memory.put_wf (by omega) h)

theorem Memory.get_putAll {m : List Host.Cell} (a : Nat) (bs : List Byte) (hcap : a + bs.length ≤ Config.sysexCap)
    (h : Memory.wf m = true) (x : Nat) :
    Memory.get (Memory.putAll m a bs) x =
      if a ≤ x ∧ x < a + bs.length then bs.getD (x - a) 0 else Memory.get m x := by
  induction bs generalizing m a with
  | nil => simp [Memory.putAll]
  | cons b bs ih =>
    simp only [List.length_cons] at hcap ⊢
    rw [Memory.putAll, ih (a + 1) (by omega) (Memory.put_wf (by omega) h), Memory.get_put h]
    by_cases hx : x = a
    · subst hx
      simp
    · by_cases hin : a ≤ x ∧ x < a + (bs.length + 1)
      · rw [if_pos (by omega), if_pos hin]
        obtain ⟨k, rfl⟩ : ∃ k, x = a + 1 + k := ⟨x - (a + 1), by omega⟩
        rw [show a + 1 + k - (a + 1) = k by omega, show a + 1 + k - a = k + 1 by omega]
        simp
      · rw [if_neg (by omega), if_neg hx, if_neg hin]

/-- The payload bytes of an open frame (R113). -/
theorem feedAll_payload (bs : List Byte) (s : State) (hx : s.parser.inSysex = true)
    (ho : s.parser.overflowed = false) (hbs : ∀ b ∈ bs, b ≠ Wire.endSysex)
    (hcap : s.parser.sysexLength + bs.length ≤ Config.sysexCap) :
    feedAll bs s = .next { s with
      parser := { s.parser with
        sysexBuffer := Memory.putAll s.parser.sysexBuffer s.parser.sysexLength bs
        sysexLength := s.parser.sysexLength + bs.length }
      returned := s.returned ++ List.replicate bs.length .nothing } := by
  induction bs generalizing s with
  | nil => simp [Memory.putAll]
  | cons b bs ih =>
    simp only [List.length_cons] at hcap
    rw [feedAll_cons, feed_append b s hx ho (hbs b (by simp)) (by omega), andThen_next, ih]
    · simp [State.withParser, State.respond, Memory.putAll, Nat.add_assoc, Nat.add_comm 1, List.replicate_succ]
    · simpa using hx
    · simpa using ho
    · exact fun c hc => hbs c (by simp [hc])
    · simp; omega

/-- END_SYSEX on a buffer that holds `payload` (R116). -/
theorem sysexEnd_eq (payload : List Byte) (s : State) (hl : s.parser.sysexLength = payload.length)
    (hcap : payload.length ≤ Config.sysexCap)
    (hg : ∀ i (hi : i < payload.length), Memory.get s.parser.sysexBuffer i = payload[i]) :
    sysexEnd s = .next (((s.withParser s.parser.toIdle).withDevice (dispatch s.params payload s.device).1).respond
      (dispatch s.params payload s.device).2) := by
  simp only [sysexEnd, hl]
  rw [Memory.readRange_eq 0 (by simpa using hcap) (by simpa using hg)]

/-- `feed` of a whole sysex frame outside an open one (R106, R113, R116). -/
theorem feedFrame_eq (payload : List Byte) (s : State) (hx : s.parser.inSysex = false)
    (hm : Memory.wf s.parser.sysexBuffer = true) (hbs : ∀ b ∈ payload, b ≠ Wire.endSysex)
    (hcap : payload.length ≤ Config.sysexCap) :
    feedAll (Wire.startSysex :: (payload ++ [Wire.endSysex])) s = .next { s with
      parser := { s.parser.toIdle with sysexBuffer := Memory.putAll s.parser.sysexBuffer 0 payload }
      device := (dispatch s.params payload s.device).1
      returned := s.returned ++ List.replicate (payload.length + 1) .nothing ++
        [(dispatch s.params payload s.device).2] } := by
  rw [feedAll_cons, feed_command _ s hx (by decide), idleDispatch_startSysex, andThen_next, feedAll_append,
    feedAll_payload payload _ (by simp) (by simp) hbs (by simpa using hcap), andThen_next, feedAll_one,
    feed_end _ (by simp) (by simp), sysexEnd_eq payload _ (by simp) hcap ?_]
  · simp [State.withParser, State.withDevice, State.respond, ParserState.toIdle, ParserState.openSysex,
      List.replicate_succ]
  · intro i hi
    simp only [State.respond_parser, State.withParser_parser, ParserState.openSysex_sysexBuffer,
      ParserState.atFrameStart_sysexBuffer, ParserState.openSysex_sysexLength]
    rw [Memory.get_putAll 0 payload (by simpa using hcap) hm]
    simp [hi]

/-- Everything one `feed` that goes on can do, a case for each procedure of the selection (R101), with its guard. -/
inductive FeedCase (b : Byte) (s : State) : State → Prop
  | idle : s.parser.inSysex = false → s.parser.pendingByteCount = 0 →
      FeedCase b s ((s.withParser (idleDispatch b s.parser)).respond .nothing)
  | abandon : s.parser.inSysex = false → s.parser.pendingByteCount > 0 → Wire.isData b = false →
      FeedCase b s ((s.withParser (idleDispatch b s.parser.toIdle)).respond .nothing)
  | dataByte : s.parser.inSysex = false → s.parser.pendingByteCount > 1 → Wire.isData b = true →
      s.parser.pendingByteCount - 1 < Config.sysexCap →
      FeedCase b s ((s.withParser { s.parser with
        pendingByteCount := s.parser.pendingByteCount - 1
        sysexBuffer := Memory.put s.parser.sysexBuffer (s.parser.pendingByteCount - 1) b }).respond .nothing)
  | lastByte (d : DeviceState) (r : Response) : s.parser.inSysex = false → s.parser.pendingByteCount = 1 →
      Wire.isData b = true →
      completeMessage { s.parser with
        pendingByteCount := 0
        sysexBuffer := Memory.put s.parser.sysexBuffer 0 b } s.device = some (d, r) →
      FeedCase b s (((s.withParser { s.parser.toIdle with
        sysexBuffer := Memory.put s.parser.sysexBuffer 0 b }).withDevice d).respond r)
  | discardEnd : s.parser.inSysex = true → s.parser.overflowed = true → b = Wire.endSysex →
      FeedCase b s ((s.withParser s.parser.toIdle).respond .nothing)
  | discardStart : s.parser.inSysex = true → s.parser.overflowed = true → b = Wire.startSysex →
      FeedCase b s ((s.withParser { s.parser with overflowed := false, sysexLength := 0 }).respond .nothing)
  | discard : s.parser.inSysex = true → s.parser.overflowed = true → b ≠ Wire.endSysex → b ≠ Wire.startSysex →
      FeedCase b s (s.respond .nothing)
  | frameEnd (payload : List Byte) : s.parser.inSysex = true → s.parser.overflowed = false → b = Wire.endSysex →
      Memory.readRange s.parser.sysexBuffer 0 s.parser.sysexLength = some payload →
      FeedCase b s (((s.withParser s.parser.toIdle).withDevice (dispatch s.params payload s.device).1).respond
        (dispatch s.params payload s.device).2)
  | append : s.parser.inSysex = true → s.parser.overflowed = false → b ≠ Wire.endSysex →
      s.parser.sysexLength < Config.sysexCap →
      FeedCase b s ((s.withParser { s.parser with
        sysexBuffer := Memory.put s.parser.sysexBuffer s.parser.sysexLength b
        sysexLength := s.parser.sysexLength + 1 }).respond .nothing)
  | overflow : s.parser.inSysex = true → s.parser.overflowed = false → b ≠ Wire.endSysex →
      Config.sysexCap ≤ s.parser.sysexLength →
      FeedCase b s (raiseError .overflowError (s.withParser s.parser.setOverflow))

theorem feed_cases {b : Byte} {s t : State} (h : feed b s = .next t) : FeedCase b s t := by
  cases hx : s.parser.inSysex with
  | true =>
    cases ho : s.parser.overflowed with
    | true =>
      rw [feed_discard b s hx ho] at h
      simp only [sysexDiscard, Host.Outcome.next.injEq] at h
      subst h
      split
      · exact .discardEnd hx ho ‹_›
      · split
        · exact .discardStart hx ho ‹_›
        · exact .discard hx ho ‹_› ‹_›
    | false =>
      by_cases hb : b = Wire.endSysex
      · subst hb
        rw [feed_end s hx ho] at h
        simp only [sysexEnd] at h
        split at h
        · simp at h
        · simp only [Host.Outcome.next.injEq] at h
          subst h
          exact .frameEnd _ hx ho rfl ‹_›
      · by_cases hl : s.parser.sysexLength < Config.sysexCap
        · rw [feed_append b s hx ho hb hl, Host.Outcome.next.injEq] at h
          subst h
          exact .append hx ho hb hl
        · rw [feed_overflow b s hx ho hb (by omega), Host.Outcome.next.injEq] at h
          subst h
          exact .overflow hx ho hb (by omega)
  | false =>
    by_cases hp : s.parser.pendingByteCount > 0
    · cases hb : Wire.isData b with
      | false =>
        rw [feed_abandon b s hx hp hb, Host.Outcome.next.injEq] at h
        subst h
        exact .abandon hx hp hb
      | true =>
        rw [feed_data b s hx hp hb] at h
        simp only [multiData] at h
        split at h
        · simp at h
        · rename_i buffer hw
          by_cases hl : s.parser.pendingByteCount - 1 < Config.sysexCap
          · rw [Memory.write_of_lt hl, Option.some.injEq] at hw
            subst hw
            split at h
            · simp only [Host.Outcome.next.injEq] at h
              subst h
              exact .dataByte hx (by omega) hb hl
            · have h1 : s.parser.pendingByteCount = 1 := by omega
              simp only [h1] at h
              split at h
              · simp at h
              · rename_i d r hc
                simp only [Host.Outcome.next.injEq] at h
                subst h
                exact .lastByte d r hx h1 hb hc
          · simp [Memory.write, hl] at hw
    · rw [feed_idle b s hx (by omega), Host.Outcome.next.injEq] at h
      subst h
      exact .idle hx (by omega)

end Sys2Proof.Machine
end

