-- ==== Sys2Proof/Laws/Operands.lean ====
section
/-! SUPPORT. The operand checks on operands in range and out of it, and the bytes and registers an operand names. -/

namespace Sys2Proof.Machine

theorem pinOperand_some {v : Int} (h : 0 ≤ v ∧ v ≤ 127) : pinOperand v = some (BitVec.ofInt 7 v) := by
  simp [pinOperand, h]

theorem pinOperand_none {v : Int} (h : ¬(0 ≤ v ∧ v ≤ 127)) : pinOperand v = none := by
  simp only [pinOperand, if_neg h]

theorem nibbleOperand_some {v : Int} (h : 0 ≤ v ∧ v ≤ 15) : nibbleOperand v = some (BitVec.ofInt 4 v) := by
  simp [nibbleOperand, h]

theorem nibbleOperand_none {v : Int} (h : ¬(0 ≤ v ∧ v ≤ 15)) : nibbleOperand v = none := by
  simp only [nibbleOperand, if_neg h]

theorem valueOperand_some {max : Nat} {v : Int} (h : 0 ≤ v ∧ v ≤ max) :
    valueOperand max v = some (BitVec.ofInt 8 v) := by
  simp only [valueOperand, if_pos h]

theorem valueOperand_none {max : Nat} {v : Int} (h : ¬(0 ≤ v ∧ v ≤ max)) : valueOperand max v = none := by
  simp only [valueOperand, if_neg h]

theorem levelOperand_some {v : Int} (h : v = 0 ∨ v = 1) : levelOperand v = some (decide (v = 1)) := by
  rcases h with rfl | rfl <;> rfl

theorem levelOperand_none {v : Int} (h : ¬(v = 0 ∨ v = 1)) : levelOperand v = none := by
  rw [not_or] at h
  simp [levelOperand, h]

theorem stepperOperand_some {p : Params} {v : Int} (h : 0 ≤ v ∧ v < p.nSteppers) :
    stepperOperand p v = some (BitVec.ofInt 7 v) := by
  simp only [stepperOperand, if_pos h]

theorem stepperOperand_none {p : Params} {v : Int} (h : ¬(0 ≤ v ∧ v < p.nSteppers)) : stepperOperand p v = none := by
  simp only [stepperOperand, if_neg h]

theorem toNat_ofInt7 {v : Int} (h : 0 ≤ v ∧ v ≤ 127) : ((BitVec.ofInt 7 v).toNat : Int) = v := by
  rw [BitVec.toNat_ofInt]; omega

theorem dataByte_ofInt {v : Int} (h : 0 ≤ v ∧ v ≤ 127) : Wire.dataByte (BitVec.ofInt 7 v) = BitVec.ofInt 8 v := by
  apply BitVec.eq_of_toNat_eq
  have := toNat_ofInt7 h
  simp only [Wire.dataByte, BitVec.toNat_setWidth, BitVec.toNat_ofInt]
  omega

theorem eq_ofInt7_iff {v : Int} (h : 0 ≤ v ∧ v ≤ 127) (q : Data7) : q = BitVec.ofInt 7 v ↔ (q.toNat : Int) = v := by
  rw [← BitVec.toNat_inj]; have := toNat_ofInt7 h; omega

theorem portOfPin_ofInt {v : Int} (h : 0 ≤ v ∧ v ≤ 127) : portOfPin (BitVec.ofInt 7 v) = BitVec.ofInt 4 (v / 8) := by
  apply BitVec.eq_of_toNat_eq
  have := toNat_ofInt7 h
  simp only [portOfPin, BitVec.toNat_setWidth, BitVec.toNat_ushiftRight, Nat.shiftRight_eq_div_pow]
  simp only [BitVec.toNat_ofInt] at this ⊢
  omega

theorem bitOfPin_ofInt {v : Int} (h : 0 ≤ v ∧ v ≤ 127) (k : Nat) (hk : k < 16) :
    (bitOfPin (BitVec.ofInt 7 v)).getLsbD k = decide ((k : Int) = v % 8) := by
  have := toNat_ofInt7 h
  have e : ((BitVec.ofInt 7 v) &&& 7).toNat = (v % 8).toNat := by
    rw [BitVec.toNat_and]
    have := Nat.and_two_pow_sub_one_eq_mod ((BitVec.ofInt 7 v).toNat) 3
    simp at this ⊢
    omega
  simp only [bitOfPin, BitVec.getLsbD_shiftLeft, e, hk, decide_true, Bool.true_and]
  have h1 : (1 : Word16) = 1#16 := rfl
  rw [h1, BitVec.getLsbD_one]
  have : 0 ≤ v % 8 := by omega
  by_cases hh : (k : Int) = v % 8
  · simp [hh]
    omega
  · simp [hh]
    omega

theorem channelByte_pin {v : Int} (c : Byte) (h : 0 ≤ v ∧ v ≤ 127) :
    Wire.channelByte c (channelOfPin (BitVec.ofInt 7 v)) = c ||| BitVec.ofInt 8 (v % 16) := by
  simp only [Wire.channelByte, channelOfPin]
  congr 1
  apply BitVec.eq_of_toNat_eq
  simp only [BitVec.toNat_setWidth, BitVec.toNat_ofInt]; omega

/-- Bits 14 and 15 of a port stay 0 (R29). -/
theorem writtenPort_bits (w : Word16) (p : Data7) (l : Bool) (h : w.toNat < 2 ^ 14) :
    (writtenPort w p l).toNat < 2 ^ 14 := by
  have hb : (bitOfPin p).toNat < 2^14 := by revert p; decide
  simp only [writtenPort]
  split
  · rw [BitVec.toNat_or]; exact Nat.or_lt_two_pow h hb
  · rw [BitVec.toNat_and]; exact lt_of_le_of_lt Nat.and_le_left h

end Sys2Proof.Machine
end

