-- ==== Sys2Proof/Laws/PerInstr.lean ====
section
/-! SUPPORT. Per instruction: a well-formed instruction whose row applies in a context decodes from its own words, with
every operand at every value. -/

namespace Sys2Proof.Laws.RoundTrip

def Statement (i : Instr) : Prop :=
  ∀ c, i.wellFormed = true → i.appliesIn c = true → decode c (encode i) = .instr i []

theorem digitalMessageRx (f : ChannelFrame) : Statement (.digitalMessageRx f) := by
  intro c _ hc
  cases f with
  | whole n l h =>
    obtain rfl : c = .idle := by simpa [Instr.appliesIn, ChannelFrame.appliesIn] using hc
    simp only [encode, channelFrameBytes, decode, decodeRx, decodeIdle_digital, decodeChannelFrame_whole]
  | first n =>
    obtain rfl : c = .idle := by simpa [Instr.appliesIn, ChannelFrame.appliesIn] using hc
    simp only [encode, channelFrameBytes, decode, decodeRx, decodeIdle_digital, decodeChannelFrame]
  | data d =>
    obtain rfl : c = .awaiting .digital := by simpa [Instr.appliesIn, ChannelFrame.appliesIn] using hc
    simp only [encode, channelFrameBytes, decode, decodeRx, decodeAwaiting, isData_dataByte', low7_dataByte', if_true]

theorem analogMessageRx (f : ChannelFrame) : Statement (.analogMessageRx f) := by
  intro c _ hc
  cases f with
  | whole n l h =>
    obtain rfl : c = .idle := by simpa [Instr.appliesIn, ChannelFrame.appliesIn] using hc
    simp only [encode, channelFrameBytes, decode, decodeRx, decodeIdle_analog, decodeChannelFrame_whole]
  | first n =>
    obtain rfl : c = .idle := by simpa [Instr.appliesIn, ChannelFrame.appliesIn] using hc
    simp only [encode, channelFrameBytes, decode, decodeRx, decodeIdle_analog, decodeChannelFrame]
  | data d =>
    obtain rfl : c = .awaiting .analog := by simpa [Instr.appliesIn, ChannelFrame.appliesIn] using hc
    simp only [encode, channelFrameBytes, decode, decodeRx, decodeAwaiting, isData_dataByte', low7_dataByte', if_true]

theorem reportVersionRx (f : VersionFrame) : Statement (.reportVersionRx f) := by
  intro c _ hc
  cases f with
  | whole m v =>
    obtain rfl : c = .idle := by simpa [Instr.appliesIn, VersionFrame.appliesIn] using hc
    simp only [encode, versionFrameBytes, decode, decodeRx, decodeIdle_version, decodeVersionFrame_whole]
  | first =>
    obtain rfl : c = .idle := by simpa [Instr.appliesIn, VersionFrame.appliesIn] using hc
    rfl
  | data d =>
    obtain rfl : c = .awaiting .version := by simpa [Instr.appliesIn, VersionFrame.appliesIn] using hc
    simp only [encode, versionFrameBytes, decode, decodeRx, decodeAwaiting, isData_dataByte', low7_dataByte', if_true]

theorem startSysexRx : Statement .startSysexRx := by
  intro c _ hc
  cases c <;> simp [Instr.appliesIn] at hc <;> rfl

theorem endSysexRx : Statement .endSysexRx := by
  intro c _ hc
  cases c <;> simp [Instr.appliesIn] at hc <;> rfl

theorem sysexPayloadByteRx (b : Byte) : Statement (.sysexPayloadByteRx b) := by
  intro c hw hc
  have hb : b ≠ Wire.endSysex := of_decide_eq_true hw
  cases c with
  | inSysex => simp only [encode, decode, decodeRx, if_neg hb]
  | overflowed =>
    have hs : b ≠ Wire.startSysex := by
      simp only [Instr.appliesIn] at hc
      exact of_decide_eq_true (by simpa using hc)
    simp only [encode, decode, decodeRx, if_neg hb, if_neg hs]
  | idle => simp [Instr.appliesIn] at hc
  | awaiting cmd => simp [Instr.appliesIn] at hc

theorem abandonMultibyteRx (b : Data7) : Statement (.abandonMultibyteRx b) := by
  have h1 : Wire.isData (0x80 ||| Wire.dataByte b) = false := by revert b; decide
  have h2 : Wire.low7 (0x80 ||| Wire.dataByte b) = b := by revert b; decide
  intro c _ hc
  cases c with
  | awaiting cmd => simp only [encode, decode, decodeRx, decodeAwaiting, h1, h2]; rfl
  | idle => simp [Instr.appliesIn] at hc
  | inSysex => simp [Instr.appliesIn] at hc
  | overflowed => simp [Instr.appliesIn] at hc

theorem strayDataRx (d : Data7) : Statement (.strayDataRx d) := by
  intro c _ hc
  cases c with
  | idle => revert d; decide
  | awaiting cmd =>
    obtain rfl : cmd = .none := by simpa [Instr.appliesIn] using hc
    revert d; decide
  | inSysex => simp [Instr.appliesIn] at hc
  | overflowed => simp [Instr.appliesIn] at hc

theorem unassigned8xRx (n : Nibble) : Statement (.unassigned8xRx n) := by
  intro c _ hc
  obtain rfl : c = .idle := by simpa [Instr.appliesIn] using hc
  revert n; decide

theorem reportAnalogRx (n : Nibble) : Statement (.reportAnalogRx n) := by
  intro c _ hc
  obtain rfl : c = .idle := by simpa [Instr.appliesIn] using hc
  revert n; decide

theorem reportDigitalRx (n : Nibble) : Statement (.reportDigitalRx n) := by
  intro c _ hc
  obtain rfl : c = .idle := by simpa [Instr.appliesIn] using hc
  revert n; decide

theorem unassignedAxBxRx (x : Bool) (n : Nibble) : Statement (.unassignedAxBxRx x n) := by
  intro c _ hc
  obtain rfl : c = .idle := by simpa [Instr.appliesIn] using hc
  revert x n; decide

theorem unassignedF1Rx : Statement .unassignedF1Rx := by
  intro c _ hc
  obtain rfl : c = .idle := by simpa [Instr.appliesIn] using hc
  rfl

theorem unassignedF2Rx : Statement .unassignedF2Rx := by
  intro c _ hc
  obtain rfl : c = .idle := by simpa [Instr.appliesIn] using hc
  rfl

theorem unassignedF3Rx : Statement .unassignedF3Rx := by
  intro c _ hc
  obtain rfl : c = .idle := by simpa [Instr.appliesIn] using hc
  rfl

theorem setPinModeRx : Statement .setPinModeRx := by
  intro c _ hc
  obtain rfl : c = .idle := by simpa [Instr.appliesIn] using hc
  rfl

theorem unassignedF5Rx : Statement .unassignedF5Rx := by
  intro c _ hc
  obtain rfl : c = .idle := by simpa [Instr.appliesIn] using hc
  rfl

theorem unassignedF6Rx : Statement .unassignedF6Rx := by
  intro c _ hc
  obtain rfl : c = .idle := by simpa [Instr.appliesIn] using hc
  rfl

theorem unassignedF8Rx : Statement .unassignedF8Rx := by
  intro c _ hc
  obtain rfl : c = .idle := by simpa [Instr.appliesIn] using hc
  rfl

theorem unassignedFARx : Statement .unassignedFARx := by
  intro c _ hc
  obtain rfl : c = .idle := by simpa [Instr.appliesIn] using hc
  rfl

theorem unassignedFBRx : Statement .unassignedFBRx := by
  intro c _ hc
  obtain rfl : c = .idle := by simpa [Instr.appliesIn] using hc
  rfl

theorem unassignedFCRx : Statement .unassignedFCRx := by
  intro c _ hc
  obtain rfl : c = .idle := by simpa [Instr.appliesIn] using hc
  rfl

theorem unassignedFDRx : Statement .unassignedFDRx := by
  intro c _ hc
  obtain rfl : c = .idle := by simpa [Instr.appliesIn] using hc
  rfl

theorem unassignedFERx : Statement .unassignedFERx := by
  intro c _ hc
  obtain rfl : c = .idle := by simpa [Instr.appliesIn] using hc
  rfl

theorem systemResetRx : Statement .systemResetRx := by
  intro c _ hc
  obtain rfl : c = .idle := by simpa [Instr.appliesIn] using hc
  rfl

theorem emptySysexRx : Statement .emptySysexRx := by
  intro c _ hc
  obtain rfl : c = .idle := by simpa [Instr.appliesIn] using hc
  exact decode_sysexRow rfl (by simp) (by simp) rfl

theorem stepperMoveCompleteRx (args : List Byte) : Statement (.stepperMoveCompleteRx args) := by
  intro c hw hc
  obtain rfl : c = .idle := by simpa [Instr.appliesIn] using hc
  obtain ⟨h1, h2⟩ := tailOk_iff.1 hw
  refine decode_sysexRow rfl ?_ (by simp; omega) rfl
  intro b hb
  rcases List.mem_cons.1 hb with rfl | hb
  · decide
  · rcases List.mem_cons.1 hb with rfl | hb
    · decide
    · exact h1 b hb

theorem stepperRequestOtherRx (args : List Byte) : Statement (.stepperRequestOtherRx args) := by
  intro c hw hc
  obtain rfl : c = .idle := by simpa [Instr.appliesIn] using hc
  simp only [Instr.wellFormed, Bool.and_eq_true, decide_eq_true_eq] at hw
  refine decode_subCommandRow rfl (by decide) hw.1 ?_
  cases args with
  | nil => rfl
  | cons op more =>
    have hop : op ≠ Wire.moveComplete := by simpa using hw.2
    simp only [classifyPayload, if_true, if_neg hop]

theorem unknownSysexRx (sub : Byte) (args : List Byte) : Statement (.unknownSysexRx sub args) := by
  intro c hw hc
  obtain rfl : c = .idle := by simpa [Instr.appliesIn] using hc
  simp only [Instr.wellFormed, Bool.and_eq_true, decide_eq_true_eq, Bool.not_eq_true', ne_eq] at hw
  obtain ⟨⟨h1, h2⟩, h3⟩ := hw
  refine decode_subCommandRow rfl h2 h1 ?_
  simp only [Wire.namedSubCommands, List.contains_eq_mem, List.mem_cons, List.not_mem_nil, or_false,
    decide_eq_false_iff_not, not_or] at h3
  simp only [classifyPayload, h3, if_false]

theorem analogMappingResponseRx (args : List Byte) : Statement (.analogMappingResponseRx args) := by
  intro c hw hc
  obtain rfl : c = .idle := by simpa [Instr.appliesIn] using hc
  exact decode_subCommandRow rfl (by decide) hw rfl

theorem extensionReplyRx (args : List Byte) : Statement (.extensionReplyRx args) := by
  intro c hw hc
  obtain rfl : c = .idle := by simpa [Instr.appliesIn] using hc
  exact decode_subCommandRow rfl (by decide) hw rfl

theorem analogMappingQueryRx (args : List Byte) : Statement (.analogMappingQueryRx args) := by
  intro c hw hc
  obtain rfl : c = .idle := by simpa [Instr.appliesIn] using hc
  exact decode_subCommandRow rfl (by decide) hw rfl

theorem capabilityQueryRx (args : List Byte) : Statement (.capabilityQueryRx args) := by
  intro c hw hc
  obtain rfl : c = .idle := by simpa [Instr.appliesIn] using hc
  exact decode_subCommandRow rfl (by decide) hw rfl

theorem capabilityResponseRx (args : List Byte) : Statement (.capabilityResponseRx args) := by
  intro c hw hc
  obtain rfl : c = .idle := by simpa [Instr.appliesIn] using hc
  exact decode_subCommandRow rfl (by decide) hw rfl

theorem pinStateQueryRx (args : List Byte) : Statement (.pinStateQueryRx args) := by
  intro c hw hc
  obtain rfl : c = .idle := by simpa [Instr.appliesIn] using hc
  exact decode_subCommandRow rfl (by decide) hw rfl

theorem pinStateResponseRx (args : List Byte) : Statement (.pinStateResponseRx args) := by
  intro c hw hc
  obtain rfl : c = .idle := by simpa [Instr.appliesIn] using hc
  exact decode_subCommandRow rfl (by decide) hw rfl

theorem extendedAnalogRx (args : List Byte) : Statement (.extendedAnalogRx args) := by
  intro c hw hc
  obtain rfl : c = .idle := by simpa [Instr.appliesIn] using hc
  exact decode_subCommandRow rfl (by decide) hw rfl

theorem servoConfigRx (args : List Byte) : Statement (.servoConfigRx args) := by
  intro c hw hc
  obtain rfl : c = .idle := by simpa [Instr.appliesIn] using hc
  exact decode_subCommandRow rfl (by decide) hw rfl

theorem stringDataRx (args : List Byte) : Statement (.stringDataRx args) := by
  intro c hw hc
  obtain rfl : c = .idle := by simpa [Instr.appliesIn] using hc
  exact decode_subCommandRow rfl (by decide) hw rfl

theorem extensionRequestRx (args : List Byte) : Statement (.extensionRequestRx args) := by
  intro c hw hc
  obtain rfl : c = .idle := by simpa [Instr.appliesIn] using hc
  exact decode_subCommandRow rfl (by decide) hw rfl

theorem extensionConfigRx (args : List Byte) : Statement (.extensionConfigRx args) := by
  intro c hw hc
  obtain rfl : c = .idle := by simpa [Instr.appliesIn] using hc
  exact decode_subCommandRow rfl (by decide) hw rfl

theorem reportFirmwareRx (args : List Byte) : Statement (.reportFirmwareRx args) := by
  intro c hw hc
  obtain rfl : c = .idle := by simpa [Instr.appliesIn] using hc
  exact decode_subCommandRow rfl (by decide) hw rfl

theorem samplingIntervalRx (args : List Byte) : Statement (.samplingIntervalRx args) := by
  intro c hw hc
  obtain rfl : c = .idle := by simpa [Instr.appliesIn] using hc
  exact decode_subCommandRow rfl (by decide) hw rfl

theorem setPinMode (pin mode : Int) : Statement (.setPinMode pin mode) := fun _ _ _ => rfl

theorem digitalWrite (pin value : Int) : Statement (.digitalWrite pin value) := fun _ _ _ => rfl

theorem analogWrite (pin value : Int) : Statement (.analogWrite pin value) := fun _ _ _ => rfl

theorem servoWrite (pin value : Int) : Statement (.servoWrite pin value) := fun _ _ _ => rfl

theorem sendSysex (payload : List Byte) : Statement (.sendSysex payload) := fun _ _ _ => rfl

theorem reportAnalog (channel : Int) (enable : Bool) : Statement (.reportAnalog channel enable) := fun _ _ _ => rfl

theorem reportDigital (port : Int) (enable : Bool) : Statement (.reportDigital port enable) := fun _ _ _ => rfl

theorem stepperStep (index steps : Int) : Statement (.stepperStep index steps) := fun _ _ _ => rfl

theorem reset : Statement .reset := fun _ _ _ => rfl

theorem split14 (v : Int) : Statement (.split14 v) := fun _ _ _ => rfl

theorem join14 (lo hi : Int) : Statement (.join14 lo hi) := fun _ _ _ => rfl

theorem encodeSigned32 (value : Int) : Statement (.encodeSigned32 value) := fun _ _ _ => rfl

theorem decodeSigned32 (b0 b1 b2 b3 b4 : Byte) : Statement (.decodeSigned32 b0 b1 b2 b3 b4) := fun _ _ _ => rfl

theorem encodeCustomFloat (value : RealOperand) : Statement (.encodeCustomFloat value) := fun _ _ _ => rfl

theorem pack (sign sig ef : Int) : Statement (.pack sign sig ef) := fun _ _ _ => rfl

theorem decodeCustomFloat (b0 b1 b2 b3 : Byte) : Statement (.decodeCustomFloat b0 b1 b2 b3) := fun _ _ _ => rfl

end Sys2Proof.Laws.RoundTrip
end

