-- ==== Sys2Proof/Laws/Step.lean ====
section
/-! SUPPORT. What `step` runs for each kind of transaction at the head of `pending`, and runs of several steps. -/

namespace Sys2Proof.Machine

theorem step_feed {s : State} {bs rest : List Byte} {queue : List Transaction} {i : Instr}
    (hp : s.pending = .feed bs :: queue) (hd : decodeRx s.parser.context bs = .instr i rest) :
    step s = exec i (s.begin (stillPending rest queue)) := by
  simp only [step, fetch, hp, decode, hd]

theorem step_call {s : State} {c : Call} {queue : List Transaction} (hp : s.pending = .call c :: queue) :
    step s = exec (decodeCall c) (s.begin queue) := by
  simp only [step, fetch, hp]

/-- The value of a codec function, or the one error (R180). -/
theorem returnValue_eq (v : Option Response) (s : State) :
    returnValue v s = .next (s.respond (v.getD (.error .invalidArgument))) := by
  cases v <;> rfl

/-- Every call is answered with one result, in every state; the parameters and the pending transactions stay. -/
theorem exec_call (c : Call) (s : State) :
    ∃ t r, exec (decodeCall c) s = .next t ∧ t.params = s.params ∧ t.pending = s.pending ∧ t.returned = s.returned ++ [r] := by
  have error : ∃ t r, Host.Outcome.next (raiseError .invalidArgument s) = (.next t : Host.Outcome State Fault Refusal) ∧
      t.params = s.params ∧ t.pending = s.pending ∧ t.returned = s.returned ++ [r] := ⟨_, _, rfl, rfl, rfl, rfl⟩
  have emits : ∀ (bs : List Byte) (u : State), u.params = s.params → u.pending = s.pending → u.returned = s.returned →
      ∃ t r, Host.Outcome.next (emitAndReturn bs u) = (.next t : Host.Outcome State Fault Refusal) ∧
        t.params = s.params ∧ t.pending = s.pending ∧ t.returned = s.returned ++ [r] := by
    intro bs u h1 h2 h3
    rcases emitAndReturn_returned bs u with h | ⟨e, h⟩ <;>
      exact ⟨_, _, rfl, by rw [emitAndReturn_params, h1], by rw [emitAndReturn_pending, h2], by rw [h, h3]⟩
  have value : ∀ v, ∃ t r, returnValue v s = .next t ∧
      t.params = s.params ∧ t.pending = s.pending ∧ t.returned = s.returned ++ [r] :=
    fun v => ⟨_, _, returnValue_eq v s, rfl, rfl, rfl⟩
  cases c <;> simp only [decodeCall]
  case setPinMode => simp only [exec, execSetPinMode]; split; exacts [emits _ _ rfl rfl rfl, error]
  case digitalWrite => simp only [exec, execDigitalWrite]; split; exacts [emits _ _ rfl rfl rfl, error]
  case analogWrite => simp only [exec, execAnalogWrite]; split; exacts [emits _ _ rfl rfl rfl, error]
  case servoWrite => simp only [exec, execServoWrite]; split; exacts [emits _ _ rfl rfl rfl, error]
  case sendSysex => exact emits _ _ rfl rfl rfl
  case reportAnalog => simp only [exec, execReportAnalog]; split; exacts [emits _ _ rfl rfl rfl, error]
  case reportDigital => simp only [exec, execReportDigital]; split; exacts [emits _ _ rfl rfl rfl, error]
  case stepperStep => simp only [exec, execStepperStep]; split; exacts [emits _ _ rfl rfl rfl, error]
  all_goals first | exact value _ | exact ⟨_, _, rfl, rfl, rfl, rfl⟩

theorem step_query {s : State} {q : Query} {queue : List Transaction} (hp : s.pending = .query q :: queue) :
    step s = runQuery q (s.begin queue) := by
  simp only [step, fetch, hp]

theorem step_construct {s : State} {queue : List Transaction} (hp : s.pending = .construct :: queue) :
    step s = .next (construct (s.begin queue)) := by
  simp only [step, fetch, hp]

/-- The RX decoder takes something from every delivery of at least one byte. -/
theorem decodeRx_total (c : RxContext) (b : Byte) (bs : List Byte) : ∃ i rest, decodeRx c (b :: bs) = .instr i rest := by
  simp only [decodeRx]
  split <;> exact ⟨_, _, rfl⟩

theorem run_succ {s t : State} (k : Nat) (h : step s = .next t) :
    Sys2Proof.core.run (k + 1) s = Sys2Proof.core.run k t := by
  have hs : Sys2Proof.core.step s = .next t := h
  simp only [Host.Core.run, hs]

theorem run_add (a b : Nat) {s t : State} (h : Sys2Proof.core.run a s = .next t) :
    Sys2Proof.core.run (a + b) s = Sys2Proof.core.run b t := by
  induction a generalizing s with
  | zero =>
    cases h
    rw [Nat.zero_add]
  | succ a ih =>
    rw [Nat.succ_add]
    cases hs : step s with
    | next u =>
      rw [run_succ _ hs] at h ⊢
      exact ih h
    | fault r =>
      have hc : Sys2Proof.core.step s = .fault r := hs
      simp [Host.Core.run, hc] at h
    | refused r =>
      have hc : Sys2Proof.core.step s = .refused r := hs
      simp [Host.Core.run, hc] at h

end Sys2Proof.Machine
end

