-- ==== Sys2Proof/Tests/Slice0.lean ====
section
/-! SUPPORT. The model's own tests: the WellFormed smoke, words written out from the spec's encodings, the worked
values of spec/95_test_vectors.md (each test names its vector), and for every statement with hypotheses a witness that
meets them. Expected values are the spec's. -/

namespace Sys2Proof.Tests

open Sys2Proof.Machine Sys2Proof.Claims

set_option maxRecDepth 4000

/-- The outcome is a next state with this property. -/
def gives (o : Host.Outcome State Fault Refusal) (p : State → Bool) : Bool :=
  match o with
  | .next t => p t
  | .fault _ => false
  | .refused _ => false

/-- A state from which the ByteSink accepts the next ten bytes. -/
def willing : State := { State.reset with sinkScript := List.replicate 10 .ok }

/-- A state from which write `k` of the next operation fails with 7. -/
def failingAt (k : Nat) : State := { State.reset with sinkScript := List.replicate k .ok ++ [.fail 7] }

/-- A parser that collects a message, `count` bytes still owed, 05 received where one is owed. -/
def collecting (cmd : ActiveCmd) (count : Nat) (channel : Nibble) : State :=
  { State.reset with parser := { ParserState.reset with
      pendingByteCount := count, activeCmd := cmd, activeChannel := channel
      sysexBuffer := if count = 1 then [(1, 0x05)] else [] } }

/-- A parser in an open frame with this payload so far. -/
def openFrame (length : Nat) (buffer : List Host.Cell) : State :=
  { State.reset with parser := { ParserState.reset with
      inSysex := true, sysexLength := length, sysexBuffer := buffer } }

/-- A parser that discards an overflowed frame. -/
def discarding : State :=
  { State.reset with parser := { ParserState.reset with inSysex := true, overflowed := true } }

/-- All steppers moving. -/
def moving : State :=
  { State.reset with device := { DeviceState.reset with stepperStatus := Vector.replicate 128 true } }

/-! ## WellFormed smoke: one ill-formed term for each check -/

theorem test_wf_payload_byte : (Instr.sysexPayloadByteRx 0xF7).wellFormed = false := by decide
theorem test_wf_end_in_tail : (Instr.stringDataRx [0x41, 0xF7, 0x42]).wellFormed = false := by decide
theorem tailOk_replicate (k n : Nat) : tailOk k (List.replicate n 0x7F) = decide (k + n ≤ 4096) := by
  simp [tailOk, noEndSysex, Config.sysexCap]
theorem test_wf_tail_too_long : (Instr.analogMappingResponseRx (List.replicate 4096 0x7F)).wellFormed = false :=
  tailOk_replicate 1 4096
theorem test_wf_tail_fits : (Instr.analogMappingResponseRx (List.replicate 4095 0x7F)).wellFormed = true :=
  tailOk_replicate 1 4095
theorem test_wf_prefix_counts : (Instr.stepperMoveCompleteRx (List.replicate 4095 0x7F)).wellFormed = false :=
  tailOk_replicate 2 4095
theorem test_wf_other_is_not_move_complete : (Instr.stepperRequestOtherRx [0x0A, 0x01]).wellFormed = false := by decide
theorem test_wf_unknown_is_not_named : (Instr.unknownSysexRx 0x6A []).wellFormed = false := by decide
theorem test_wf_unknown_is_no_end : (Instr.unknownSysexRx 0xF7 []).wellFormed = false := by decide

/-! ## Decoding: a word of every row, written out from spec/30_encoding.md and spec/opcode_table.json -/

theorem test_decode_messages :
    decodeRx .idle [0b10010010, 0b00000101, 0b00000001] = .instr (.digitalMessageRx (.whole 2 5 1)) [] ∧
    decodeRx .idle [0b11101111, 0b01111111, 0b00000000] = .instr (.analogMessageRx (.whole 15 127 0)) [] ∧
    decodeRx .idle [0b11111001, 0b00000010, 0b01111111] = .instr (.reportVersionRx (.whole 2 127)) [] := by decide

theorem test_decode_message_parts :
    decodeRx .idle [0x9F] = .instr (.digitalMessageRx (.first 15)) [] ∧
    decodeRx .idle [0xE0, 0x05, 0x90] = .instr (.analogMessageRx (.first 0)) [0x05, 0x90] ∧
    decodeRx (.awaiting .digital) [0x7F, 0x01] = .instr (.digitalMessageRx (.data 127)) [0x01] ∧
    decodeRx (.awaiting .version) [0x05] = .instr (.reportVersionRx (.data 5)) [] ∧
    decodeRx (.awaiting .digital) [0b11111001] = .instr (.abandonMultibyteRx 0b1111001) [] := by decide

theorem test_decode_sysex_bytes :
    decodeRx .idle [0b11110000] = .instr .startSysexRx [] ∧
    decodeRx .inSysex [0b11110111] = .instr .endSysexRx [] ∧
    decodeRx .inSysex [0b11110000] = .instr (.sysexPayloadByteRx 0xF0) [] ∧
    decodeRx .overflowed [0b11110000] = .instr .startSysexRx [] := by decide

theorem test_decode_channel_rows :
    decodeRx .idle [0b10001010] = .instr (.unassigned8xRx 10) [] ∧
    decodeRx .idle [0b10100011] = .instr (.unassignedAxBxRx false 3) [] ∧
    decodeRx .idle [0b10110011] = .instr (.unassignedAxBxRx true 3) [] ∧
    decodeRx .idle [0b11000101] = .instr (.reportAnalogRx 5) [] ∧
    decodeRx .idle [0b11011001] = .instr (.reportDigitalRx 9) [] ∧
    decodeRx .idle [0b01111111] = .instr (.strayDataRx 127) [] := by decide

theorem test_decode_system_rows :
    decodeRx .idle [0b11110001] = .instr .unassignedF1Rx [] ∧ decodeRx .idle [0b11110010] = .instr .unassignedF2Rx [] ∧
    decodeRx .idle [0b11110011] = .instr .unassignedF3Rx [] ∧ decodeRx .idle [0b11110100] = .instr .setPinModeRx [] ∧
    decodeRx .idle [0b11110101] = .instr .unassignedF5Rx [] ∧ decodeRx .idle [0b11110110] = .instr .unassignedF6Rx [] ∧
    decodeRx .idle [0b11111000] = .instr .unassignedF8Rx [] ∧ decodeRx .idle [0b11111010] = .instr .unassignedFARx [] ∧
    decodeRx .idle [0b11111011] = .instr .unassignedFBRx [] ∧ decodeRx .idle [0b11111100] = .instr .unassignedFCRx [] ∧
    decodeRx .idle [0b11111101] = .instr .unassignedFDRx [] ∧ decodeRx .idle [0b11111110] = .instr .unassignedFERx [] ∧
    decodeRx .idle [0b11111111] = .instr .systemResetRx [] := by decide

theorem test_decode_frames_with_effect :
    decodeRx .idle [0xF0, 0x6A, 0x7F, 0x00, 0xF7] = .instr (.analogMappingResponseRx [0x7F, 0]) [] ∧
    decodeRx .idle [0xF0, 0x62, 0x0A, 0x05, 0xF7] = .instr (.stepperMoveCompleteRx [5]) [] ∧
    decodeRx .idle [0xF0, 0x77, 0x48, 0x00, 0x02, 0x00, 0xF7, 0x90] =
      .instr (.extensionReplyRx [0x48, 0, 2, 0]) [0x90] ∧
    decodeRx .idle [0xF0, 0xF7] = .instr .emptySysexRx [] ∧
    decodeRx .idle [0xF0, 0x62, 0x02, 0x0A, 0xF7] = .instr (.stepperRequestOtherRx [2, 0x0A]) [] := by decide

theorem test_decode_frames_without_effect :
    decodeRx .idle [0xF0, 0x69, 0xF7] = .instr (.analogMappingQueryRx []) [] ∧
    decodeRx .idle [0xF0, 0x6B, 0x01, 0xF7] = .instr (.capabilityQueryRx [1]) [] ∧
    decodeRx .idle [0xF0, 0x6C, 0x7F, 0xF7] = .instr (.capabilityResponseRx [0x7F]) [] ∧
    decodeRx .idle [0xF0, 0x6D, 0x0D, 0xF7] = .instr (.pinStateQueryRx [0x0D]) [] ∧
    decodeRx .idle [0xF0, 0x6E, 0x0D, 0xF7] = .instr (.pinStateResponseRx [0x0D]) [] ∧
    decodeRx .idle [0xF0, 0x6F, 0xF7] = .instr (.extendedAnalogRx []) [] ∧
    decodeRx .idle [0xF0, 0x70, 0xF7] = .instr (.servoConfigRx []) [] ∧
    decodeRx .idle [0xF0, 0x71, 0x48, 0x00, 0xF7] = .instr (.stringDataRx [0x48, 0]) [] ∧
    decodeRx .idle [0xF0, 0x76, 0xF7] = .instr (.extensionRequestRx []) [] ∧
    decodeRx .idle [0xF0, 0x78, 0xF7] = .instr (.extensionConfigRx []) [] ∧
    decodeRx .idle [0xF0, 0x79, 0x02, 0xF7] = .instr (.reportFirmwareRx [2]) [] ∧
    decodeRx .idle [0xF0, 0x7A, 0xF7] = .instr (.samplingIntervalRx []) [] ∧
    decodeRx .idle [0xF0, 0x01, 0x90, 0xF7] = .instr (.unknownSysexRx 1 [0x90]) [] := by decide

/-- The calls, by name (R82), operands out of range included. -/
theorem test_decode_encoder_calls :
    decodeCall (.setPinMode 13 1) = (.setPinMode 13 1) ∧
    decodeCall (.digitalWrite (-1) 1) = (.digitalWrite (-1) 1) ∧
    decodeCall (.analogWrite 9 200) = (.analogWrite 9 200) ∧
    decodeCall (.servoWrite 9 180) = (.servoWrite 9 180) ∧
    decodeCall (.sendSysex [0x69]) = (.sendSysex [0x69]) ∧
    decodeCall (.reportAnalog 3 true) = (.reportAnalog 3 true) ∧
    decodeCall (.reportDigital 1 false) = (.reportDigital 1 false) ∧
    decodeCall (.stepperStep 1 (-200)) = (.stepperStep 1 (-200)) ∧
    decodeCall .reset = .reset := by decide

theorem test_decode_codec_calls :
    decodeCall (.split14 200) = (.split14 200) ∧ decodeCall (.join14 0x7F 7) = (.join14 0x7F 7) ∧
    decodeCall (.encodeSigned32 (-1)) = (.encodeSigned32 (-1)) ∧
    decodeCall (.decodeSigned32 0x48 1 0 0 8) = (.decodeSigned32 0x48 1 0 0 8) ∧
    decodeCall (.encodeCustomFloat .nonFinite) = (.encodeCustomFloat .nonFinite) ∧
    decodeCall (.pack 0 1 11) = (.pack 0 1 11) ∧
    decodeCall (.decodeCustomFloat 1 0 0 0x2C) = (.decodeCustomFloat 1 0 0 0x2C) := by decide

/-- Words of spec/opcode_table.json in its own numbering, byte 0 most significant (log 10). -/
theorem test_decode_table_words :
    decodeTableWord 24 0xF90205 = some (.reportVersionRx (.whole 2 5)) ∧
    decodeTableWord 32 0xF0620A05 = some (.stepperMoveCompleteRx [5]) ∧
    decodeTableWord 16 0xF06A = some (.analogMappingResponseRx []) ∧
    decodeTableWord 24 0xF40D01 = some (.setPinMode 13 1) ∧
    decodeTableWord 48 0xF40903E94801 = some (.analogWrite 9 200) ∧
    decodeTableWord 16 0xC301 = some (.reportAnalog 3 true) ∧
    decodeTableWord 80 0xF06202014801000008F7 = some (.stepperStep 1 (-200)) ∧
    decodeTableWord 0 0 = some .reset := by decide

/-! ## Meanings: the vectors of spec/95_test_vectors.md -/

theorem test_vP1_digitalMessage : gives (exec (.digitalMessageRx (.whole 2 5 1)) State.reset) (fun t =>
    t.device.portAt 2 = 0x0085 ∧ t.parser.mode = .idle ∧
    t.returned = [.nothing, .nothing, .event (.digitalPortChanged 2 133)]) = true := by decide

theorem test_vP3_analogMessage : gives (exec (.analogMessageRx (.whole 3 0x7F 7)) State.reset) (fun t =>
    t.device.analogValueAt 3 = 1023 ∧ t.returned = [.nothing, .nothing, .event (.analogChannelChanged 3 1023)])
    = true := by decide

theorem test_vP5_reportVersion : gives (exec (.reportVersionRx (.whole 2 5)) State.reset) (fun t =>
    t.device.fwVersion = ⟨2, 5⟩ ∧ t.returned = [.nothing, .nothing, .event (.versionReported 2 5)]) = true := by decide

/-- V-P7, V-P8: first byte, then the byte at index 1. -/
theorem test_vP7_firstByte : gives (exec (.digitalMessageRx (.first 2)) State.reset) (fun t =>
    t.parser.pendingByteCount = 2 ∧ t.parser.activeCmd = .digital ∧ t.parser.activeChannel = 2) = true := by decide

theorem test_vP8_dataByte : gives (exec (.analogMessageRx (.data 5)) (collecting .analog 2 3)) (fun t =>
    t.parser.pendingByteCount = 1 ∧ Memory.get t.parser.sysexBuffer 1 = 5 ∧ t.device.analogValueAt 3 = 0) = true := by
  decide

/-- V-P9, V-P12: the abandoned message is lost, the new one starts; 0xFF starts none. -/
theorem test_vP9_abandon : gives (exec (.abandonMultibyteRx 0x64) (collecting .analog 1 3)) (fun t =>
    t.parser.pendingByteCount = 2 ∧ t.parser.activeChannel = 4 ∧ t.device.analogValueAt 3 = 0) = true := by decide

theorem test_vP12_abandon_by_FF : gives (exec (.abandonMultibyteRx 0x7F) (collecting .digital 1 3)) (fun t =>
    t.parser.mode = .idle ∧ t.parser.activeChannel = 0 ∧ t.device.portAt 3 = 0) = true := by decide

/-- V-P14: what IDLE ignores. -/
theorem test_vP14_ignored : [Instr.strayDataRx 5, .unassigned8xRx 0, .unassignedAxBxRx false 5, .reportAnalogRx 1,
      .reportDigitalRx 0, .setPinModeRx, .endSysexRx, .systemResetRx, .unassignedF1Rx, .unassignedF2Rx, .unassignedF3Rx,
      .unassignedF5Rx, .unassignedF6Rx, .unassignedF8Rx, .unassignedFARx, .unassignedFBRx, .unassignedFCRx,
      .unassignedFDRx, .unassignedFERx].all (fun i => gives (exec i State.reset) (fun t =>
    t.parser = ParserState.reset ∧ t.returned = [.nothing])) = true := by decide

/-- V-P15: START_SYSEX and a payload byte. -/
theorem test_vP15_startSysex : gives (exec .startSysexRx State.reset) (fun t =>
    t.parser.inSysex ∧ t.parser.sysexLength = 0) = true := by decide

theorem test_vP15_payloadByte : gives (exec (.sysexPayloadByteRx 0x7F) (openFrame 1 [(0, 0x6A)])) (fun t =>
    t.parser.sysexLength = 2 ∧ t.parser.sysexBuffer = [(0, 0x6A), (1, 0x7F)]) = true := by decide

/-- V-P24: the 4097th byte is dropped whatever it is. -/
theorem test_vP24_overflow : gives (exec (.sysexPayloadByteRx 0xF0) (openFrame 4096 [])) (fun t =>
    t.parser.inSysex ∧ t.parser.overflowed ∧ t.parser.sysexLength = 0 ∧ t.returned = [.error .overflowError])
    = true := by decide

/-- V-P21, V-P25: END_SYSEX and START_SYSEX after an overflow. -/
theorem test_vP21_end_after_overflow : gives (exec .endSysexRx discarding) (fun t =>
    t.parser = ParserState.reset ∧ t.returned = [.nothing]) = true := by decide

theorem test_vP25_start_after_overflow : gives (exec .startSysexRx discarding) (fun t =>
    t.parser.inSysex ∧ t.parser.overflowed = false ∧ t.parser.sysexLength = 0) = true := by decide

/-- V-P15, then F7: END_SYSEX dispatches what the frame holds. -/
theorem test_endSysex_dispatches : gives (exec .endSysexRx (openFrame 2 [(0, 0x6A), (1, 0x03)])) (fun t =>
    t.device.pinAnalogChannelAt 0 = 3 ∧ t.device.pinAnalogChannelAt 1 = 127 ∧ t.parser.mode = .idle) = true := by decide

theorem test_vD1_analogMapping : gives (exec (.analogMappingResponseRx [0x7F, 0, 0x7F]) State.reset) (fun t =>
    t.device.pinAnalogChannelAt 0 = 127 ∧ t.device.pinAnalogChannelAt 1 = 0 ∧ t.device.pinAnalogChannelAt 2 = 127 ∧
    t.returned = List.replicate 6 .nothing) = true := by decide

theorem test_vD5_analogMapping_unmasked : gives (exec (.analogMappingResponseRx [0x90, 0xF0, 0xFF]) State.reset)
    (fun t => t.device.pinAnalogChannelAt 0 = 144 ∧ t.device.pinAnalogChannelAt 1 = 240 ∧
    t.device.pinAnalogChannelAt 2 = 255 ∧ t.device.pinAnalogChannelAt 3 = 127) = true := by decide

theorem test_vD11_moveComplete : gives (exec (.stepperMoveCompleteRx [5, 0x33, 0x44]) moving) (fun t =>
    t.device.stepperAt 5 = false ∧ t.device.stepperAt 6 = true ∧
    t.returned = List.replicate 6 .nothing ++ [.event (.stepperCompleted 5)]) = true := by decide

theorem test_vD12_moveComplete_out_of_range : gives (exec (.stepperMoveCompleteRx [0x90]) moving) (fun t =>
    t.device.stepperAt 16 = true ∧ t.returned = List.replicate 5 .nothing) = true := by decide

theorem test_vD13_extensionReply : gives (exec (.extensionReplyRx [0x48, 0, 2, 0, 0x10, 1, 6]) State.reset) (fun t =>
    t.device.extReply = [⟨72, 2, [144]⟩] ∧
    t.returned = List.replicate 9 .nothing ++ [.event (.extensionReplyReceived 72 2 [144])]) = true := by decide

theorem test_vD18_extensionReply_unmasked :
    gives (exec (.extensionReplyRx [0xFF, 0xFF, 0, 1, 0xFF, 0xFF]) State.reset) (fun t =>
    t.device.replyAt 32767 128 = some [32767] ∧ t.device.replyAt 0 0 = none) = true := by decide

/-- V-D9, V-D10, V-D19 to V-D21, V-P16: discarded frames. -/
theorem test_vD20_discarded : [Instr.emptySysexRx, .stepperRequestOtherRx [], .stepperRequestOtherRx [2, 1],
      .reportFirmwareRx [2, 5, 0x41, 0], .capabilityResponseRx [0x7F], .pinStateResponseRx [0x0D, 1, 1],
      .stringDataRx [0x48, 0], .unknownSysexRx 0xF0 [0x6A, 5], .analogMappingQueryRx [], .capabilityQueryRx [],
      .pinStateQueryRx [3], .extendedAnalogRx [], .servoConfigRx [], .extensionRequestRx [], .extensionConfigRx [],
      .samplingIntervalRx [], .extensionReplyRx [0x48, 0, 3], .stepperMoveCompleteRx []].all (fun i =>
    gives (exec i moving) (fun t => t.parser.mode = .idle ∧ t.returned.all (· = .nothing) ∧
      t.device.fwVersion = ⟨0, 0⟩ ∧ t.device.extReply = [] ∧ t.device.stepperAt 1 = true ∧
      t.device.pinAnalogChannelAt 0 = 127)) = true := by decide

theorem test_vE3_setPinMode : gives (exec (.setPinMode 127 11) willing) (fun t =>
    t.tx = [0xF4, 0x7F, 0x0B] ∧ t.device.pinModeAt 127 = .inputPullup ∧ t.device.pinModeAt 126 = .unconfigured ∧
    t.returned = [.ok]) = true := by decide

theorem test_vE4_setPinMode_refused : gives (exec (.setPinMode 5 7) willing) (fun t =>
    t.tx = [] ∧ t.device.pinModeAt 5 = .unconfigured ∧ t.returned = [.error .invalidArgument]) = true := by decide

/-- V-E14: after a report of 3F85 with bit 5 set, pin 8 is cleared. -/
theorem test_vE14_digitalWrite : gives (exec (.digitalWrite 8 0)
      { willing with device := DeviceState.reset.setPort 1 0x3FA5 }) (fun t =>
    t.tx = [0x91, 0x24, 0x7F] ∧ t.device.portAt 1 = 0x3FA4) = true := by decide

theorem test_vX3_digitalWrite_fails : gives (exec (.digitalWrite 13 1) (failingAt 2)) (fun t =>
    t.tx = [0x91, 0x20] ∧ t.device.portAt 1 = 0x0020 ∧ t.returned = [.error (.sinkError 7)]) = true := by decide

theorem test_vE18_analogWrite : gives (exec (.analogWrite 19 255) willing) (fun t =>
    t.tx = [0xF4, 0x13, 0x03, 0xE3, 0x7F, 0x01] ∧ t.device.pinModeAt 19 = .pwm ∧ t.device.pinModeAt 3 = .unconfigured)
    = true := by decide

theorem test_vX7_analogWrite_fails : gives (exec (.analogWrite 9 200) (failingAt 3)) (fun t =>
    t.tx = [0xF4, 0x09, 0x03] ∧ t.device.pinModeAt 9 = .pwm ∧ t.returned = [.error (.sinkError 7)]) = true := by decide

theorem test_vE20_servoWrite : gives (exec (.servoWrite 9 180) willing) (fun t =>
    t.tx = [0xE9, 0x34, 0x01] ∧ t.device.pinModeAt 9 = .unconfigured) = true := by decide

theorem test_vE22_servoWrite_refused : gives (exec (.servoWrite 9 181) willing) (fun t =>
    t.tx = [] ∧ t.returned = [.error .invalidArgument]) = true := by decide

theorem test_vE25_sendSysex : gives (exec (.sendSysex [0xF7]) willing) (fun t => t.tx = [0xF0, 0xF7, 0xF7]) = true := by
  decide

theorem test_vE26_reportAnalog : gives (exec (.reportAnalog 15 true) willing) (fun t => t.tx = [0xCF, 0x01]) = true := by
  decide

theorem test_vE28_reportDigital : gives (exec (.reportDigital 1 false) willing) (fun t => t.tx = [0xD1, 0x00]) = true := by
  decide

theorem test_vE30_stepperStep : gives (exec (.stepperStep 1 (-200)) willing) (fun t =>
    t.tx = [0xF0, 0x62, 0x02, 0x01, 0x48, 0x01, 0x00, 0x00, 0x08, 0xF7] ∧ t.device.stepperAt 1 = true ∧
    t.device.stepperAt 0 = false) = true := by decide

theorem test_vE34_stepperStep_refused : gives (exec (.stepperStep 1 (-2147483648)) willing) (fun t =>
    t.tx = [] ∧ t.device.stepperAt 1 = false ∧ t.returned = [.error .invalidArgument]) = true := by decide

theorem test_vR1_reset : gives (exec .reset (collecting .analog 1 3)) (fun t =>
    t.parser.mode = .idle ∧ t.parser.activeCmd = .none ∧ t.parser.activeChannel = 0 ∧ t.returned = [.ok]) = true := by
  decide

theorem test_vI1_split14 : gives (exec (.split14 1023) State.reset) (fun t => t.returned = [.bytes [0x7F, 7]]) = true := by
  decide

theorem test_vI2_join14 : gives (exec (.join14 0xFF 0xFF) State.reset) (fun t => t.returned = [.word 32767]) = true := by
  decide

theorem test_vI13_encodeSigned32 : gives (exec (.encodeSigned32 (-2147483647)) State.reset) (fun t =>
    t.returned = [.bytes [0x7F, 0x7F, 0x7F, 0x7F, 0x0F]]) = true := by decide

theorem test_vI17_decodeSigned32 : gives (exec (.decodeSigned32 0x81 0x80 0x80 0x80 0xF0) State.reset) (fun t =>
    t.returned = [.integer 1]) = true := by decide

theorem test_vI18_decodeSigned32 : gives (exec (.decodeSigned32 0xFF 0xFF 0xFF 0xFF 0xFF) State.reset) (fun t =>
    t.returned = [.integer (-2147483647)]) = true := by decide

/-- V-F8, V-F12: the second loop fires; a value with no exact form. -/
theorem test_vF8_encodeCustomFloat : gives (exec (.encodeCustomFloat (.finite 8388609)) State.reset) (fun t =>
    t.returned = [.bytes [0x4C, 0x19, 0x33, 0x30]]) = true := by decide

theorem test_vF12_encodeCustomFloat : gives (exec (.encodeCustomFloat (.finite (mkRat 1 3))) State.reset) (fun t =>
    t.returned = [.bytes [0x55, 0x39, 0x4B, 0x11]]) = true := by decide

/-- V-F11's fields: sign 1, 25075, 9. -/
theorem test_vF11_pack : gives (exec (.pack 1 25075 9) State.reset) (fun t =>
    t.returned = [.bytes [0x73, 0x43, 0x01, 0x64]]) = true := by decide

theorem test_vF33_decodeCustomFloat : gives (exec (.decodeCustomFloat 0x7F 0x7F 0x7F 0x7F) State.reset) (fun t =>
    t.returned = [.rational (-83886070000)]) = true := by decide

/-- The host's way in: the next step runs the word's instruction. -/
theorem test_withFetchWord : gives (step (State.reset.withFetchWord 24 0x920501)) (fun t =>
    t.device.portAt 2 = 0x0085 ∧ t.pending = []) = true := by decide

/-! ## Witnesses: for every statement with hypotheses, states and operands that meet them -/

/-- Device State after reset meets the invariant of any engine. -/
theorem deviceInv_reset (params : Params) : DeviceState.reset.Inv params := by
  constructor
  · intro n; simp [DeviceState.reset, DeviceState.portAt]
  · intro n; simp [DeviceState.reset, DeviceState.pinAnalogChannelAt, Config.unmapped]
  · rfl
  · intro n; simp [DeviceState.reset, DeviceState.stepperAt]

theorem witness_inv_collecting : ∀ x ∈ [(ActiveCmd.digital, 2, (3 : Nibble)), (.digital, 1, 3), (.analog, 2, 15),
    (.analog, 1, 15), (.version, 2, 0), (.version, 1, 0)], (collecting x.1 x.2.1 x.2.2).Inv := by
  intro x hx
  refine ⟨?_, deviceInv_reset _⟩
  simp only [List.mem_cons, List.not_mem_nil, or_false] at hx
  rcases hx with rfl | rfl | rfl | rfl | rfl | rfl <;> constructor <;>
    simp [collecting, ParserState.reset, Memory.wf, Memory.get, Config.sysexCap]

theorem witness_inv_openFrame : (openFrame 2 [(0, 0x6A), (1, 0x03)]).Inv := by
  refine ⟨?_, deviceInv_reset _⟩
  constructor <;> simp [openFrame, ParserState.reset, Memory.wf, Memory.get, Config.sysexCap]
  intro a h
  have : a = 0 ∨ a = 1 := by omega
  rcases this with rfl | rfl <;> decide

theorem witness_DecodeEncodeRoundTrip :
    ((Instr.sysexPayloadByteRx 0xF0).wellFormed = true ∧ (Instr.sysexPayloadByteRx 0xF0).appliesIn .inSysex = true) ∧
    ((Instr.stringDataRx (List.replicate 4095 0x7F)).wellFormed = true ∧
      (Instr.stringDataRx (List.replicate 4095 0x7F)).appliesIn .idle = true) ∧
    ((Instr.reportVersionRx (.data 0x7F)).wellFormed = true ∧
      (Instr.reportVersionRx (.data 0x7F)).appliesIn (.awaiting .version) = true) ∧
    ((Instr.pack 2 0 0).wellFormed = true ∧ (Instr.pack 2 0 0).appliesIn .overflowed = true) :=
  ⟨by decide, ⟨tailOk_replicate 1 4095, by decide⟩, by decide, by decide⟩

theorem witness_DecodedBytesAreItsWords :
    decodeRx .idle [0xF0, 0x6A, 0xF7, 0x05] = .instr (.analogMappingResponseRx []) [0x05] := by decide

/-- The clauses of FirstByteMapOfIdle at the ends of their ranges; they exclude each other by their ranges. -/
theorem witness_FirstByteMapOfIdle : (∀ b ∈ ([0x00, 0x7F] : List Byte), b.toNat ≤ 0x7F) ∧
    (∀ b ∈ ([0x80, 0x8F] : List Byte), 0x80 ≤ b.toNat ∧ b.toNat ≤ 0x8F) ∧
    (∀ b ∈ ([0x90, 0x9F] : List Byte), 0x90 ≤ b.toNat ∧ b.toNat ≤ 0x9F) ∧
    (∀ b ∈ ([0xA0, 0xAF, 0xB0, 0xBF] : List Byte), 0xA0 ≤ b.toNat ∧ b.toNat ≤ 0xBF) ∧
    (∀ b ∈ ([0xC0, 0xCF] : List Byte), 0xC0 ≤ b.toNat ∧ b.toNat ≤ 0xCF) ∧
    (∀ b ∈ ([0xD0, 0xDF] : List Byte), 0xD0 ≤ b.toNat ∧ b.toNat ≤ 0xDF) ∧
    (∀ b ∈ ([0xE0, 0xEF] : List Byte), 0xE0 ≤ b.toNat ∧ b.toNat ≤ 0xEF) := by decide

theorem witness_StepRunsTheDecodedInstruction :
    decode State.reset.parser.context (.feed [0x92, 5, 1, 0x41]) = .instr (.digitalMessageRx (.whole 2 5 1)) [0x41] ∧
    decode (openFrame 0 []).parser.context (.feed [0x92]) = .instr (.sysexPayloadByteRx 0x92) [] ∧
    decode State.reset.parser.context (.call .reset) = .instr .reset [] := by decide

theorem witness_QueryReadsTheElement : ∀ q ∈ [Query.port 15, .pinMode 127, .pinAnalogChannel 0, .analogValue 15,
      .extReply 0 32767, .stepperStatus 127, .fwVersion],
    gives (step { State.reset with pending := [.query q] }) (fun t => t.returned.length = 1) = true := by decide

/-- An index beyond `N_STEPPERS`: the other branch. -/
theorem witness_QueryReadsTheElement_absent : ¬((1 : Data7).toNat < (⟨0, 2⟩ : Params).nSteppers) ∧
    (0 : Data7).toNat < (⟨0, 2⟩ : Params).nSteppers := by decide

theorem witness_StepWithoutWork : State.reset.pending = [] ∧
    ∀ c ∈ [Call.decodeSigned32 1 2 3 4 5, .split14 (-1), .join14 256 0, .setPinMode 128 0, .reset],
      gives (step { State.reset with pending := [.call c] }) (fun t => t.pending = [] ∧ t.returned.length = 1) = true := by
  decide

theorem witness_RxInstructionFeedsItsBytes : encode (.stepperMoveCompleteRx [5]) = .feed [0xF0, 0x62, 0x0A, 5, 0xF7] := by
  decide

theorem witness_DeliveryCutDoesNotMatter : (collecting .digital 1 3).Inv ∧ ([0x02, 0xF0] : List Byte) ≠ [] :=
  ⟨witness_inv_collecting (.digital, 1, 3) (by simp), by decide⟩

/-- IgnoredBytesInIdle, FirstBytesStartAMessage, StartSysexOpensFrame. -/
theorem witness_InIdle : InIdle State.reset := ⟨rfl, rfl⟩

/-- DataBytesFillAndComplete: each kind with two and with one byte owed. -/
theorem witness_DataBytesFillAndComplete : ∀ x ∈ [(ActiveCmd.digital, 2, (3 : Nibble)), (.digital, 1, 3),
      (.analog, 2, 15), (.analog, 1, 15), (.version, 2, 0), (.version, 1, 0)],
    (collecting x.1 x.2.1 x.2.2).Inv ∧ (collecting x.1 x.2.1 x.2.2).parser.activeCmd = x.1 ∧
      (collecting x.1 x.2.1 x.2.2).parser.pendingByteCount = x.2.1 :=
  fun x hx => ⟨witness_inv_collecting x hx, rfl, rfl⟩

/-- The message and frame statements: outside a frame in IDLE and with a message in progress. -/
theorem witness_OutsideSysex : OutsideSysex State.reset ∧ OutsideSysex (collecting .version 1 0) :=
  ⟨⟨rfl, rfl⟩, ⟨rfl, rfl⟩⟩

theorem witness_HighByteAbandonsMessage :
    (collecting .analog 1 3).parser.inSysex = false ∧ (collecting .analog 1 3).parser.pendingByteCount > 0 := by decide

/-- PayloadByteIsAppended at both ends of the room, with an ordinary byte and with START_SYSEX. -/
theorem witness_PayloadByteIsAppended : ∀ n ∈ [0, 4095], InFrame (openFrame n []) ∧
    Memory.wf (openFrame n []).parser.sysexBuffer = true ∧ (openFrame n []).parser.sysexLength < 4096 := by
  intro n hn
  simp only [List.mem_cons, List.not_mem_nil, or_false] at hn
  rcases hn with rfl | rfl <;> exact ⟨⟨rfl, rfl⟩, rfl, by decide⟩

theorem witness_OverflowOnThe4097thByte : InFrame (openFrame 4096 []) ∧ (openFrame 4096 []).parser.sysexLength = 4096 ∧
    (0x00 : Byte) ≠ 0xF7 ∧ (0xF0 : Byte) ≠ 0xF7 :=
  ⟨⟨rfl, rfl⟩, rfl, by decide, by decide⟩

theorem witness_OverflowedFrameIsDiscarded : InOverflow discarding := ⟨rfl, rfl⟩

theorem witness_EndSysexDispatchesThePayload : InFrame (openFrame 2 [(0, 0x6A), (1, 0x03)]) ∧
    ∀ i (h : i < ([0x6A, 0x03] : List Byte).length),
      Memory.get (openFrame 2 [(0, 0x6A), (1, 0x03)]).parser.sysexBuffer i = ([0x6A, 0x03] : List Byte)[i] :=
  ⟨⟨rfl, rfl⟩, by decide⟩

/-- FeedReturnsOneResult, FeedWritesOnlyByItsRule: a byte that completes, one that dispatches, one that overflows. -/
theorem witness_feed : (∃ t, feed 0x01 (collecting .digital 1 3) = .next t ∧ t.device.portAt 3 = 0x0085) ∧
    (∃ t, feed 0xF7 (openFrame 2 [(0, 0x6A), (1, 0x03)]) = .next t ∧ t.device.pinAnalogChannelAt 0 = 3) ∧
    ∃ t, feed 0x01 (openFrame 4096 []) = .next t ∧ t.returned = [.error .overflowError] :=
  ⟨⟨_, rfl, by decide⟩, ⟨_, rfl, by decide⟩, ⟨_, rfl, by decide⟩⟩

theorem witness_OversizedFrameIsReportedOnce : (List.replicate 4096 (0x01 : Byte)).length = 4096 ∧
    (∀ x ∈ List.replicate 4096 (0x01 : Byte), x ≠ 0xF7) ∧ (∀ x ∈ ([0x41, 0x92] : List Byte), x ≠ 0xF7 ∧ x ≠ 0xF0) :=
  ⟨List.length_replicate .., fun x hx => by rw [List.eq_of_mem_replicate hx]; decide, by decide⟩

/-- The three frames with an effect: no operand byte, one, and the most that fit. -/
theorem witness_frames_wellFormed : (Instr.analogMappingResponseRx []).wellFormed = true ∧
    (Instr.analogMappingResponseRx (List.replicate 4095 0x7F)).wellFormed = true ∧
    (Instr.stepperMoveCompleteRx []).wellFormed = true ∧ (Instr.stepperMoveCompleteRx [127]).wellFormed = true ∧
    (Instr.stepperMoveCompleteRx [128]).wellFormed = true ∧ (Instr.extensionReplyRx [1, 2, 3]).wellFormed = true ∧
    (Instr.extensionReplyRx [1, 2, 3, 4]).wellFormed = true ∧
    (Instr.extensionReplyRx (List.replicate 4095 0x7F)).wellFormed = true ∧
    ReplyStore.wf State.reset.device.extReply = true :=
  ⟨by decide, tailOk_replicate 1 4095, by decide, by decide, by decide, by decide, by decide, tailOk_replicate 1 4095,
    by decide⟩

theorem witness_UnrecognisedSysexIsDiscarded : [Instr.emptySysexRx, .stepperRequestOtherRx [], .analogMappingQueryRx [],
      .capabilityQueryRx [], .capabilityResponseRx [1], .pinStateQueryRx [], .pinStateResponseRx [1], .extendedAnalogRx [],
      .servoConfigRx [], .stringDataRx [1], .extensionRequestRx [], .extensionConfigRx [], .reportFirmwareRx [2],
      .samplingIntervalRx [], .unknownSysexRx 0 [0xFF]].all Instr.wellFormed = true := by decide

/-- What the ByteSink may answer (`Emits`): it takes all, or it refuses the write `k`. -/
theorem witness_Emits : (∀ k, k < 10 → answerAt willing k = .ok) ∧
    (∀ j, j < 2 → answerAt (failingAt 2) j = .ok) ∧ answerAt (failingAt 2) 2 = .fail 7 := by decide

/-- Operands at both ends of each encoder's range, and just outside. -/
theorem witness_encoder_ranges :
    (∀ i ∈ [Instr.setPinMode 0 0, .setPinMode 127 11, .digitalWrite 0 0, .digitalWrite 127 1, .analogWrite 0 0,
        .analogWrite 127 255, .servoWrite 0 0, .servoWrite 127 180, .reportAnalog 0 true, .reportAnalog 15 false,
        .reportDigital 0 true, .reportDigital 15 false, .stepperStep 0 (-2147483647), .stepperStep 127 2147483647],
      gives (exec i willing) (fun t => t.returned = [.ok]) = true) ∧
    ∀ i ∈ [Instr.setPinMode (-1) 0, .setPinMode 128 0, .setPinMode 0 7, .setPinMode 0 (-1), .digitalWrite 128 0,
        .digitalWrite 0 2, .digitalWrite 0 (-1), .analogWrite 0 256, .servoWrite 0 181, .reportAnalog 16 true,
        .reportAnalog (-1) true, .reportDigital 16 true, .stepperStep 128 0, .stepperStep 0 2147483648,
        .encodeSigned32 (-2147483648), .encodeCustomFloat (.finite 0)],
      gives (exec i willing) (fun t => t.returned = [.error .invalidArgument] ∧ t.tx = []) = true := by decide

theorem witness_InvalidArgumentExactlyOutOfRange : OutOfRange Params.default (.digitalWrite 128 1) ∧
    OutOfRange Params.default (.servoWrite 0 181) ∧
    ∃ t, exec (.servoWrite 0 181) State.reset = .next t ∧ t.returned = State.reset.returned ++ [.error .invalidArgument] :=
  ⟨by simp [OutOfRange], by simp [OutOfRange], ⟨_, rfl, rfl⟩⟩

theorem witness_EncodersIgnoreTheParser : IsEncoder (.sendSysex [0x69]) ∧ IsCodec (.split14 5) ∧
    (∃ t, exec (.sendSysex [0x69]) (openFrame 0 []) = .next t) ∧ ∃ t, exec (.split14 5) (openFrame 0 []) = .next t :=
  ⟨trivial, trivial, ⟨_, rfl⟩, ⟨_, rfl⟩⟩

theorem witness_EncoderDataBytesAreSevenBitSafe : IsEncoder (.digitalWrite 13 1) ∧
    (∀ payload, Instr.digitalWrite 13 1 ≠ .sendSysex payload) ∧ (collecting .digital 1 3).Inv ∧
    ∃ t, exec (.digitalWrite 13 1) (collecting .digital 1 3) = .next t :=
  ⟨trivial, nofun, witness_inv_collecting (.digital, 1, 3) (by simp), ⟨_, rfl⟩⟩

theorem witness_CallsWriteOnlyTheirRegisters : ¬IsFeed (.setPinMode 13 1) ∧
    ∃ t, exec (.setPinMode 13 1) willing = .next t ∧ t.device.pinModeAt 13 = .output :=
  ⟨fun ⟨_, h⟩ => (nomatch h), ⟨_, rfl, by decide⟩⟩

/-- V-E13 as a whole: the report, then the write. -/
theorem witness_ReportedBitsAreSentBack : OutsideSysex willing ∧ (0 ≤ (13 : Int) ∧ (13 : Int) ≤ 127) ∧
    (13 : Int) / 8 = (1 : Nibble).toNat ∧ ∃ t u, exec (.digitalMessageRx (.whole 1 5 0x7F)) willing = .next t ∧
      exec (.digitalWrite 13 1) t = .next u ∧ (∀ k, k < 3 → answerAt t k = .ok) ∧ u.tx = [0x91, 0x25, 0x7F] :=
  ⟨⟨rfl, rfl⟩, by decide, by decide, ⟨_, _, rfl, rfl, by decide, by decide⟩⟩

theorem witness_ConstructionGivesTheResetValues :
    ∃ t, step { collecting .digital 1 3 with pending := [.construct] } = .next t ∧ t.pending = [] :=
  ⟨_, rfl, rfl⟩

theorem witness_StepKeepsTheInvariant :
    let s : State := { collecting .digital 1 3 with pending := [.feed [0x01]] }
    s.Inv ∧ ∃ t, step s = .next t ∧ t.device.portAt 3 = 0x0085 :=
  have h := witness_inv_collecting (.digital, 1, 3) (by simp)
  ⟨⟨h.parser, h.device⟩, ⟨_, rfl, by decide⟩⟩

/-- AdmissibleStepsAnswerNext, AdmissibleRunsFinish, InvariantStatesNeverFaultInTheParser. -/
theorem witness_Admissible :
    let s : State := { openFrame 2 [(0, 0x6A), (1, 0x03)] with
      pending := [.feed [0xF7, 0x92], .call (.setPinMode 128 0), .query (.stepperStatus 127), .construct] }
    s.Inv ∧ s.Admissible := by
  refine ⟨⟨witness_inv_openFrame.parser, witness_inv_openFrame.device⟩, ?_⟩
  intro x hx
  simp only [List.mem_cons, List.not_mem_nil, or_false] at hx
  rcases hx with rfl | rfl | rfl | rfl
  · trivial
  · trivial
  · show (127 : Data7).toNat < Params.default.nSteppers
    decide
  · trivial

/-- The codec's domains at their ends, and just outside. -/
theorem witness_codec_ranges :
    (∀ i ∈ [Instr.split14 0, .split14 16383, .encodeSigned32 (-2147483647), .encodeSigned32 2147483647, .pack 0 0 0,
        .pack 1 8388607 15, .encodeCustomFloat (.finite 1), .encodeCustomFloat (.finite (-1)), .join14 0 0, .join14 255 255,
        .decodeSigned32 0 0 0 0 0x80, .decodeCustomFloat 0 0 0 0],
      gives (exec i State.reset) (fun t => t.returned ≠ [.error .invalidArgument]) = true) ∧
    ∀ i ∈ [Instr.split14 (-1), .split14 16384, .encodeSigned32 2147483648, .pack 2 0 0, .pack 0 8388608 0, .pack 0 0 16,
        .pack 0 (-1) 0, .encodeCustomFloat .nonFinite, .join14 (-1) 0, .join14 0 256],
      gives (exec i State.reset) (fun t => t.returned = [.error .invalidArgument]) = true := by decide

/-- V-F12 meets the conditions of the float law: 1/3 is in range and is no `8388608 * 10^k`. -/
theorem witness_CustomFloatTruncatesTowardZero : (1 / 3 : ℚ) ≠ 0 ∧ Codec.floatExpInRange (1 / 3) = true ∧
    ∀ k : ℤ, |(1 / 3 : ℚ)| ≠ 8388608 * (10 : ℚ) ^ k := by
  have hq : (1 / 3 : ℚ) = mkRat 1 3 := by norm_num [Rat.mkRat_eq_div]
  refine ⟨by norm_num, hq ▸ by decide, fun k h => ?_⟩
  rw [abs_of_pos (by norm_num)] at h
  have h1 : (1 : ℚ) = 25165824 * 10 ^ k := by linarith
  obtain ⟨n, rfl | rfl⟩ := k.eq_nat_or_neg
  · rw [zpow_natCast] at h1
    have : (1 : ℕ) = 25165824 * 10 ^ n := by exact_mod_cast h1
    have := Nat.one_le_pow n 10 (by norm_num)
    omega
  · rw [zpow_neg, zpow_natCast] at h1
    have h2 : (10 : ℚ) ^ n = 25165824 := by
      have := pow_pos (show (0 : ℚ) < 10 by norm_num) n
      field_simp at h1
      linarith
    have h3 : (10 : ℕ) ^ n = 25165824 := by exact_mod_cast h2
    have h4 : 3 ∣ 10 ^ n := h3 ▸ (by norm_num)
    have := Nat.Prime.dvd_of_dvd_pow (by norm_num) h4
    omega

theorem witness_CodecFunctionsArePure : IsCodec (.decodeCustomFloat 1 0 0 0x2C) ∧ IsCodec (.pack 2 0 0) :=
  ⟨trivial, trivial⟩

theorem witness_BufferReadsWhatWasWritten : Memory.wf [(0, 0x6A), (4095, 1)] = true ∧ 4095 < 4096 := by decide

theorem witness_ReplyStoreReadsWhatWasWritten :
    ReplyStore.wf [⟨72, 2, [144]⟩, ⟨72, 3, []⟩] = true ∧ (List.replicate 2045 (3 : Word15)).length ≤ 2045 :=
  ⟨by decide, (List.length_replicate ..).le⟩

end Sys2Proof.Tests
end

section
/-! A step against the decoder: what stays pending of a delivery, and the instruction that runs (log 1, 2, 3). -/

namespace Sys2Proof.Machine

/-- An RX delivery leaves the queue only when all its bytes are used. -/
theorem stillPending_eq_ite (rest : List Byte) (queue : List Transaction) :
    stillPending rest queue = if rest = [] then queue else .feed rest :: queue := by
  cases rest with
  | nil => rfl
  | cons b bs => rw [if_neg (List.cons_ne_nil b bs), stillPending]

/-- Settles O6: a delivery by `step_feed`, a call by `step_call`, whose decoding is `decodeCall`. -/
theorem stepRunsTheDecodedInstruction : Obligations.StepRunsTheDecodedInstruction := by
  unfold Obligations.StepRunsTheDecodedInstruction
  constructor
  · intro s bs rest queue i hp hd
    rw [step_feed hp hd, stillPending_eq_ite, State.begin]
  · intro s c rest queue i hp hd
    obtain ⟨rfl, -⟩ : decodeCall c = i ∧ [] = rest := Decoded.instr.inj hd
    rw [step_call hp, State.begin]

end Sys2Proof.Machine
end

section
/-! The two kinds of instruction: an incoming row is the `feed` of its bytes (R82, R101), and a call is an encoder
operation, `reset()` or a codec function with the outcomes of `CallCase` (R150, R152, R162, R180). -/

namespace Sys2Proof.Machine

open Sys2Proof.Claims

/-- The meaning of an incoming row is the `feed` of the bytes it travels as. -/
theorem exec_of_encode_feed {i : Instr} {bs : List Byte} (h : encode i = .feed bs) (s : State) :
    exec i s = feedAll bs s := by
  cases i
  case digitalMessageRx f => cases f <;> cases h <;> rfl
  case analogMessageRx f => cases f <;> cases h <;> rfl
  case reportVersionRx f => cases f <;> cases h <;> rfl
  all_goals cases h <;> rfl

/-- An instruction that travels as a call is the one that call decodes to. -/
theorem decodeCall_of_encode_call {i : Instr} {c : Call} (h : encode i = .call c) : decodeCall c = i := by
  cases i <;> cases h <;> rfl

theorem encode_ne_query (i : Instr) (q : Query) : encode i ≠ .query q := by cases i <;> exact nofun

theorem encode_ne_construct (i : Instr) : encode i ≠ .construct := by cases i <;> exact nofun

/-- Every instruction is the `feed` of bytes or a call. -/
theorem isFeed_or_decodeCall (i : Instr) : IsFeed i ∨ ∃ c, i = decodeCall c := by
  cases h : encode i with
  | feed bs => exact .inl ⟨bs, h⟩
  | call c => exact .inr ⟨c, (decodeCall_of_encode_call h).symm⟩
  | query q => exact absurd h (encode_ne_query i q)
  | construct => exact absurd h (encode_ne_construct i)

/-- Everything one call can do, a case for each kind of outcome: the error that writes nothing (R152), the value of a
codec function (R180), the return to IDLE (R162), and the encoder operations with what they store before the bytes
(R153 to R160). -/
inductive CallCase (s : State) : Instr → State → Prop
  | refused (i : Instr) : CallCase s i (raiseError .invalidArgument s)
  | value (i : Instr) (r : Response) : IsCodec i → CallCase s i (s.respond r)
  | reset : CallCase s .reset ((s.withParser s.parser.toIdle).respond .ok)
  | emits (i : Instr) (bs : List Byte) : IsEncoder i → CallCase s i (emitAndReturn bs s)
  | setPinMode {pin mode : Int} {p : Data7} {code : Byte} {m : PinMode} :
      pinOperand pin = some p → modeOperand mode = some (code, m) →
      CallCase s (.setPinMode pin mode)
        (emitAndReturn (setPinModeFrame p code) (s.withDevice (s.device.setPinMode p m)))
  | digitalWrite {pin value : Int} {p : Data7} {level : Bool} {m : Word16} :
      pinOperand pin = some p → levelOperand value = some level →
      m = writtenPort (s.device.portAt (portOfPin p)) p level →
      CallCase s (.digitalWrite pin value)
        (emitAndReturn (digitalFrame (portOfPin p) m) (s.withDevice (s.device.setPort (portOfPin p) m)))
  | analogWrite {pin value : Int} {p : Data7} {v : Byte} :
      pinOperand pin = some p → valueOperand 255 value = some v →
      CallCase s (.analogWrite pin value)
        (emitAndReturn (setPinModeFrame p 3 ++ analogFrame p v) (s.withDevice (s.device.setPinMode p .pwm)))
  | stepperStep {index steps : Int} {k : Data7} (bs : List Byte) :
      stepperOperand s.params index = some k →
      CallCase s (.stepperStep index steps) (emitAndReturn bs (s.withDevice (s.device.setStepper k true)))

/-- A codec function answers with its value or with the error. -/
theorem callCase_of_returnValue {i : Instr} {v : Option Response} {s t : State} (hi : IsCodec i)
    (h : returnValue v s = .next t) : CallCase s i t := by
  rw [returnValue_eq, Host.Outcome.next.injEq] at h
  exact h ▸ .value i _ hi

/-- The operand checks of an operation choose between its effect and the error; a codec function has no other effect. -/
theorem callCase_of_decodeCall {c : Call} {s t : State} (h : exec (decodeCall c) s = .next t) :
    CallCase s (decodeCall c) t := by
  cases c with
  | setPinMode pin mode =>
    simp only [decodeCall, exec, execSetPinMode] at h ⊢
    split at h <;> cases h
    · exact .setPinMode ‹_› ‹_›
    · exact .refused _
  | digitalWrite pin value =>
    simp only [decodeCall, exec, execDigitalWrite] at h ⊢
    split at h <;> cases h
    · exact .digitalWrite ‹_› ‹_› rfl
    · exact .refused _
  | analogWrite pin value =>
    simp only [decodeCall, exec, execAnalogWrite] at h ⊢
    split at h <;> cases h
    · exact .analogWrite ‹_› ‹_›
    · exact .refused _
  | servoWrite pin value =>
    simp only [decodeCall, exec, execServoWrite] at h ⊢
    split at h <;> cases h
    · exact .emits _ _ trivial
    · exact .refused _
  | sendSysex payload => cases h; exact .emits _ _ trivial
  | reportAnalog channel enable =>
    simp only [decodeCall, exec, execReportAnalog] at h ⊢
    split at h <;> cases h
    · exact .emits _ _ trivial
    · exact .refused _
  | reportDigital port enable =>
    simp only [decodeCall, exec, execReportDigital] at h ⊢
    split at h <;> cases h
    · exact .emits _ _ trivial
    · exact .refused _
  | stepperStep index steps =>
    simp only [decodeCall, exec, execStepperStep] at h ⊢
    split at h <;> cases h
    · exact .stepperStep _ ‹_›
    · exact .refused _
  | reset => cases h; exact .reset
  | split14 v => exact callCase_of_returnValue trivial h
  | join14 lo hi => exact callCase_of_returnValue trivial h
  | encodeSigned32 value => exact callCase_of_returnValue trivial h
  | decodeSigned32 b0 b1 b2 b3 b4 => cases h; exact .value _ _ trivial
  | encodeCustomFloat value => exact callCase_of_returnValue trivial h
  | pack sign sig ef => exact callCase_of_returnValue trivial h
  | decodeCustomFloat b0 b1 b2 b3 => cases h; exact .value _ _ trivial

theorem callCase_of_not_isFeed {i : Instr} {s t : State} (hi : ¬IsFeed i) (h : exec i s = .next t) :
    CallCase s i t := by
  obtain ⟨c, rfl⟩ := (isFeed_or_decodeCall i).resolve_left hi
  exact callCase_of_decodeCall h

end Sys2Proof.Machine
end

section
/-! The invariant of Device State (R29, R31, R33, R34): it holds at reset, and every write that an operation makes keeps
it. -/

namespace Sys2Proof.Machine

@[simp] theorem DeviceState.portAt_reset (n : Nibble) : DeviceState.reset.portAt n = 0 := by
  simp [DeviceState.reset, DeviceState.portAt]

@[simp] theorem DeviceState.pinAnalogChannelAt_reset (q : Data7) :
    DeviceState.reset.pinAnalogChannelAt q = Config.unmapped := by
  simp [DeviceState.reset, DeviceState.pinAnalogChannelAt]

@[simp] theorem DeviceState.stepperAt_reset (k : Data7) : DeviceState.reset.stepperAt k = false := by
  simp [DeviceState.reset, DeviceState.stepperAt]

/-- The registers read 0, 127 and false at reset, and no reply is stored (R230). -/
theorem DeviceState.inv_reset (params : Params) : DeviceState.reset.Inv params where
  portBits n := by simp
  mappingBytes q := by rw [pinAnalogChannelAt_reset]; decide
  repliesWf := rfl
  steppersExist k _ := stepperAt_reset k

/-- An index the operand check accepts names a stepper that exists (R160). -/
theorem stepperOperand_lt {p : Params} {v : Int} {k : Data7} (h : stepperOperand p v = some k) :
    k.toNat < p.nSteppers := by
  by_cases hv : 0 ≤ v ∧ v < p.nSteppers
  · rw [stepperOperand_some hv, Option.some.injEq] at h
    have hn : p.nSteppers ≤ 128 := p.lastStepper.isLt
    have hk := toNat_ofInt7 (v := v) (by omega)
    rw [h] at hk
    omega
  · rw [stepperOperand_none hv] at h
    cases h

namespace DeviceState.Inv

variable {params : Params} {d : DeviceState}

theorem setPort (h : d.Inv params) (n : Nibble) {v : Word16} (hv : v.toNat < 2 ^ 14) : (d.setPort n v).Inv params where
  portBits m := by
    rw [portAt_setPort]
    split
    · exact hv
    · exact h.portBits m
  mappingBytes := h.mappingBytes
  repliesWf := h.repliesWf
  steppersExist := h.steppersExist

theorem setPinMode (h : d.Inv params) (p : Data7) (m : PinMode) : (d.setPinMode p m).Inv params :=
  ⟨h.portBits, h.mappingBytes, h.repliesWf, h.steppersExist⟩

theorem setAnalogValue (h : d.Inv params) (n : Nibble) (v : Word14) : (d.setAnalogValue n v).Inv params :=
  ⟨h.portBits, h.mappingBytes, h.repliesWf, h.steppersExist⟩

theorem setFwVersion (h : d.Inv params) (major minor : Data7) : (d.setFwVersion major minor).Inv params :=
  ⟨h.portBits, h.mappingBytes, h.repliesWf, h.steppersExist⟩

theorem setStepper (h : d.Inv params) {k : Data7} {moving : Bool} (hk : moving = true → k.toNat < params.nSteppers) :
    (d.setStepper k moving).Inv params where
  portBits := h.portBits
  mappingBytes := h.mappingBytes
  repliesWf := h.repliesWf
  steppersExist j hj := by
    rw [stepperAt_setStepper]
    split
    · next heq =>
      rw [Bool.eq_false_iff]
      intro hm
      have := hk hm
      rw [heq] at hj
      omega
    · exact h.steppersExist j hj

theorem setReply (h : d.Inv params) (a r : Word15) {values : List Word15} (hv : values.length ≤ 2045) :
    (d.setReply a r values).Inv params :=
  ⟨h.portBits, h.mappingBytes, ReplyStore.insert_wf hv h.repliesWf, h.steppersExist⟩

/-- The mapping bytes of a payload are stored as they come: none is END_SYSEX (R83, R133). -/
theorem analogMapping (h : d.Inv params) {args : List Byte} (hargs : ∀ b ∈ args, b ≠ Wire.endSysex) :
    (Machine.analogMapping args d).1.Inv params where
  portBits := h.portBits
  mappingBytes q := by
    show (applyMapping 0 args (Vector.replicate 128 Config.unmapped))[q.toNat] ≠ Wire.endSysex
    rw [getElem_applyMapping 0 args _ q.toNat q.isLt, if_pos (Nat.zero_le _), Nat.sub_zero, Vector.getElem_replicate]
    cases hq : args[q.toNat]? with
    | none => decide
    | some b => exact hargs b (List.mem_of_getElem? hq)
  repliesWf := h.repliesWf
  steppersExist := h.steppersExist

/-- R134 only clears a flag. -/
theorem moveComplete (h : d.Inv params) (args : List Byte) : (Machine.moveComplete params args d).1.Inv params := by
  simp only [Machine.moveComplete]
  split
  · exact h
  · split
    · exact h
    · exact h.setStepper nofun

/-- A payload that fits the buffer carries at most 2045 values behind its five bytes of key (R33, R135). -/
theorem extensionReply (h : d.Inv params) {args : List Byte} (hlen : args.length < Config.sysexCap) :
    (Machine.extensionReply args d).1.Inv params := by
  simp only [Machine.extensionReply]
  split
  · next a0 a1 r0 r1 vs =>
    refine h.setReply _ _ ?_
    rw [replyValues_length]
    simp only [List.length_cons, Config.sysexCap] at hlen
    omega
  · exact h

/-- The dispatcher keeps the invariant on every payload that a frame can bring (R83, R114). -/
theorem dispatch (h : d.Inv params) {payload : List Byte} (hlen : payload.length ≤ Config.sysexCap)
    (hbytes : ∀ b ∈ payload, b ≠ Wire.endSysex) : (Machine.dispatch params payload d).1.Inv params := by
  simp only [Machine.dispatch]
  split
  · exact h
  · next sub args =>
    split
    · exact h.analogMapping fun b hb => hbytes b (List.mem_cons_of_mem sub hb)
    · split
      · split
        · exact h
        · split
          · exact h.moveComplete _
          · exact h
      · split
        · exact h.extensionReply hlen
        · exact h

/-- A completed message keeps the invariant: it brings 14 bits to a port (R110). -/
theorem completeMessage (h : d.Inv params) {p : ParserState} {e : DeviceState} {r : Response}
    (hc : Machine.completeMessage p d = some (e, r)) : e.Inv params := by
  simp only [Machine.completeMessage] at hc
  split at hc <;> cases hc
  · refine h.setPort _ ?_
    have := (messageValue p).isLt
    rw [BitVec.toNat_setWidth]
    omega
  · exact h.setAnalogValue _ _
  · exact h.setFwVersion _ _

end DeviceState.Inv

end Sys2Proof.Machine
end

section
/-! The invariant of ParserState (R21 to R28): it holds in every IDLE state with a canonical buffer, and the procedures
of `feed` keep it. -/

namespace Sys2Proof.Machine

/-- IDLE (R28): the mode clauses say nothing of the bytes in the buffer. -/
theorem ParserState.toIdle_inv {p : ParserState} (h : Memory.wf p.sysexBuffer = true) : p.toIdle.Inv where
  sysexAlone := nofun
  pendingIffActive := by simp
  pendingBound := Nat.zero_le 2
  lengthBound := Nat.zero_le _
  lengthOutside _ := rfl
  overflowInside := nofun
  channelOwned _ := rfl
  bufferWf := h
  payloadBytes := nofun
  firstDataByte := nofun

theorem ParserState.inv_reset : ParserState.reset.Inv := ParserState.toIdle_inv (p := ParserState.reset) rfl

/-- What `IdleDispatch` makes of the parser (R102 to R107). -/
theorem idleDispatch_cases (b : Byte) (p : ParserState) :
    (∃ cmd n, (cmd = .digital ∨ cmd = .analog) ∧ idleDispatch b p = startMessage cmd n p) ∨
      idleDispatch b p = startMessage .version p.activeChannel p ∨ idleDispatch b p = p.openSysex ∨
      idleDispatch b p = p := by
  generalize hq : idleDispatch b p = q
  simp only [idleDispatch] at hq
  generalize (if b.toNat < 0xF0 then b &&& 0xF0 else b) = command at hq
  split at hq
  · exact .inl ⟨_, _, .inl rfl, hq.symm⟩
  · split at hq
    · exact .inl ⟨_, _, .inr rfl, hq.symm⟩
    · split at hq
      · exact .inr (.inl hq.symm)
      · split at hq
        · exact .inr (.inr (.inl hq.symm))
        · exact .inr (.inr (.inr hq.symm))

namespace ParserState.Inv

variable {p : ParserState}

theorem activeCmd_eq_none (h : p.Inv) (hp : p.pendingByteCount = 0) : p.activeCmd = .none :=
  not_not.1 fun hc => by
    have := h.pendingIffActive.2 hc
    omega

/-- A message starts outside a frame; one that has no channel leaves the zero that is there (R23, R103 to R105). -/
theorem startMessage (h : p.Inv) (hx : p.inSysex = false) {cmd : ActiveCmd} {n : Nibble} (hcmd : cmd ≠ .none)
    (hn : cmd = .version → n = 0) : (Machine.startMessage cmd n p).Inv where
  sysexAlone hs := absurd (hx.symm.trans hs) Bool.false_ne_true
  pendingIffActive := ⟨fun _ => hcmd, fun _ => Nat.zero_lt_two⟩
  pendingBound := le_refl 2
  lengthBound := h.lengthBound
  lengthOutside := h.lengthOutside
  overflowInside := h.overflowInside
  channelOwned := fun hc => hn (hc.resolve_left hcmd)
  bufferWf := h.bufferWf
  payloadBytes := h.payloadBytes
  firstDataByte := nofun

/-- A frame opens with no message in progress (R106). -/
theorem openSysex (h : p.Inv) (hp : p.pendingByteCount = 0) : p.openSysex.Inv where
  sysexAlone _ := ⟨hp, h.activeCmd_eq_none hp⟩
  pendingIffActive := h.pendingIffActive
  pendingBound := h.pendingBound
  lengthBound := Nat.zero_le _
  lengthOutside := nofun
  overflowInside := nofun
  channelOwned := h.channelOwned
  bufferWf := h.bufferWf
  payloadBytes _ a ha := absurd ha (Nat.not_lt_zero a)
  firstDataByte := h.firstDataByte

theorem idleDispatch (h : p.Inv) (hx : p.inSysex = false) (hp : p.pendingByteCount = 0) (b : Byte) :
    (Machine.idleDispatch b p).Inv := by
  obtain ⟨cmd, n, hcmd, hd⟩ | hd | hd | hd := idleDispatch_cases b p <;> rw [hd]
  · refine h.startMessage hx ?_ ?_ <;> rcases hcmd with rfl | rfl <;> exact nofun
  · exact h.startMessage hx nofun fun _ => h.channelOwned (.inl (h.activeCmd_eq_none hp))
  · exact h.openSysex hp
  · exact h

/-- The first of two data bytes goes to index 1 (R108). -/
theorem firstData (h : p.Inv) (hx : p.inSysex = false) (hp : p.pendingByteCount > 1) {b : Byte}
    (hb : Wire.isData b = true) :
    { p with
      pendingByteCount := p.pendingByteCount - 1
      sysexBuffer := Memory.put p.sysexBuffer (p.pendingByteCount - 1) b : ParserState }.Inv := by
  have hbound := h.pendingBound
  have hcount : p.pendingByteCount - 1 = 1 := by omega
  rw [hcount]
  exact {
    sysexAlone := fun hs => absurd (hx.symm.trans hs) Bool.false_ne_true
    pendingIffActive := ⟨fun _ => h.pendingIffActive.1 (by omega), fun _ => Nat.one_pos⟩
    pendingBound := Nat.le_succ 1
    lengthBound := h.lengthBound
    lengthOutside := h.lengthOutside
    overflowInside := h.overflowInside
    channelOwned := h.channelOwned
    bufferWf := Memory.put_wf (by decide) h.bufferWf
    payloadBytes := fun hs => absurd (hx.symm.trans hs) Bool.false_ne_true
    firstDataByte := fun _ => by
      rw [Memory.get_put h.bufferWf, if_pos rfl]
      exact of_decide_eq_true hb }

/-- A payload byte goes behind the payload (R113). -/
theorem append (h : p.Inv) (hx : p.inSysex = true) (ho : p.overflowed = false) {b : Byte} (hb : b ≠ Wire.endSysex)
    (hl : p.sysexLength < Config.sysexCap) :
    { p with
      sysexBuffer := Memory.put p.sysexBuffer p.sysexLength b
      sysexLength := p.sysexLength + 1 : ParserState }.Inv where
  sysexAlone := h.sysexAlone
  pendingIffActive := h.pendingIffActive
  pendingBound := h.pendingBound
  lengthBound := hl
  lengthOutside hs := absurd (hs.symm.trans hx) Bool.false_ne_true
  overflowInside hs := absurd (ho.symm.trans hs) Bool.false_ne_true
  channelOwned := h.channelOwned
  bufferWf := Memory.put_wf hl h.bufferWf
  payloadBytes _ a ha := by
    rw [Memory.get_put h.bufferWf]
    split
    · exact hb
    · next hne => exact h.payloadBytes hx a (lt_of_le_of_ne (Nat.le_of_lt_succ ha) hne)
  firstDataByte hc := by
    obtain ⟨hp, -⟩ := h.sysexAlone hx
    exact absurd (hp.symm.trans hc) Nat.zero_ne_one

/-- Inside a frame an empty payload may stand with the overflow flag set (R114) or clear (R115). -/
theorem emptyFrame (h : p.Inv) (hx : p.inSysex = true) (overflowed : Bool) :
    { p with overflowed := overflowed, sysexLength := 0 : ParserState }.Inv where
  sysexAlone := h.sysexAlone
  pendingIffActive := h.pendingIffActive
  pendingBound := h.pendingBound
  lengthBound := Nat.zero_le _
  lengthOutside _ := rfl
  overflowInside _ := ⟨hx, rfl⟩
  channelOwned := h.channelOwned
  bufferWf := h.bufferWf
  payloadBytes _ a ha := absurd ha (Nat.not_lt_zero a)
  firstDataByte := h.firstDataByte

/-- The payload that END_SYSEX hands over fits the buffer and holds no END_SYSEX (R83, R114). -/
theorem payload (h : p.Inv) (hx : p.inSysex = true) {payload : List Byte}
    (hr : Memory.readRange p.sysexBuffer 0 p.sysexLength = some payload) :
    payload.length ≤ Config.sysexCap ∧ ∀ b ∈ payload, b ≠ Wire.endSysex := by
  obtain ⟨bs, hbs, hlen, hget⟩ := Memory.readRange_total (m := p.sysexBuffer) 0 p.sysexLength
    (by simpa using h.lengthBound)
  obtain rfl : bs = payload := Option.some.inj (hbs.symm.trans hr)
  refine ⟨hlen ▸ h.lengthBound, fun b hb => ?_⟩
  obtain ⟨a, ha, rfl⟩ := List.getElem_of_mem hb
  rw [hget a ha, Nat.zero_add]
  exact h.payloadBytes hx a (hlen ▸ ha)

end ParserState.Inv

end Sys2Proof.Machine
end

section
/-! The invariant of the machine: it holds at reset, and `feed`, every call, every QUERY and construction keep it. -/

namespace Sys2Proof.Machine

/-- The invariant speaks of the parser, the device and the parameters alone. -/
theorem State.inv_iff (s : State) : s.Inv ↔ s.parser.Inv ∧ s.device.Inv s.params :=
  ⟨fun h => ⟨h.parser, h.device⟩, fun h => ⟨h.1, h.2⟩⟩

/-- Settles O45: the parser is in IDLE with an empty buffer, the registers read their reset values. -/
theorem resetMeetsTheInvariant : Obligations.ResetMeetsTheInvariant :=
  ⟨ParserState.inv_reset, DeviceState.inv_reset _⟩

theorem feed_keeps_inv {b : Byte} {s t : State} (hs : s.Inv) (h : feed b s = .next t) : t.Inv := by
  obtain ⟨hp, hd⟩ := hs
  have hidle := ParserState.toIdle_inv hp.bufferWf
  cases feed_cases h with
  | idle hx hc => exact ⟨hp.idleDispatch hx hc b, hd⟩
  | abandon => exact ⟨hidle.idleDispatch rfl rfl b, hd⟩
  | dataByte hx hc hb => exact ⟨hp.firstData hx hc hb, hd⟩
  | lastByte d r hx hc hb hm =>
    exact ⟨ParserState.toIdle_inv (p := { s.parser with sysexBuffer := Memory.put s.parser.sysexBuffer 0 b })
      (Memory.put_wf (by decide) hp.bufferWf), hd.completeMessage hm⟩
  | discardEnd => exact ⟨hidle, hd⟩
  | discardStart hx => exact ⟨hp.emptyFrame hx false, hd⟩
  | discard => exact ⟨hp, hd⟩
  | frameEnd payload hx ho hb hr =>
    obtain ⟨hlen, hbytes⟩ := hp.payload hx hr
    exact ⟨hidle, hd.dispatch hlen hbytes⟩
  | append hx ho hb hl => exact ⟨hp.append hx ho hb hl, hd⟩
  | overflow hx => exact ⟨hp.emptyFrame hx true, hd⟩

theorem feedAll_keeps_inv {bs : List Byte} {s t : State} (hs : s.Inv) (h : feedAll bs s = .next t) : t.Inv := by
  induction bs generalizing s with
  | nil => cases h; exact hs
  | cons b bs ih =>
    rw [feedAll_cons] at h
    cases hb : feed b s with
    | next u => rw [hb] at h; exact ih (feed_keeps_inv hs hb) h
    | fault r => rw [hb] at h; cases h
    | refused r => rw [hb] at h; cases h

/-- Writing to the ByteSink touches nothing the invariant speaks of. -/
theorem inv_emitAndReturn {bs : List Byte} {s : State} (hs : s.Inv) : (emitAndReturn bs s).Inv := by
  rw [State.inv_iff, emitAndReturn_parser, emitAndReturn_device, emitAndReturn_params]
  exact ⟨hs.parser, hs.device⟩

theorem call_keeps_inv {i : Instr} {s t : State} (hs : s.Inv) (h : CallCase s i t) : t.Inv := by
  obtain ⟨hp, hd⟩ := hs
  cases h with
  | refused => exact ⟨hp, hd⟩
  | value => exact ⟨hp, hd⟩
  | reset => exact ⟨ParserState.toIdle_inv hp.bufferWf, hd⟩
  | emits => exact inv_emitAndReturn ⟨hp, hd⟩
  | setPinMode => exact inv_emitAndReturn ⟨hp, hd.setPinMode _ _⟩
  | digitalWrite hpin hlevel hm =>
    exact inv_emitAndReturn ⟨hp, hd.setPort _ (hm ▸ writtenPort_bits _ _ _ (hd.portBits _))⟩
  | analogWrite => exact inv_emitAndReturn ⟨hp, hd.setPinMode _ _⟩
  | stepperStep bs hk => exact inv_emitAndReturn ⟨hp, hd.setStepper fun _ => stepperOperand_lt hk⟩

theorem exec_keeps_inv {i : Instr} {s t : State} (hs : s.Inv) (h : exec i s = .next t) : t.Inv := by
  obtain ⟨bs, hbs⟩ | ⟨c, rfl⟩ := isFeed_or_decodeCall i
  · rw [exec_of_encode_feed hbs] at h
    exact feedAll_keeps_inv hs h
  · exact call_keeps_inv hs (callCase_of_decodeCall h)

/-- A QUERY that answers only returns the element (R39). -/
theorem runQuery_eq_respond {q : Query} {s t : State} (h : runQuery q s = .next t) : ∃ r, t = s.respond r := by
  cases q with
  | stepperStatus k =>
    simp only [runQuery] at h
    split at h <;> cases h
    exact ⟨_, rfl⟩
  | _ => cases h; exact ⟨_, rfl⟩

/-- Settles O46: a step fetches, which leaves parser, device and parameters, and then runs an instruction, reads an
element or constructs. -/
theorem stepKeepsTheInvariant : Obligations.StepKeepsTheInvariant := by
  intro s t hs h
  have hbegin : ∀ queue, (s.begin queue).Inv := fun _ => ⟨hs.parser, hs.device⟩
  cases hp : s.pending with
  | nil =>
    simp only [step, fetch, hp] at h
    cases h
    exact hbegin []
  | cons x queue =>
    cases x with
    | feed bs =>
      cases bs with
      | nil =>
        simp only [step, fetch, hp, decode, decodeRx] at h
        cases h
        exact hbegin queue
      | cons b bs =>
        obtain ⟨i, rest, hd⟩ := decodeRx_total s.parser.context b bs
        rw [step_feed hp hd] at h
        exact exec_keeps_inv (hbegin _) h
    | call c =>
      rw [step_call hp] at h
      exact exec_keeps_inv (hbegin queue) h
    | query q =>
      rw [step_query hp] at h
      obtain ⟨r, rfl⟩ := runQuery_eq_respond h
      exact ⟨hs.parser, hs.device⟩
    | construct =>
      rw [step_construct hp] at h
      cases h
      exact ⟨ParserState.inv_reset, DeviceState.inv_reset _⟩

end Sys2Proof.Machine
end

section
/-! Which registers an operation may write (R37), what a QUERY returns (R39), and the sysex buffer as a byte array
(R25, R51). -/

namespace Sys2Proof.Machine

open Sys2Proof.Claims

/-- A completed message writes the one register of its kind (R110 to R112). -/
theorem completeMessage_cases {p : ParserState} {d e : DeviceState} {r : Response}
    (h : completeMessage p d = some (e, r)) :
    (p.activeCmd = .digital ∧ ∃ n v, e = d.setPort n v) ∨ (p.activeCmd = .analog ∧ ∃ n v, e = d.setAnalogValue n v) ∨
      (p.activeCmd = .version ∧ ∃ major minor, e = d.setFwVersion major minor) := by
  simp only [completeMessage] at h
  split at h <;> cases h
  · exact .inl ⟨‹_›, _, _, rfl⟩
  · exact .inr (.inl ⟨‹_›, _, _, rfl⟩)
  · exact .inr (.inr ⟨‹_›, _, _, rfl⟩)

/-- A byte of the payload that was read is the byte of the buffer at that index. -/
theorem Memory.get_of_readRange_getElem? {m : List Host.Cell} {n k : Nat} {payload : List Byte} {b : Byte}
    (hr : Memory.readRange m 0 n = some payload) (hk : payload[k]? = some b) : Memory.get m k = b := by
  obtain ⟨hlt, rfl⟩ := List.getElem?_eq_some_iff.1 hk
  simpa using Memory.readRange_get n 0 payload hr k hlt

/-- Settles O29: a case for each procedure of `feed`; only the last data byte of a message and END_SYSEX touch Device
State at all. -/
theorem feedWritesOnlyByItsRule : Obligations.FeedWritesOnlyByItsRule := by
  intro b s t h
  cases feed_cases h with
  | lastByte d r hx hc hb hm =>
    have hlt : b.toNat < 0x80 := of_decide_eq_true hb
    have hkind := completeMessage_cases hm
    dsimp only at hkind
    obtain ⟨ha, n, v, rfl⟩ | ⟨ha, n, v, rfl⟩ | ⟨ha, major, minor, rfl⟩ := hkind <;> simp [ha, hx, hc, hlt]
  | frameEnd payload hx ho hb hr =>
    obtain ⟨hmode, hport, hanalog, hfw, hmap, hstep, hreply⟩ := dispatch_frame s.params payload s.device
    have hget {k : Nat} {c : Byte} (hk : payload[k]? = some c) := Memory.get_of_readRange_getElem? hr hk
    refine ⟨hmode, fun hne => absurd hport hne, fun hne => absurd hanalog hne, fun hne => absurd hfw hne,
      fun hne => ⟨⟨hx, ho, hb⟩, hget (hmap hne)⟩, fun hne => ?_, fun hne => ⟨⟨hx, ho, hb⟩, hget (hreply hne)⟩⟩
    obtain ⟨h0, h1⟩ := hstep hne
    exact ⟨⟨hx, ho, hb⟩, hget h0, hget h1⟩
  | _ => simp

/-- An operation that emits appends its result. -/
theorem returned_prefix_emitAndReturn (bs : List Byte) (s : State) : s.returned <+: (emitAndReturn bs s).returned := by
  obtain h | ⟨e, h⟩ := emitAndReturn_returned bs s <;> rw [h] <;> exact List.prefix_append _ _

/-- Settles O40: a case for each outcome of a call. -/
theorem callsWriteOnlyTheirRegisters : Obligations.CallsWriteOnlyTheirRegisters := by
  intro i s t hi h
  have hpre (bs : List Byte) (d : DeviceState) : s.returned <+: (emitAndReturn bs (s.withDevice d)).returned :=
    returned_prefix_emitAndReturn bs (s.withDevice d)
  cases callCase_of_not_isFeed hi h with
  | refused => simp
  | value => simp
  | reset => simp
  | emits _ bs he => simp [he, returned_prefix_emitAndReturn bs s]
  | setPinMode => simp [IsEncoder, hpre]
  | digitalWrite => simp [IsEncoder, hpre]
  | analogWrite => simp [IsEncoder, hpre]
  | stepperStep => simp [IsEncoder, hpre]

/-- Settles O7: `runQuery` on the state in which the step begins, whose device and parameters are the old ones. -/
theorem queryReadsTheElement : Obligations.QueryReadsTheElement := by
  intro s q queue hp
  cases q <;> exact step_query hp

/-- A canonical buffer has no entry at an index of 4096 or above (R51). -/
theorem Memory.get_of_le {m : List Host.Cell} {a : Nat} (h : Memory.wf m = true) (ha : Config.sysexCap ≤ a) :
    Memory.get m a = 0 := by
  induction m with
  | nil => rfl
  | cons c rest ih =>
    obtain ⟨k, v⟩ := c
    obtain ⟨hk, -, -, hrest⟩ := Memory.wf_cons.1 h
    rw [Memory.get, if_neg (by omega), ih hrest]

/-- Settles O59: read after write, the canonical form kept, and equality of canonical buffers that read alike; indices
beyond the capacity hold nothing. -/
theorem bufferReadsWhatWasWritten : Obligations.BufferReadsWhatWasWritten := by
  refine ⟨fun m a x b hm ha => ?_, fun m a b ha => ?_, fun m m' hm hm' h => Memory.ext_of_get hm hm' fun a => ?_⟩
  · exact ⟨_, Memory.write_of_lt ha, Memory.put_wf ha hm, Memory.get_put hm a x b⟩
  · have hcap : ¬a < Config.sysexCap := Nat.not_lt.2 ha
    exact ⟨if_neg hcap, if_neg hcap⟩
  · by_cases ha : a < Config.sysexCap
    · simpa [ha] using h a ha
    · rw [Memory.get_of_le hm (Nat.not_lt.1 ha), Memory.get_of_le hm' (Nat.not_lt.1 ha)]

end Sys2Proof.Machine
end

section
/-! Totality from the invariant (R100, R51, R108): `feed` and every instruction answer a next state, and a step answers
one or stops at the QUERY of a stepper flag that does not exist (log 14). With it, the reply store as a map (R61). -/

namespace Sys2Proof.Machine

/-- Each active command has a completion (R108). -/
theorem completeMessage_isSome {p : ParserState} (d : DeviceState) (h : p.activeCmd ≠ .none) :
    ∃ e r, completeMessage p d = some (e, r) := by
  cases hc : p.activeCmd with
  | none => exact absurd hc h
  | _ => exact ⟨_, _, by rw [completeMessage, hc]⟩

/-- A data byte goes to index 1 or 0, and a message in progress has its command (R51, R108). -/
theorem multiData_answers {s : State} (hs : s.Inv) (hp : s.parser.pendingByteCount > 0) (b : Byte) :
    ∃ t, multiData b s = .next t := by
  have hcap : s.parser.pendingByteCount - 1 < Config.sysexCap :=
    calc s.parser.pendingByteCount - 1
      _ ≤ s.parser.pendingByteCount := Nat.sub_le _ _
      _ ≤ 2 := hs.parser.pendingBound
      _ < Config.sysexCap := by decide
  simp only [multiData, Memory.write_of_lt hcap]
  split
  · exact ⟨_, rfl⟩
  · obtain ⟨e, r, hm⟩ := completeMessage_isSome
      (p := { s.parser with
        pendingByteCount := s.parser.pendingByteCount - 1
        sysexBuffer := Memory.put s.parser.sysexBuffer (s.parser.pendingByteCount - 1) b })
      s.device (hs.parser.pendingIffActive.1 hp)
    rw [hm]
    exact ⟨_, rfl⟩

/-- The payload that END_SYSEX reads lies in the buffer (R116). -/
theorem sysexEnd_answers {s : State} (hs : s.Inv) : ∃ t, sysexEnd s = .next t := by
  obtain ⟨payload, hr, -⟩ := Memory.readRange_total (m := s.parser.sysexBuffer) 0 s.parser.sysexLength
    ((Nat.zero_add _).trans_le hs.parser.lengthBound)
  exact ⟨_, by rw [sysexEnd, hr]⟩

/-- "It is total" (R100): the procedure that the mode and the byte select answers. -/
theorem feed_answers {s : State} (hs : s.Inv) (b : Byte) : ∃ t, feed b s = .next t := by
  cases hx : s.parser.inSysex with
  | true =>
    cases ho : s.parser.overflowed with
    | true => exact ⟨_, feed_discard b s hx ho⟩
    | false =>
      by_cases hb : b = Wire.endSysex
      · rw [hb, feed_end s hx ho]
        exact sysexEnd_answers hs
      · by_cases hl : s.parser.sysexLength < Config.sysexCap
        · exact ⟨_, feed_append b s hx ho hb hl⟩
        · exact ⟨_, feed_overflow b s hx ho hb (Nat.not_lt.1 hl)⟩
  | false =>
    by_cases hp : s.parser.pendingByteCount > 0
    · cases hb : Wire.isData b with
      | true =>
        rw [feed_data b s hx hp hb]
        exact multiData_answers hs hp b
      | false => exact ⟨_, feed_abandon b s hx hp hb⟩
    · exact ⟨_, feed_idle b s hx (Nat.eq_zero_of_not_pos hp)⟩

theorem feedAll_answers {s : State} (hs : s.Inv) (bs : List Byte) : ∃ t, feedAll bs s = .next t := by
  induction bs generalizing s with
  | nil => exact ⟨s, rfl⟩
  | cons b bs ih =>
    obtain ⟨u, hu⟩ := feed_answers hs b
    rw [feedAll_cons, hu, andThen_next]
    exact ih (feed_keeps_inv hs hu)

theorem exec_answers {s : State} (hs : s.Inv) (i : Instr) : ∃ t, exec i s = .next t := by
  obtain ⟨bs, hbs⟩ | ⟨c, rfl⟩ := isFeed_or_decodeCall i
  · rw [exec_of_encode_feed hbs]
    exact feedAll_answers hs bs
  · obtain ⟨t, -, ht, -⟩ := exec_call c s
    exact ⟨t, ht⟩

/-- A QUERY answers, or it names a stepper flag that does not exist (R34, R39). -/
theorem runQuery_answers_or (q : Query) (s : State) :
    (∃ t, runQuery q s = .next t) ∨
      ∃ k, q = .stepperStatus k ∧ s.params.nSteppers ≤ k.toNat ∧ runQuery q s = .fault (.noSuchElement k.toNat) := by
  cases q with
  | stepperStatus k =>
    by_cases hk : k.toNat < s.params.nSteppers
    · exact .inl ⟨_, if_pos hk⟩
    · exact .inr ⟨k, rfl, Nat.not_lt.1 hk, if_neg hk⟩
  | _ => exact .inl ⟨_, rfl⟩

/-- Everything a step can run: nothing, an instruction, the QUERY at the head of `pending`, or construction. -/
theorem step_cases (s : State) :
    ∃ queue, step s = .next (s.begin queue) ∨ (∃ i, step s = exec i (s.begin queue)) ∨
      (∃ q, s.pending = .query q :: queue ∧ step s = runQuery q (s.begin queue)) ∨
      step s = .next (construct (s.begin queue)) := by
  cases hp : s.pending with
  | nil => exact ⟨[], .inl (by simp only [step, fetch, hp])⟩
  | cons x queue =>
    cases x with
    | feed bs =>
      cases bs with
      | nil => exact ⟨queue, .inl (by simp only [step, fetch, hp, decode, decodeRx])⟩
      | cons b bs =>
        obtain ⟨i, rest, hd⟩ := decodeRx_total s.parser.context b bs
        exact ⟨_, .inr (.inl ⟨i, step_feed hp hd⟩)⟩
    | call c => exact ⟨queue, .inr (.inl ⟨_, step_call hp⟩)⟩
    | query q => exact ⟨queue, .inr (.inr (.inl ⟨q, rfl, step_query hp⟩))⟩
    | construct => exact ⟨queue, .inr (.inr (.inr (step_construct hp)))⟩

/-- From a state that meets the invariant only the QUERY of a missing stepper flag stops a step (log 14). -/
theorem step_answers_or {s : State} (hs : s.Inv) :
    (∃ t, step s = .next t) ∨
      ∃ k queue, s.pending = .query (.stepperStatus k) :: queue ∧ s.params.nSteppers ≤ k.toNat ∧
        step s = .fault (.noSuchElement k.toNat) := by
  obtain ⟨queue, h | ⟨i, h⟩ | ⟨q, hp, h⟩ | h⟩ := step_cases s
  · exact .inl ⟨_, h⟩
  · have hbegin : (s.begin queue).Inv := ⟨hs.parser, hs.device⟩
    rw [h]
    exact .inl (exec_answers hbegin i)
  · rw [h]
    obtain ht | ⟨k, rfl, hk, hf⟩ := runQuery_answers_or q (s.begin queue)
    · exact .inl ht
    · exact .inr ⟨k, queue, hp, hk, hf⟩
  · exact .inl ⟨_, h⟩

/-- Settles O47: the one fault a step can end in, by `step_answers_or`, is neither of the parser's. -/
theorem invariantStatesNeverFaultInTheParser : Obligations.InvariantStatesNeverFaultInTheParser := by
  intro s hs
  obtain ⟨t, h⟩ | ⟨k, queue, -, -, h⟩ := step_answers_or hs <;> rw [h] <;> exact ⟨nofun, nofun⟩

/-- Settles O60: read after overwrite, the canonical form kept, and equality of canonical stores that read alike. -/
theorem replyStoreReadsWhatWasWritten : Obligations.ReplyStoreReadsWhatWasWritten :=
  ⟨fun _ n a r hm hn => ⟨ReplyStore.insert_wf hn hm, ReplyStore.lookup_insert hm n a r⟩,
    fun _ _ => ReplyStore.ext_of_lookup⟩

end Sys2Proof.Machine
end

section
/-! Encoder and decoder against each other (30_encoding.md conventions, R80, R83, R84): every row decodes from its
own words, and the decoder takes from a delivery exactly the words of what it reads. -/

namespace Sys2Proof

/-- Every row of the table, by its own round trip. -/
theorem roundTrip_statement (i : Instr) : Laws.RoundTrip.Statement i :=
  match i with
  | .digitalMessageRx f => Laws.RoundTrip.digitalMessageRx f
  | .analogMessageRx f => Laws.RoundTrip.analogMessageRx f
  | .reportVersionRx f => Laws.RoundTrip.reportVersionRx f
  | .startSysexRx => Laws.RoundTrip.startSysexRx
  | .endSysexRx => Laws.RoundTrip.endSysexRx
  | .sysexPayloadByteRx b => Laws.RoundTrip.sysexPayloadByteRx b
  | .abandonMultibyteRx b => Laws.RoundTrip.abandonMultibyteRx b
  | .strayDataRx d => Laws.RoundTrip.strayDataRx d
  | .unassigned8xRx n => Laws.RoundTrip.unassigned8xRx n
  | .unassignedAxBxRx x n => Laws.RoundTrip.unassignedAxBxRx x n
  | .reportAnalogRx n => Laws.RoundTrip.reportAnalogRx n
  | .reportDigitalRx n => Laws.RoundTrip.reportDigitalRx n
  | .unassignedF1Rx => Laws.RoundTrip.unassignedF1Rx
  | .unassignedF2Rx => Laws.RoundTrip.unassignedF2Rx
  | .unassignedF3Rx => Laws.RoundTrip.unassignedF3Rx
  | .setPinModeRx => Laws.RoundTrip.setPinModeRx
  | .unassignedF5Rx => Laws.RoundTrip.unassignedF5Rx
  | .unassignedF6Rx => Laws.RoundTrip.unassignedF6Rx
  | .unassignedF8Rx => Laws.RoundTrip.unassignedF8Rx
  | .unassignedFARx => Laws.RoundTrip.unassignedFARx
  | .unassignedFBRx => Laws.RoundTrip.unassignedFBRx
  | .unassignedFCRx => Laws.RoundTrip.unassignedFCRx
  | .unassignedFDRx => Laws.RoundTrip.unassignedFDRx
  | .unassignedFERx => Laws.RoundTrip.unassignedFERx
  | .systemResetRx => Laws.RoundTrip.systemResetRx
  | .analogMappingResponseRx args => Laws.RoundTrip.analogMappingResponseRx args
  | .stepperMoveCompleteRx args => Laws.RoundTrip.stepperMoveCompleteRx args
  | .extensionReplyRx args => Laws.RoundTrip.extensionReplyRx args
  | .emptySysexRx => Laws.RoundTrip.emptySysexRx
  | .stepperRequestOtherRx args => Laws.RoundTrip.stepperRequestOtherRx args
  | .analogMappingQueryRx args => Laws.RoundTrip.analogMappingQueryRx args
  | .capabilityQueryRx args => Laws.RoundTrip.capabilityQueryRx args
  | .capabilityResponseRx args => Laws.RoundTrip.capabilityResponseRx args
  | .pinStateQueryRx args => Laws.RoundTrip.pinStateQueryRx args
  | .pinStateResponseRx args => Laws.RoundTrip.pinStateResponseRx args
  | .extendedAnalogRx args => Laws.RoundTrip.extendedAnalogRx args
  | .servoConfigRx args => Laws.RoundTrip.servoConfigRx args
  | .stringDataRx args => Laws.RoundTrip.stringDataRx args
  | .extensionRequestRx args => Laws.RoundTrip.extensionRequestRx args
  | .extensionConfigRx args => Laws.RoundTrip.extensionConfigRx args
  | .reportFirmwareRx args => Laws.RoundTrip.reportFirmwareRx args
  | .samplingIntervalRx args => Laws.RoundTrip.samplingIntervalRx args
  | .unknownSysexRx sub args => Laws.RoundTrip.unknownSysexRx sub args
  | .setPinMode pin mode => Laws.RoundTrip.setPinMode pin mode
  | .digitalWrite pin value => Laws.RoundTrip.digitalWrite pin value
  | .analogWrite pin value => Laws.RoundTrip.analogWrite pin value
  | .servoWrite pin value => Laws.RoundTrip.servoWrite pin value
  | .sendSysex payload => Laws.RoundTrip.sendSysex payload
  | .reportAnalog channel enable => Laws.RoundTrip.reportAnalog channel enable
  | .reportDigital port enable => Laws.RoundTrip.reportDigital port enable
  | .stepperStep index steps => Laws.RoundTrip.stepperStep index steps
  | .reset => Laws.RoundTrip.reset
  | .split14 v => Laws.RoundTrip.split14 v
  | .join14 lo hi => Laws.RoundTrip.join14 lo hi
  | .encodeSigned32 value => Laws.RoundTrip.encodeSigned32 value
  | .decodeSigned32 b0 b1 b2 b3 b4 => Laws.RoundTrip.decodeSigned32 b0 b1 b2 b3 b4
  | .encodeCustomFloat value => Laws.RoundTrip.encodeCustomFloat value
  | .pack sign sig ef => Laws.RoundTrip.pack sign sig ef
  | .decodeCustomFloat b0 b1 b2 b3 => Laws.RoundTrip.decodeCustomFloat b0 b1 b2 b3

/-- Settles O1: a round trip for each row. -/
theorem decodeEncodeRoundTrip : Obligations.DecodeEncodeRoundTrip := roundTrip_statement

/-- An incoming row decodes from the bytes it travels as. -/
theorem decodeRx_of_encode {i : Instr} {c : RxContext} {bs : List Byte} (hw : i.wellFormed = true)
    (ha : i.appliesIn c = true) (he : encode i = .feed bs) : decodeRx c bs = .instr i [] := by
  have h := roundTrip_statement i c hw ha
  rwa [he] at h

/-! The three classes of bytes (R70). -/

theorem byteClass_eq_data_iff (b : Byte) : Wire.byteClass b = .data ↔ b.toNat < 0x80 := by
  simp only [Wire.byteClass]
  split_ifs <;> simp <;> omega

theorem byteClass_eq_channelCommand_iff (b : Byte) :
    Wire.byteClass b = .channelCommand ↔ 0x80 ≤ b.toNat ∧ b.toNat < 0xF0 := by
  simp only [Wire.byteClass]
  split_ifs <;> simp <;> omega

theorem byteClass_eq_systemCommand_iff (b : Byte) : Wire.byteClass b = .systemCommand ↔ 0xF0 ≤ b.toNat := by
  simp only [Wire.byteClass]
  split_ifs <;> simp <;> omega

/-- Command and channel recombine to the byte (R70, R78). -/
theorem channelByte_and_lowNibble (b : Byte) : Wire.channelByte (b &&& 0xF0) (Wire.lowNibble b) = b := by
  revert b; decide

/-- `byte & 0xF0` drops the low nibble. -/
theorem toNat_and_F0 (b : Byte) : (b &&& 0xF0).toNat = b.toNat / 16 * 16 := by
  revert b; decide

/-- The sixteen bytes from a command byte on are that command with each channel (R84). -/
theorem channelByte_lowNibble_of_range {cmd b : Byte} (hcmd : cmd.toNat % 16 = 0) (hlo : cmd.toNat ≤ b.toNat)
    (hhi : b.toNat ≤ cmd.toNat + 15) : Wire.channelByte cmd (Wire.lowNibble b) = b := by
  have hc : b &&& 0xF0 = cmd := by
    apply BitVec.eq_of_toNat_eq
    rw [toNat_and_F0]
    omega
  rw [← hc, channelByte_and_lowNibble]

/-- Settles O5: the classes as ranges of values, and the two fields of a command byte. -/
theorem byteClassesPartition : Obligations.ByteClassesPartition := by
  intro b
  refine ⟨?_, ?_, byteClass_eq_systemCommand_iff b, channelByte_and_lowNibble b, BitVec.toNat_setWidth ..⟩
  · rw [byteClass_eq_data_iff]
    omega
  · rw [byteClass_eq_channelCommand_iff]
    omega

/-! What the RX decoder takes from a delivery. -/

/-- The instruction is one of the context, and its words are the bytes of the delivery up to the rest. -/
def TakesItsWords (c : RxContext) (bs : List Byte) (d : Instr × List Byte) : Prop :=
  d.1.wellFormed = true ∧ d.1.appliesIn c = true ∧ ∃ w, encode d.1 = .feed w ∧ w ≠ [] ∧ bs = w ++ d.2

/-- A row of one byte. -/
theorem takesItsWords_byte {c : RxContext} {i : Instr} {b : Byte} {rest : List Byte} (hw : i.wellFormed = true)
    (ha : i.appliesIn c = true) (he : encode i = .feed [b]) : TakesItsWords c (b :: rest) (i, rest) :=
  ⟨hw, ha, [b], he, List.cons_ne_nil _ _, rfl⟩

/-- A `CH2` frame, whole or its first byte (R71, log 2). -/
theorem takesItsWords_channelFrame {mk : ChannelFrame → Instr} {cmd : Byte} {n : Nibble}
    (hw : ∀ f, (mk f).wellFormed = true) (hwhole : ∀ l h, (mk (.whole n l h)).appliesIn .idle = true)
    (hfirst : (mk (.first n)).appliesIn .idle = true) (he : ∀ f, encode (mk f) = .feed (channelFrameBytes cmd f))
    (rest : List Byte) :
    TakesItsWords .idle (Wire.channelByte cmd n :: rest) (decodeChannelFrame mk n rest) := by
  simp only [decodeChannelFrame]
  split
  · next l h rest =>
    split
    · next hd =>
      obtain ⟨hl, hh⟩ := Bool.and_eq_true_iff.1 hd
      refine ⟨hw _, hwhole _ _, _, he _, List.cons_ne_nil _ _, ?_⟩
      simp only [channelFrameBytes, dataByte_low7 hl, dataByte_low7 hh, List.cons_append, List.nil_append]
    · exact takesItsWords_byte (hw _) hfirst (he _)
  · exact takesItsWords_byte (hw _) hfirst (he _)

/-- A REPORT_VERSION frame, whole or its first byte. -/
theorem takesItsWords_versionFrame (rest : List Byte) :
    TakesItsWords .idle (Wire.reportVersion :: rest) (decodeVersionFrame rest) := by
  simp only [decodeVersionFrame]
  split
  · next m v rest =>
    split
    · next hd =>
      obtain ⟨hm, hv⟩ := Bool.and_eq_true_iff.1 hd
      refine ⟨rfl, rfl, _, rfl, List.cons_ne_nil _ _, ?_⟩
      simp only [versionFrameBytes, dataByte_low7 hm, dataByte_low7 hv, List.cons_append, List.nil_append]
    · exact takesItsWords_byte rfl rfl rfl
  · exact takesItsWords_byte rfl rfl rfl

/-- A sysex frame up to its first END_SYSEX (R83), or START_SYSEX alone. -/
theorem takesItsWords_sysexFrame (bs : List Byte) :
    TakesItsWords .idle (Wire.startSysex :: bs) (decodeSysexFrame bs) := by
  simp only [decodeSysexFrame]
  split
  · next p rest hsplit =>
    obtain ⟨rfl, hp⟩ := splitFrame_spec hsplit
    split
    · next hcap =>
      obtain ⟨hw, ha, he⟩ := classifyPayload_spec p hp hcap
      exact ⟨hw, ha, _, he, List.cons_ne_nil _ _, by simp [sysexFrame]⟩
    · exact takesItsWords_byte rfl rfl rfl
  · exact takesItsWords_byte rfl rfl rfl

/-- A system command in IDLE: START_SYSEX and REPORT_VERSION begin a frame, the others are rows of one byte. -/
theorem takesItsWords_system {b : Byte} (hb : Wire.byteClass b = .systemCommand) (rest : List Byte) :
    TakesItsWords .idle (b :: rest) (decodeSystem b rest) := by
  have hmem := system_commands b hb
  simp only [List.mem_cons, List.not_mem_nil, or_false] at hmem
  obtain rfl | rfl | rfl | rfl | rfl | rfl | rfl | rfl | rfl | rfl | rfl | rfl | rfl | rfl | rfl | rfl := hmem
  · exact takesItsWords_sysexFrame rest
  iterate 8 · exact takesItsWords_byte rfl rfl rfl
  · exact takesItsWords_versionFrame rest
  all_goals exact takesItsWords_byte rfl rfl rfl

/-- A channel command in IDLE: DIGITAL_MESSAGE and ANALOG_MESSAGE begin a frame, the others are rows of one byte. -/
theorem takesItsWords_channel {b : Byte} (hb : Wire.byteClass b = .channelCommand) (rest : List Byte) :
    TakesItsWords .idle (b :: rest) (decodeChannel b rest) := by
  have hmem := channel_commands b hb
  have hjoin := channelByte_and_lowNibble b
  simp only [decodeChannel]
  generalize b &&& 0xF0 = cmd at hmem hjoin
  generalize Wire.lowNibble b = n at hjoin
  subst hjoin
  simp only [List.mem_cons, List.not_mem_nil, or_false] at hmem
  obtain rfl | rfl | rfl | rfl | rfl | rfl | rfl := hmem
  · exact takesItsWords_byte rfl rfl rfl
  · exact takesItsWords_channelFrame (mk := .digitalMessageRx) (fun _ => rfl) (fun _ _ => rfl) rfl (fun _ => rfl) rest
  iterate 4 · exact takesItsWords_byte rfl rfl rfl
  · exact takesItsWords_channelFrame (mk := .analogMessageRx) (fun _ => rfl) (fun _ _ => rfl) rfl (fun _ => rfl) rest

/-- A byte in IDLE, by its class (R84). -/
theorem takesItsWords_idle (b : Byte) (rest : List Byte) : TakesItsWords .idle (b :: rest) (decodeIdle b rest) := by
  simp only [decodeIdle]
  split
  · next hb =>
    have hd : Wire.isData b = true := decide_eq_true ((byteClass_eq_data_iff b).1 hb)
    exact takesItsWords_byte rfl rfl (by rw [encode, dataByte_low7 hd])
  · next hb => exact takesItsWords_channel hb rest
  · next hb => exact takesItsWords_system hb rest

/-- A byte of 0x80 or above is bit 7 and its seven low bits. -/
theorem or_dataByte_low7 {b : Byte} (h : Wire.isData b = false) : 0x80 ||| Wire.dataByte (Wire.low7 b) = b := by
  revert b; decide

/-- A byte while a message is being collected (R108, R109). -/
theorem takesItsWords_awaiting (cmd : ActiveCmd) (b : Byte) (rest : List Byte) :
    TakesItsWords (.awaiting cmd) (b :: rest) (decodeAwaiting cmd b, rest) := by
  simp only [decodeAwaiting]
  split
  · next hd =>
    have hb := dataByte_low7 hd
    cases cmd with
    | none => exact takesItsWords_byte rfl rfl (by rw [encode, hb])
    | digital => exact takesItsWords_byte rfl rfl (by rw [encode, channelFrameBytes, hb])
    | analog => exact takesItsWords_byte rfl rfl (by rw [encode, channelFrameBytes, hb])
    | version => exact takesItsWords_byte rfl rfl (by rw [encode, versionFrameBytes, hb])
  · next hd => exact takesItsWords_byte rfl rfl (by rw [encode, or_dataByte_low7 (Bool.eq_false_of_not_eq_true hd)])

/-- Settles O2: a case for each context. -/
theorem decodedBytesAreItsWords : Obligations.DecodedBytesAreItsWords := by
  intro c bs rest i h
  show TakesItsWords c bs (i, rest)
  cases bs with
  | nil => cases h
  | cons b bs =>
    cases c with
    | idle =>
      obtain ⟨rfl, rfl⟩ := Decoded.instr.inj h
      exact takesItsWords_idle b bs
    | awaiting cmd =>
      obtain ⟨rfl, rfl⟩ := Decoded.instr.inj h
      exact takesItsWords_awaiting cmd b bs
    | inSysex =>
      obtain ⟨rfl, rfl⟩ := Decoded.instr.inj h
      split
      · next hb => exact takesItsWords_byte rfl rfl (by rw [encode, hb])
      · next hb => exact takesItsWords_byte (decide_eq_true hb) rfl rfl
    | overflowed =>
      obtain ⟨rfl, rfl⟩ := Decoded.instr.inj h
      split
      · next hb => exact takesItsWords_byte rfl rfl (by rw [encode, hb])
      · next hb =>
        split
        · next hs => exact takesItsWords_byte rfl rfl (by rw [encode, hs])
        · next hs => exact takesItsWords_byte (decide_eq_true hb) (decide_eq_true hs) rfl

/-- Settles O3: each byte is the word of the row that its range names, and a row decodes from its word. -/
theorem firstByteMapOfIdle : Obligations.FirstByteMapOfIdle := by
  intro b
  have row {i : Instr} (he : encode i = .feed [b]) (hw : i.wellFormed = true) (ha : i.appliesIn .idle = true) :
      decodeRx .idle [b] = .instr i [] := decodeRx_of_encode hw ha he
  have channel (cmd : Byte) (hcmd : cmd.toNat % 16 = 0) (h : cmd.toNat ≤ b.toNat ∧ b.toNat ≤ cmd.toNat + 15) :
      Transaction.feed [Wire.channelByte cmd (b.setWidth 4)] = .feed [b] := by
    rw [← Wire.lowNibble, channelByte_lowNibble_of_range hcmd h.1 h.2]
  refine ⟨fun h => ?_, fun h => row (channel 0x80 rfl h) rfl rfl, fun h => row (channel 0x90 rfl h) rfl rfl,
    fun h => ?_, fun h => row (channel 0xC0 rfl h) rfl rfl, fun h => row (channel 0xD0 rfl h) rfl rfl,
    fun h => row (channel 0xE0 rfl h) rfl rfl, ?_⟩
  · have hd : Wire.isData b = true := decide_eq_true (Nat.lt_succ_of_le h)
    exact row (by rw [encode, ← Wire.low7, dataByte_low7 hd]) rfl rfl
  · by_cases hB : 0xB0 ≤ b.toNat
    · rw [decide_eq_true hB]
      exact row (channel 0xB0 rfl ⟨hB, h.2⟩) rfl rfl
    · rw [decide_eq_false hB]
      exact row (channel 0xA0 rfl ⟨h.1, Nat.le_of_lt_succ (Nat.lt_of_not_le hB)⟩) rfl rfl
  · and_intros
    all_goals
      rintro rfl
      exact row rfl rfl rfl

/-- Settles O4: the decoder evaluates each of the nine deliveries. -/
theorem specWordsDecode : Obligations.SpecWordsDecode := by
  unfold Obligations.SpecWordsDecode
  decide

/-- Settles O9: the meaning of each row against the bytes of its encoding. -/
theorem rxInstructionFeedsItsBytes : Obligations.RxInstructionFeedsItsBytes :=
  fun _ _ s h => Machine.exec_of_encode_feed h s

end Sys2Proof
end

section
/-! The bytes of the encoder operations (R81): every data byte of a frame is below 0x80, and the command bytes stand at
fixed positions. -/

namespace Sys2Proof.Machine

open Sys2Proof.Claims

/-- The bytes of 0x80 and above of a sequence stand only at the positions that `p` names. -/
def HighBytesAt (p : Nat → Bool) (bs : List Byte) : Prop :=
  ∀ k (h : k < bs.length), 0x80 ≤ bs[k].toNat → p k = true

namespace HighBytesAt

variable {p : Nat → Bool} {b : Byte} {bs : List Byte}

/-- Data bytes may stand anywhere. -/
theorem of_data (h : ∀ c ∈ bs, c.toNat < 0x80) : HighBytesAt p bs :=
  fun _ hk hhigh => absurd (h _ (List.getElem_mem hk)) (Nat.not_lt.2 hhigh)

/-- A command byte stands at a position that `p` names. -/
theorem command (h : p 0 = true) (hbs : HighBytesAt (fun k => p (k + 1)) bs) : HighBytesAt p (b :: bs)
  | 0, _, _ => h
  | k + 1, hk, hhigh => hbs k (Nat.lt_of_succ_lt_succ hk) hhigh

theorem data (h : b.toNat < 0x80) (hbs : HighBytesAt (fun k => p (k + 1)) bs) : HighBytesAt p (b :: bs)
  | 0, _, hhigh => absurd h (Nat.not_lt.2 hhigh)
  | k + 1, hk, hhigh => hbs k (Nat.lt_of_succ_lt_succ hk) hhigh

/-- Whatever prefix the ByteSink accepts. -/
theorem take (h : HighBytesAt p bs) (n : Nat) : HighBytesAt p (bs.take n) := by
  intro k hk hhigh
  rw [List.getElem_take] at hhigh
  exact h k (hk.trans_le (List.length_take_le' ..)) hhigh

end HighBytesAt

theorem toNat_dataByte_lt (d : Data7) : (Wire.dataByte d).toNat < 0x80 := of_decide_eq_true (isData_dataByte d)

/-- The two bytes of a 14-bit value are data bytes (R77). -/
theorem toNat_lt_of_mem_split14Bytes {v : Nat} (hv : v < 2 ^ 14) : ∀ b ∈ Codec.split14Bytes v, b.toNat < 0x80 := by
  rw [Codec.split14Bytes_eq]
  simp only [List.mem_cons, List.not_mem_nil, or_false, forall_eq_or_imp, forall_eq, BitVec.toNat_ofNat]
  omega

/-- The five bytes of a step count are data bytes (R182). -/
theorem exists_dataBytes_of_encodeSigned32 {x : Int} {bs : List Byte} (h : Codec.encodeSigned32 x = some bs) :
    ∃ b0 b1 b2 b3 b4 : Byte, bs = [b0, b1, b2, b3, b4] ∧ ∀ b ∈ bs, b.toNat < 0x80 := by
  by_cases hx : -(2 ^ 31 - 1) ≤ x ∧ x ≤ 2 ^ 31 - 1
  · rw [Codec.encodeSigned32_of_mem hx, Option.some.injEq] at h
    subst h
    refine ⟨_, _, _, _, _, rfl, ?_⟩
    simp only [List.mem_cons, List.not_mem_nil, or_false, forall_eq_or_imp, forall_eq, BitVec.toNat_ofNat]
    refine ⟨by omega, by omega, by omega, by omega, ?_⟩
    split <;> omega
  · rw [Codec.encodeSigned32_of_not_mem hx] at h
    cases h

/-- The byte of a pin mode is a data byte (R75). -/
theorem toNat_lt_of_modeOperand {v : Int} {code : Byte} {m : PinMode} (h : modeOperand v = some (code, m)) :
    code.toNat < 0x80 := by
  simp only [modeOperand] at h
  split_ifs at h <;> cases h <;> decide

theorem toNat_toggle_lt (enable : Bool) : (if enable then 1 else 0 : Byte).toNat < 0x80 := by
  cases enable <;> decide

/-- An encoder operation other than `sendSysex` ends with the error, or it emits a frame whose command bytes stand at
their positions (R81, R152 to R160). -/
theorem encoder_refuses_or_emits {i : Instr} {s t : State} (hi : IsEncoder i)
    (hsys : ∀ payload, i ≠ .sendSysex payload) (hs : s.Inv) (h : exec i s = .next t) :
    t = raiseError .invalidArgument s ∨
      ∃ frame d, t = emitAndReturn frame (s.withDevice d) ∧ HighBytesAt (commandPosition i) frame := by
  cases i with
  | setPinMode pin mode =>
    simp only [exec, execSetPinMode] at h
    split at h <;> cases h
    · next p code m _ hm =>
      exact .inr ⟨_, _, rfl, .command rfl (.data (toNat_dataByte_lt p) (.data (toNat_lt_of_modeOperand hm)
        (.of_data nofun)))⟩
    · exact .inl rfl
  | digitalWrite pin value =>
    simp only [exec, execDigitalWrite] at h
    split at h <;> cases h
    · next p level _ _ =>
      have hport := writtenPort_bits _ p level (hs.device.portBits (portOfPin p))
      exact .inr ⟨_, _, rfl, .command rfl (.of_data (toNat_lt_of_mem_split14Bytes hport))⟩
    · exact .inl rfl
  | analogWrite pin value =>
    simp only [exec, execAnalogWrite] at h
    split at h <;> cases h
    · next p v _ _ =>
      have hv : v.toNat < 2 ^ 14 := v.isLt.trans (by decide)
      exact .inr ⟨_, _, rfl, .command rfl (.data (toNat_dataByte_lt p) (.data (by decide)
        (.command rfl (.of_data (toNat_lt_of_mem_split14Bytes hv)))))⟩
    · exact .inl rfl
  | servoWrite pin value =>
    simp only [exec, execServoWrite] at h
    split at h <;> cases h
    · next p v _ _ =>
      have hv : v.toNat < 2 ^ 14 := v.isLt.trans (by decide)
      exact .inr ⟨_, s.device, rfl, .command rfl (.of_data (toNat_lt_of_mem_split14Bytes hv))⟩
    · exact .inl rfl
  | sendSysex payload => exact absurd rfl (hsys payload)
  | reportAnalog channel enable =>
    simp only [exec, execReportAnalog] at h
    split at h <;> cases h
    · exact .inr ⟨_, s.device, rfl, .command rfl (.data (toNat_toggle_lt enable) (.of_data nofun))⟩
    · exact .inl rfl
  | reportDigital port enable =>
    simp only [exec, execReportDigital] at h
    split at h <;> cases h
    · exact .inr ⟨_, s.device, rfl, .command rfl (.data (toNat_toggle_lt enable) (.of_data nofun))⟩
    · exact .inl rfl
  | stepperStep index steps =>
    simp only [exec, execStepperStep] at h
    split at h <;> cases h
    · next k count _ hcount =>
      obtain ⟨b0, b1, b2, b3, b4, rfl, hb⟩ := exists_dataBytes_of_encodeSigned32 hcount
      simp only [List.mem_cons, List.not_mem_nil, or_false, forall_eq_or_imp, forall_eq] at hb
      obtain ⟨h0, h1, h2, h3, h4⟩ := hb
      exact .inr ⟨_, _, rfl, .command rfl (.data (by decide) (.data (toNat_dataByte_lt _) (.data (toNat_dataByte_lt k)
        (.data h0 (.data h1 (.data h2 (.data h3 (.data h4 (.command rfl (.of_data nofun))))))))))⟩
    · exact .inl rfl
  | _ => exact hi.elim

/-- Settles O39: nothing is written, or a prefix of the frame. -/
theorem encoderDataBytesAreSevenBitSafe : Obligations.EncoderDataBytesAreSevenBitSafe := by
  intro i s t hi hsys hs h
  obtain rfl | ⟨frame, d, rfl, hframe⟩ := encoder_refuses_or_emits hi hsys hs h
  · exact ⟨[], (List.append_nil _).symm, nofun⟩
  · obtain ⟨k, hk⟩ := emitAndReturn_tx frame (s.withDevice d)
    exact ⟨_, hk, hframe.take k⟩

end Sys2Proof.Machine
end

section
/-! What one `feed` returns and leaves alone (R100, R117): `FeedCase` describes it from both sides, and the bytes of a
whole delivery leave the environment's side as it was. -/

namespace Sys2Proof.Machine

open Sys2Proof.Claims

/-- `FeedCase` is exact: each procedure of the selection answers when its guard holds (R101). -/
theorem feed_eq_next_iff {b : Byte} {s t : State} : feed b s = .next t ↔ FeedCase b s t := by
  refine ⟨feed_cases, fun h => ?_⟩
  cases h with
  | idle hx hc => exact feed_idle b s hx hc
  | abandon hx hc hb => exact feed_abandon b s hx hc hb
  | dataByte hx hc hb hl =>
    rw [feed_data b s hx (Nat.zero_lt_of_lt hc) hb]
    simp only [multiData, Memory.write_of_lt hl]
    rw [if_pos (Nat.sub_pos_of_lt hc)]
  | lastByte d r hx hc hb hm =>
    rw [feed_data b s hx (hc ▸ Nat.one_pos) hb]
    simp only [multiData, hc, Nat.sub_self, Memory.write_of_lt (show 0 < Config.sysexCap by decide), gt_iff_lt,
      Nat.lt_irrefl, if_false, hm]
    rfl
  | discardEnd hx ho hb => rw [feed_discard b s hx ho, sysexDiscard, if_pos hb]
  | discardStart hx ho hb =>
    subst hb
    rw [feed_discard _ s hx ho, sysexDiscard, if_neg (by decide), if_pos rfl]
  | discard hx ho hend hstart =>
    rw [feed_discard b s hx ho, sysexDiscard, if_neg hend, if_neg hstart]
    rfl
  | frameEnd payload hx ho hb hr =>
    rw [hb, feed_end s hx ho]
    simp only [sysexEnd, hr]
  | append hx ho hb hl => exact feed_append b s hx ho hb hl
  | overflow hx ho hb hl => exact feed_overflow b s hx ho hb hl

/-- A completed message returns its event (R117). -/
theorem completeMessage_returns_event {p : ParserState} {d e : DeviceState} {r : Response}
    (h : completeMessage p d = some (e, r)) : ∃ ev, r = .event ev := by
  simp only [completeMessage] at h
  split at h <;> cases h <;> exact ⟨_, rfl⟩

/-- MOVE_COMPLETE returns its event, or `None` where it names no stepper (R134). -/
theorem moveComplete_returns (p : Params) (args : List Byte) (d : DeviceState) :
    (moveComplete p args d).2 = .nothing ∨ ∃ ev, (moveComplete p args d).2 = .event ev := by
  cases args with
  | nil => exact .inl rfl
  | cons idx args =>
    simp only [moveComplete]
    split
    · exact .inl rfl
    · exact .inr ⟨_, rfl⟩

/-- An extension reply returns its event, or `None` where the frame is too short (R135). -/
theorem extensionReply_returns (args : List Byte) (d : DeviceState) :
    (extensionReply args d).2 = .nothing ∨ ∃ ev, (extensionReply args d).2 = .event ev := by
  simp only [extensionReply]
  split
  · exact .inr ⟨_, rfl⟩
  · exact .inl rfl

/-- The dispatcher returns `None` or an event, never an error (R117, R130). -/
theorem dispatch_returns (p : Params) (payload : List Byte) (d : DeviceState) :
    (dispatch p payload d).2 = .nothing ∨ ∃ ev, (dispatch p payload d).2 = .event ev := by
  cases payload with
  | nil => exact .inl rfl
  | cons sub args =>
    simp only [dispatch]
    split
    · exact .inl rfl
    · split
      · split
        · exact .inl rfl
        · split
          · exact moveComplete_returns p _ d
          · exact .inl rfl
      · split
        · exact extensionReply_returns args d
        · exact .inl rfl

/-- Settles O23: each procedure appends one result; only the overflow of an open frame appends an error. -/
theorem feedReturnsOneResult : Obligations.FeedReturnsOneResult := by
  intro b s t h
  constructor
  · cases feed_cases h <;> exact ⟨rfl, rfl, rfl, rfl, rfl⟩
  cases feed_cases h with
  | idle hx => exact ⟨_, rfl, by simp [hx]⟩
  | abandon hx => exact ⟨_, rfl, by simp [hx]⟩
  | dataByte hx => exact ⟨_, rfl, by simp [hx]⟩
  | lastByte d r hx hc hb hm =>
    obtain ⟨ev, rfl⟩ := completeMessage_returns_event hm
    exact ⟨_, rfl, .inr (.inl ⟨ev, rfl, rfl⟩), by simp [hx]⟩
  | discardEnd hx ho => exact ⟨_, rfl, by simp [ho]⟩
  | discardStart hx ho => exact ⟨_, rfl, by simp [ho]⟩
  | discard hx ho => exact ⟨_, rfl, by simp [ho]⟩
  | frameEnd payload hx ho hb =>
    have hr := dispatch_returns s.params payload s.device
    refine ⟨_, rfl, hr.imp_right fun ⟨ev, hev⟩ => .inl ⟨ev, hev, rfl⟩, ?_⟩
    obtain hr | ⟨ev, hr⟩ := hr <;> simp [hr, hb]
  | append hx ho hb hl =>
    have hroom : ¬4096 ≤ s.parser.sysexLength := Nat.not_le.2 hl
    exact ⟨_, rfl, by simp [hroom]⟩
  | overflow hx ho hb hl => exact ⟨_, rfl, .inr (.inr rfl), fun _ => ⟨hx, ho, hb, hl⟩, fun _ => rfl⟩

/-- A delivery touches the parser, the device and the results alone (R100). -/
theorem feedAll_envSame {bs : List Byte} {s t : State} (h : feedAll bs s = .next t) : EnvSame s t := by
  induction bs generalizing s with
  | nil => cases h; exact ⟨rfl, rfl, rfl, rfl, rfl⟩
  | cons b bs ih =>
    rw [feedAll_cons] at h
    cases hb : feed b s with
    | next u =>
      rw [hb] at h
      obtain ⟨he, -⟩ := feedReturnsOneResult b s u hb
      have hu := ih h
      exact ⟨hu.params.trans he.params, hu.pending.trans he.pending, hu.tx.trans he.tx,
        hu.sinkScript.trans he.sinkScript, hu.sinkWrites.trans he.sinkWrites⟩
    | fault r => rw [hb] at h; cases h
    | refused r => rw [hb] at h; cases h

end Sys2Proof.Machine
end

section
/-! A byte in IDLE and the two data bytes of a message (41_stream_parser.md sections 3 and 4): what the first byte of a
message starts, what is ignored, and what a completed message stores. -/

namespace Sys2Proof.Machine

open Sys2Proof.Claims

/-- A row of one byte is the `feed` of that byte (R101). -/
theorem exec_of_encode_byte {i : Instr} {b : Byte} (h : encode i = .feed [b]) (s : State) : exec i s = feed b s :=
  (exec_of_encode_feed h s).trans (feedAll_one b s)

/-- A row of one byte in IDLE is dispatched by R102. -/
theorem exec_idle {i : Instr} {b : Byte} {s : State} (hs : InIdle s) (h : encode i = .feed [b]) :
    exec i s = .next ((s.withParser (idleDispatch b s.parser)).respond .nothing) :=
  (exec_of_encode_byte h s).trans (feed_idle b s hs.inSysex hs.pending)

/-- A row of one byte that starts nothing leaves the state as it is (R107). -/
theorem exec_idle_ignored {i : Instr} {b : Byte} {s : State} (hs : InIdle s) (h : encode i = .feed [b])
    (hb : startsFrame b = false) : exec i s = .next (s.respond .nothing) := by
  rw [exec_idle hs h, idleDispatch_ignored b s.parser hb]
  rfl

/-- A command byte whose channel rows are no message starts nothing (R84, R107). -/
theorem startsFrame_channelByte {cmd : Byte} (h : cmd ∈ ([0x80, 0xA0, 0xB0, 0xC0, 0xD0] : List Byte)) (n : Nibble) :
    startsFrame (Wire.channelByte cmd n) = false := by
  simp only [List.mem_cons, List.not_mem_nil, or_false] at h
  obtain rfl | rfl | rfl | rfl | rfl := h <;> revert n <;> decide

theorem startsFrame_dataByte (d : Data7) : startsFrame (Wire.dataByte d) = false := by
  revert d; decide

/-- Settles O11: none of the nineteen rows starts a frame. -/
theorem ignoredBytesInIdle : Obligations.IgnoredBytesInIdle := by
  intro s hs
  have ignored {i : Instr} {b : Byte} := exec_idle_ignored (i := i) (b := b) hs
  refine ⟨fun d => ignored rfl (startsFrame_dataByte d), fun n => ignored rfl (startsFrame_channelByte (by decide) n),
    fun x n => ?_, fun n => ignored rfl (startsFrame_channelByte (by decide) n),
    fun n => ignored rfl (startsFrame_channelByte (by decide) n), ?_⟩
  · cases x <;> exact ignored rfl (startsFrame_channelByte (by decide) n)
  · and_intros <;> exact ignored rfl (by decide)

/-- Settles O12: what `IdleDispatch` makes of the three first bytes. -/
theorem firstBytesStartAMessage : Obligations.FirstBytesStartAMessage := by
  intro s hs
  refine ⟨fun n => ?_, fun n => ?_, ?_⟩
  · rw [exec_idle hs rfl, idleDispatch_digital]; rfl
  · rw [exec_idle hs rfl, idleDispatch_analog]; rfl
  · rw [exec_idle hs rfl, idleDispatch_version]; rfl

/-- Settles O18: `IdleDispatch` on START_SYSEX. -/
theorem startSysexOpensFrame : Obligations.StartSysexOpensFrame := by
  intro s hs
  rw [exec_idle hs rfl, idleDispatch_startSysex]; rfl

/-- What R102 compares with the command constants: the high nibble below 0xF0, the whole byte from there on. -/
def commandOf (b : Byte) : Byte := if b.toNat < 0xF0 then b &&& 0xF0 else b

theorem idleDispatch_eq (b : Byte) (p : ParserState) :
    idleDispatch b p =
      if commandOf b = Wire.digitalMessage then startMessage .digital (Wire.lowNibble b) p
      else if commandOf b = Wire.analogMessage then startMessage .analog (Wire.lowNibble b) p
      else if commandOf b = Wire.reportVersion then startMessage .version p.activeChannel p
      else if commandOf b = Wire.startSysex then p.openSysex
      else p := rfl

/-- `IdleDispatch` on a byte of 0x80 or above, by its seven low bits (R102). -/
theorem idleDispatch_highByte (b : Data7) (p : ParserState) :
    idleDispatch (0x80 ||| Wire.dataByte b) p =
      if b &&& 0x70 = 0x10 then startMessage .digital (b.setWidth 4) p
      else if b &&& 0x70 = 0x60 then startMessage .analog (b.setWidth 4) p
      else if b = 0x79 then startMessage .version p.activeChannel p
      else if b = 0x70 then p.openSysex
      else p := by
  have hnibble : Wire.lowNibble (0x80 ||| Wire.dataByte b) = b.setWidth 4 := by revert b; decide
  have hdigital : commandOf (0x80 ||| Wire.dataByte b) = Wire.digitalMessage ↔ b &&& 0x70 = 0x10 := by
    revert b; decide
  have hanalog : commandOf (0x80 ||| Wire.dataByte b) = Wire.analogMessage ↔ b &&& 0x70 = 0x60 := by
    revert b; decide
  have hversion : commandOf (0x80 ||| Wire.dataByte b) = Wire.reportVersion ↔ b = 0x79 := by revert b; decide
  have hsysex : commandOf (0x80 ||| Wire.dataByte b) = Wire.startSysex ↔ b = 0x70 := by revert b; decide
  simp only [idleDispatch_eq, hnibble, hdigital, hanalog, hversion, hsysex]

/-- Settles O17: the message is abandoned (R109), and the byte is dispatched in the IDLE state that is left (R102). -/
theorem highByteAbandonsMessage : Obligations.HighByteAbandonsMessage := by
  intro s b hx hp
  have hb : Wire.isData (0x80 ||| Wire.dataByte b) = false := by revert b; decide
  refine ⟨_, (exec_of_encode_byte rfl s).trans (feed_abandon _ s hx hp hb), ⟨rfl, rfl, rfl, rfl, rfl⟩, rfl, rfl, ?_⟩
  exact idleDispatch_highByte b s.parser.toIdle

/-! The completion of a message. -/

/-- The parser at the completion of a message: the last data byte stands at index 0 and none is owed (R108). -/
def ParserState.withLastByte (d : Data7) (p : ParserState) : ParserState :=
  { p with pendingByteCount := 0, sysexBuffer := Memory.put p.sysexBuffer 0 (Wire.dataByte d) }

/-- The 14-bit value of R110 and R111: the byte at index 1 is its low part. -/
theorem messageValue_withLastByte {p : ParserState} (hm : Memory.wf p.sysexBuffer = true) (d : Data7) :
    messageValue (p.withLastByte d) = BitVec.ofNat 14 ((Memory.get p.sysexBuffer 1).toNat + 128 * d.toNat) := by
  have hd : (Wire.dataByte d).toNat = d.toNat := BitVec.toNat_setWidth_of_le (by decide)
  rw [messageValue, ParserState.withLastByte, Memory.get_put hm, Memory.get_put hm, if_pos rfl, if_neg Nat.one_ne_zero,
    hd, Nat.shiftLeft_eq]
  congr 1
  omega

/-- A port register holds the 14 bits of a message unchanged (R29). -/
theorem setWidth_ofNat_14 {v : Nat} (h : v < 2 ^ 14) : (BitVec.ofNat 14 v).setWidth 16 = BitVec.ofNat 16 v := by
  apply BitVec.eq_of_toNat_eq
  simp only [BitVec.toNat_setWidth, BitVec.toNat_ofNat]
  omega

theorem completeMessage_withLastByte_digital {p : ParserState} (hp : p.activeCmd = .digital)
    (hm : Memory.wf p.sysexBuffer = true) (hlo : (Memory.get p.sysexBuffer 1).toNat < 0x80) (d : Data7)
    (dev : DeviceState) : completeMessage (p.withLastByte d) dev =
      some (dev.setPort p.activeChannel (BitVec.ofNat 16 ((Memory.get p.sysexBuffer 1).toNat + 128 * d.toNat)),
        .event (.digitalPortChanged p.activeChannel
          (BitVec.ofNat 14 ((Memory.get p.sysexBuffer 1).toNat + 128 * d.toNat)))) := by
  have hd := d.isLt
  rw [← setWidth_ofNat_14 (by omega), ← messageValue_withLastByte hm]
  simp only [completeMessage, ParserState.withLastByte, hp]
  rfl

theorem completeMessage_withLastByte_analog {p : ParserState} (hp : p.activeCmd = .analog)
    (hm : Memory.wf p.sysexBuffer = true) (d : Data7) (dev : DeviceState) : completeMessage (p.withLastByte d) dev =
      some (dev.setAnalogValue p.activeChannel
          (BitVec.ofNat 14 ((Memory.get p.sysexBuffer 1).toNat + 128 * d.toNat)),
        .event (.analogChannelChanged p.activeChannel
          (BitVec.ofNat 14 ((Memory.get p.sysexBuffer 1).toNat + 128 * d.toNat)))) := by
  rw [← messageValue_withLastByte hm]
  simp only [completeMessage, ParserState.withLastByte, hp]
  rfl

theorem completeMessage_withLastByte_version {p : ParserState} (hp : p.activeCmd = .version)
    (hm : Memory.wf p.sysexBuffer = true) (d : Data7) (dev : DeviceState) : completeMessage (p.withLastByte d) dev =
      some (dev.setFwVersion ((Memory.get p.sysexBuffer 1).setWidth 7) d,
        .event (.versionReported ((Memory.get p.sysexBuffer 1).setWidth 7) d)) := by
  simp only [completeMessage, ParserState.withLastByte, hp, completeVersion, Memory.get_put hm, if_true,
    if_neg Nat.one_ne_zero, low7_dataByte]
  rfl

/-- Settles O13: the first data byte by `feed_firstData`, the last by `feed_lastData` with the completion of its kind. -/
theorem dataBytesFillAndComplete : Obligations.DataBytesFillAndComplete := by
  intro s d hs i hi
  have hact : s.parser.activeCmd ≠ .none := by
    obtain ⟨h, -⟩ | ⟨h, -⟩ | ⟨h, -⟩ := hi <;> rw [h] <;> exact nofun
  have hx : s.parser.inSysex = false := Bool.eq_false_of_not_eq_true fun h => hact (hs.parser.sysexAlone h).2
  have hfeed : exec i s = feed (Wire.dataByte d) s := by
    obtain ⟨-, rfl⟩ | ⟨-, rfl⟩ | ⟨-, rfl⟩ := hi <;> exact exec_of_encode_byte rfl s
  have hwf := hs.parser.bufferWf
  refine ⟨fun hp => ?_, fun hp => ?_⟩
  · exact ⟨_, hfeed.trans (feed_firstData d s hx hp), ⟨rfl, rfl, rfl, rfl, rfl⟩, rfl, rfl, rfl,
      fun a => Memory.get_put hwf 1 a _⟩
  · obtain ⟨dev, r, hc⟩ := completeMessage_isSome (p := s.parser.withLastByte d) s.device hact
    refine ⟨_, r, hfeed.trans (feed_lastData d s hx hp dev r hc), ⟨rfl, rfl, rfl, rfl, rfl⟩,
      ⟨rfl, rfl, rfl, rfl, rfl, rfl⟩, rfl, fun a => Memory.get_put hwf 0 a _, fun ha => ?_, fun ha => ?_, fun ha => ?_⟩
    · rw [completeMessage_withLastByte_digital ha hwf (hs.parser.firstDataByte hp)] at hc
      cases hc
      exact ⟨rfl, rfl⟩
    · rw [completeMessage_withLastByte_analog ha hwf] at hc
      cases hc
      exact ⟨rfl, rfl⟩
    · rw [completeMessage_withLastByte_version ha hwf] at hc
      cases hc
      exact ⟨rfl, rfl⟩

/-! A whole message outside a sysex frame. -/

/-- The parser at the completion of a message that came whole (R103 to R105, R108). -/
def ParserState.withMessage (cmd : ActiveCmd) (n : Nibble) (l h : Data7) (p : ParserState) : ParserState :=
  startMessage cmd n { p.atFrameStart with sysexBuffer := messageBuffer p.sysexBuffer l h }

theorem messageValue_withMessage {p : ParserState} (hm : Memory.wf p.sysexBuffer = true) (cmd : ActiveCmd) (n : Nibble)
    (l h : Data7) : messageValue (p.withMessage cmd n l h) = value14 l h :=
  messageValue_messageBuffer _ _ hm l h rfl

theorem toNat_value14 (l h : Data7) : (value14 l h).toNat = l.toNat + 128 * h.toNat := by
  have hl := l.isLt
  have hh := h.isLt
  rw [value14, BitVec.toNat_ofNat]
  omega

/-- What the three bytes of a message do outside Device State: the completion returns the third result, the parser is
in IDLE, and the data bytes stand at indices 1 and 0. -/
theorem feedAll_message_spec {first : Byte} {cmd : ActiveCmd} {n : Nibble} {l h : Data7} {s : State}
    (hs : OutsideSysex s) (hd : Wire.isData first = false)
    (hfirst : idleDispatch first s.parser.atFrameStart = startMessage cmd n s.parser.atFrameStart)
    {dev : DeviceState} {r : Response}
    (hc : completeMessage (s.parser.withMessage cmd n l h) s.device = some (dev, r)) :
    ∃ t, feedAll [first, Wire.dataByte l, Wire.dataByte h] s = .next t ∧ EnvSame s t ∧ IsIdle t.parser ∧
      t.returned = s.returned ++ [.nothing, .nothing, r] ∧ t.device = dev ∧
      ∀ a, Memory.get t.parser.sysexBuffer a =
        if a = 0 then h.setWidth 8 else if a = 1 then l.setWidth 8 else Memory.get s.parser.sysexBuffer a :=
  ⟨_, feedAll_message first l h cmd n s hs.inSysex hd hfirst dev r hc, ⟨rfl, rfl, rfl, rfl, rfl⟩,
    ⟨rfl, rfl, rfl, rfl, rfl, rfl⟩, rfl, rfl, messageBuffer_get hs.bufferWf l h⟩

/-- Settles O14: the completion of R110. -/
theorem digitalMessageOverwritesPort : Obligations.DigitalMessageOverwritesPort := by
  intro s n l h hs
  have hc : completeMessage (s.parser.withMessage .digital n l h) s.device =
      some (s.device.setPort n ((value14 l h).setWidth 16), .event (.digitalPortChanged n (value14 l h))) := by
    rw [← messageValue_withMessage hs.bufferWf .digital n]
    rfl
  obtain ⟨t, ht, henv, hidle, hret, hdev, hbuf⟩ := feedAll_message_spec hs
    (isData_channelByte Wire.digitalMessage n rfl) (idleDispatch_digital n _) hc
  refine ⟨t, ht, henv, hidle, hret, ?_, fun m hm => ?_, ?_, hbuf⟩
  · rw [hdev, DeviceState.portAt_setPort, if_pos rfl, BitVec.toNat_setWidth_of_le (by decide), toNat_value14]
  · rw [hdev, DeviceState.portAt_setPort, if_neg hm]
  · rw [hdev]; rfl

/-- Settles O15: the completion of R111. -/
theorem analogMessageStoresReading : Obligations.AnalogMessageStoresReading := by
  intro s n l h hs
  have hc : completeMessage (s.parser.withMessage .analog n l h) s.device =
      some (s.device.setAnalogValue n (value14 l h), .event (.analogChannelChanged n (value14 l h))) := by
    rw [← messageValue_withMessage hs.bufferWf .analog n]
    rfl
  obtain ⟨t, ht, henv, hidle, hret, hdev, hbuf⟩ := feedAll_message_spec hs
    (isData_channelByte Wire.analogMessage n rfl) (idleDispatch_analog n _) hc
  refine ⟨t, ht, henv, hidle, hret, ?_, fun m hm => ?_, ?_, hbuf⟩
  · rw [hdev, DeviceState.analogValueAt_setAnalogValue, if_pos rfl, toNat_value14]
  · rw [hdev, DeviceState.analogValueAt_setAnalogValue, if_neg hm]
  · rw [hdev]; rfl

/-- Settles O16: the completion of R112, the first data byte, at index 1, as major. -/
theorem versionMessageStoresPair : Obligations.VersionMessageStoresPair := by
  intro s m v hs
  have hc : completeMessage (s.parser.withMessage .version s.parser.atFrameStart.activeChannel m v) s.device =
      some (s.device.setFwVersion m v, .event (.versionReported m v)) := by
    simp only [completeMessage, ParserState.withMessage, startMessage, completeVersion, messageBuffer_get hs.bufferWf,
      if_true, if_neg Nat.one_ne_zero, low7_dataByte]
  obtain ⟨t, ht, henv, hidle, hret, hdev, hbuf⟩ := feedAll_message_spec hs (by decide) (idleDispatch_version _) hc
  refine ⟨t, ht, henv, hidle, hret, ?_, ?_, ?_, hbuf⟩ <;> rw [hdev] <;> rfl

end Sys2Proof.Machine
end

section
/-! A byte inside a sysex frame (41_stream_parser.md section 5): payload, the end of the frame, the overflow and the
discarding that follows it. -/

namespace Sys2Proof.Machine

open Sys2Proof.Claims

/-- Settles O19: `SysexAppend` (R113), for both rows the byte decodes to. -/
theorem payloadByteIsAppended : Obligations.PayloadByteIsAppended := by
  intro s b i hs hwf hl hb hi
  have hfeed : exec i s = feed b s := by
    obtain rfl | ⟨rfl, rfl⟩ := hi <;> exact exec_of_encode_byte rfl s
  exact ⟨_, hfeed.trans (feed_append b s hs.inSysex hs.overflowed hb hl), ⟨rfl, rfl, rfl, rfl, rfl⟩, rfl, rfl, rfl,
    fun a => Memory.get_put hwf s.parser.sysexLength a b⟩

/-- Settles O20: `SysexOverflow` (R114), for both rows the byte decodes to. -/
theorem overflowOnThe4097thByte : Obligations.OverflowOnThe4097thByte := by
  intro s b hs hl hb
  refine ⟨?_, ?_⟩
  · exact (exec_of_encode_byte rfl s).trans (feed_overflow b s hs.inSysex hs.overflowed hb hl.ge)
  · rintro rfl
    rfl

/-- Settles O21: the three branches of `SysexDiscard` (R115). -/
theorem overflowedFrameIsDiscarded : Obligations.OverflowedFrameIsDiscarded := by
  intro s hs
  have discard {i : Instr} {b : Byte} {t : State} (he : encode i = .feed [b]) (h : FeedCase b s t) : exec i s = .next t :=
    (exec_of_encode_byte he s).trans (feed_eq_next_iff.2 h)
  obtain ⟨hx, ho⟩ := hs
  refine ⟨?_, discard rfl (.discardStart hx ho rfl), fun b hend hstart => discard rfl (.discard hx ho hend hstart)⟩
  exact ⟨_, discard rfl (.discardEnd hx ho rfl), ⟨rfl, rfl, rfl, rfl, rfl⟩, rfl, ⟨rfl, rfl, rfl, rfl, rfl, rfl⟩, rfl, rfl⟩

/-- Settles O22: `SysexEnd` (R116) on the payload that lies in the buffer. -/
theorem endSysexDispatchesThePayload : Obligations.EndSysexDispatchesThePayload := by
  intro s payload hs hl hcap hget
  have hexec := (exec_of_encode_byte (i := .endSysexRx) rfl s).trans (feed_end s hs.inSysex hs.overflowed)
  exact ⟨_, hexec.trans (sysexEnd_eq payload s hl hcap hget), ⟨rfl, rfl, rfl, rfl, rfl⟩,
    ⟨rfl, rfl, rfl, rfl, rfl, rfl⟩, rfl, rfl, rfl⟩

end Sys2Proof.Machine
end

section
/-! Runs over pending transactions: however a delivery is cut, the same bytes are fed (log 2), and admissible
transactions are worked off within their bound (D28, log 14). -/

namespace Sys2Proof.Machine

open Sys2Proof.Claims

/-- The state with other transactions pending and other results returned: what no `feed` looks at (log 1, log 3). -/
def State.carrying (queue : List Transaction) (results : List Response) (s : State) : State :=
  { s with pending := queue, returned := results }

/-- A `feed` does not see what is pending or returned; it adds its one result. -/
theorem FeedCase.carrying {b : Byte} {s t : State} (h : FeedCase b s t) :
    ∃ r, ∀ queue results, FeedCase b (s.carrying queue results) (t.carrying queue (results ++ [r])) := by
  cases h with
  | idle hx hc => exact ⟨_, fun q rs => .idle (s := s.carrying q rs) hx hc⟩
  | abandon hx hc hb => exact ⟨_, fun q rs => .abandon (s := s.carrying q rs) hx hc hb⟩
  | dataByte hx hc hb hl => exact ⟨_, fun q rs => .dataByte (s := s.carrying q rs) hx hc hb hl⟩
  | lastByte d r hx hc hb hm => exact ⟨_, fun q rs => .lastByte (s := s.carrying q rs) d r hx hc hb hm⟩
  | discardEnd hx ho hb => exact ⟨_, fun q rs => .discardEnd (s := s.carrying q rs) hx ho hb⟩
  | discardStart hx ho hb => exact ⟨_, fun q rs => .discardStart (s := s.carrying q rs) hx ho hb⟩
  | discard hx ho hend hstart => exact ⟨_, fun q rs => .discard (s := s.carrying q rs) hx ho hend hstart⟩
  | frameEnd payload hx ho hb hr =>
    exact ⟨(dispatch s.params payload s.device).2, fun q rs => .frameEnd (s := s.carrying q rs) payload hx ho hb hr⟩
  | append hx ho hb hl => exact ⟨_, fun q rs => .append (s := s.carrying q rs) hx ho hb hl⟩
  | overflow hx ho hb hl => exact ⟨_, fun q rs => .overflow (s := s.carrying q rs) hx ho hb hl⟩

/-- Bytes that are answered one after the other: the first part of them, then the rest. -/
theorem feedAll_append_next {as bs : List Byte} {s t : State} (h : feedAll (as ++ bs) s = .next t) :
    ∃ u, feedAll as s = .next u ∧ feedAll bs u = .next t := by
  rw [feedAll_append] at h
  cases ha : feedAll as s with
  | next u => rw [ha] at h; exact ⟨u, rfl, h⟩
  | fault r => rw [ha] at h; cases h
  | refused r => rw [ha] at h; cases h

/-- A delivery does not see what is pending or returned. -/
theorem feedAll_carrying {bs : List Byte} {s t : State} (h : feedAll bs s = .next t) (queue : List Transaction)
    (results : List Response) :
    ∃ results', feedAll bs (s.carrying queue results) = .next (t.carrying queue results') := by
  induction bs generalizing s results with
  | nil => cases h; exact ⟨results, rfl⟩
  | cons b bs ih =>
    obtain ⟨u, hb, hbs⟩ := feedAll_append_next (as := [b]) h
    rw [feedAll_one] at hb
    obtain ⟨r, hr⟩ := (feed_cases hb).carrying
    obtain ⟨results', hres⟩ := ih hbs (results ++ [r])
    exact ⟨results', by rw [feedAll_cons, feed_eq_next_iff.2 (hr queue results), andThen_next, hres]⟩

/-- Deliveries that stay pending when the first has been worked off up to `rest`. -/
def remaining (rest : List Byte) (deliveries : List (List Byte)) : List (List Byte) :=
  if rest = [] then deliveries else rest :: deliveries

theorem stillPending_map_feed (rest : List Byte) (deliveries : List (List Byte)) (queue : List Transaction) :
    stillPending rest (deliveries.map .feed ++ queue) = (remaining rest deliveries).map .feed ++ queue := by
  rw [stillPending_eq_ite, remaining]
  split <;> rfl

theorem flatten_remaining (rest : List Byte) (deliveries : List (List Byte)) :
    (remaining rest deliveries).flatten = rest ++ deliveries.flatten := by
  rw [remaining]
  split
  · next h => rw [h, List.nil_append]
  · rfl

theorem ne_nil_of_mem_remaining {rest : List Byte} {deliveries : List (List Byte)} (h : ∀ bs ∈ deliveries, bs ≠ []) :
    ∀ bs ∈ remaining rest deliveries, bs ≠ [] := by
  rw [remaining]
  split
  · exact h
  · next hr => exact List.forall_mem_cons.2 ⟨hr, h⟩

theorem length_le_length_remaining (rest : List Byte) (deliveries : List (List Byte)) :
    deliveries.length ≤ (remaining rest deliveries).length := by
  rw [remaining]
  split
  · exact le_rfl
  · exact Nat.le_succ _

/-- One step feeds a non-empty first part of the delivery at the head of `pending`, and the rest stays (log 2). -/
theorem step_delivery {b : Byte} {bs : List Byte} {queue : List Transaction} {s : State}
    (hp : s.pending = .feed (b :: bs) :: queue) :
    ∃ w rest, w ≠ [] ∧ b :: bs = w ++ rest ∧ step s = feedAll w (s.begin (stillPending rest queue)) := by
  obtain ⟨i, rest, hd⟩ := decodeRx_total s.parser.context b bs
  obtain ⟨-, -, w, he, hw, hbs⟩ := decodedBytesAreItsWords _ _ _ _ hd
  exact ⟨w, rest, hw, hbs, (step_feed hp hd).trans (exec_of_encode_feed he _)⟩

/-- Deliveries are worked off by feeding all their bytes, in at least a step a delivery and at most a step a byte. -/
theorem run_deliveries (deliveries : List (List Byte)) (hne : ∀ bs ∈ deliveries, bs ≠ []) {s u : State}
    (h : feedAll deliveries.flatten s = .next u) (queue : List Transaction) (results : List Response) :
    ∃ k results', deliveries.length ≤ k ∧ k ≤ deliveries.flatten.length ∧
      core.run k (s.carrying (deliveries.map .feed ++ queue) results) = .next (u.carrying queue results') := by
  match deliveries, hne, h with
  | [], _, h =>
    cases h
    exact ⟨0, results, le_rfl, le_rfl, rfl⟩
  | [] :: _, hne, _ => exact absurd rfl (hne [] (List.mem_cons_self ..))
  | (b :: bs) :: later, hne, h =>
    obtain ⟨w, rest, hw, hbs, hstep⟩ := step_delivery
      (s := s.carrying (.feed (b :: bs) :: (later.map .feed ++ queue)) results) rfl
    have hlen : bs.length + 1 = w.length + rest.length := by
      rw [← List.length_append, ← hbs, List.length_cons]
    have hpos := List.length_pos_iff.2 hw
    have hmore := length_le_length_remaining rest later
    have hflat : (remaining rest later).flatten.length = rest.length + later.flatten.length := by
      rw [flatten_remaining, List.length_append]
    rw [List.flatten_cons, hbs, List.append_assoc, ← flatten_remaining] at h
    obtain ⟨v, hv, hu⟩ := feedAll_append_next h
    rw [stillPending_map_feed] at hstep
    obtain ⟨results₁, hcarry⟩ := feedAll_carrying hv ((remaining rest later).map .feed ++ queue) []
    obtain ⟨k, results₂, hlo, hhi, hrun⟩ := run_deliveries (remaining rest later)
      (ne_nil_of_mem_remaining fun cs hcs => hne cs (List.mem_cons_of_mem _ hcs)) hu queue results₁
    refine ⟨k + 1, results₂, ?_, ?_, ?_⟩
    · rw [List.length_cons]
      omega
    · rw [List.flatten_cons, List.length_append, List.length_cons]
      omega
    · exact (run_succ k (hstep.trans hcarry)).trans hrun
termination_by deliveries.flatten.length
decreasing_by
  rw [hflat, List.flatten_cons, List.length_append, List.length_cons]
  omega

/-- Settles O10: both runs feed the same bytes (`run_deliveries`), the one as a single delivery, the other as deliveries
of one byte, which take a step each. -/
theorem deliveryCutDoesNotMatter : Obligations.DeliveryCutDoesNotMatter := by
  intro s bs queue hs hbs
  obtain ⟨u, hu⟩ := feedAll_answers hs bs
  have hwhole : feedAll [bs].flatten s = .next u := by rw [List.flatten_singleton, hu]
  have hbytes : (bs.map fun b => [b]).flatten = bs := by
    rw [← List.flatMap_def, List.flatMap_singleton']
  obtain ⟨k, results, -, hk, hrun⟩ := run_deliveries [bs] (by simpa using hbs) hwhole queue s.returned
  obtain ⟨n, results', hlo, hhi, hrun'⟩ := run_deliveries (bs.map fun b => [b]) (by simp) (hbytes.symm ▸ hu) queue
    s.returned
  rw [List.length_map] at hlo
  rw [hbytes] at hhi
  obtain rfl : n = bs.length := le_antisymm hhi hlo
  rw [List.flatten_singleton] at hk
  rw [List.map_map] at hrun'
  exact ⟨k, _, _, hk, hrun, hrun', rfl, rfl⟩

/-! Admissible transactions. -/

/-- Settles O48: the one step that stops, by `step_answers_or`, is the QUERY of a flag that does not exist. -/
theorem admissibleStepsAnswerNext : Obligations.AdmissibleStepsAnswerNext := by
  intro s hs ha
  obtain h | ⟨k, queue, hp, hk, -⟩ := step_answers_or hs
  · exact h
  · have hlt : k.toNat < s.params.nSteppers := ha (.query (.stepperStatus k)) (hp ▸ List.mem_cons_self ..)
    exact absurd hlt (Nat.not_lt.2 hk)

/-- The bound on the steps the pending transactions take. -/
def workLeft (queue : List Transaction) : Nat := (queue.map stepsNeeded).sum

theorem workLeft_cons (x : Transaction) (queue : List Transaction) :
    workLeft (x :: queue) = stepsNeeded x + workLeft queue := List.sum_cons

theorem stepsNeeded_pos (x : Transaction) : 0 < stepsNeeded x := by
  cases x <;> exact Nat.succ_pos _

/-- What stays pending of a delivery takes fewer steps. -/
theorem workLeft_stillPending_lt {w rest : List Byte} (hw : w ≠ []) (queue : List Transaction) :
    workLeft (stillPending rest queue) < workLeft (.feed (w ++ rest) :: queue) := by
  have hpos := List.length_pos_iff.2 hw
  rw [stillPending_eq_ite]
  split <;> simp only [workLeft_cons, stepsNeeded, List.length_append] <;> omega

theorem admissible_of_mem_stillPending {params : Params} {rest : List Byte} {queue : List Transaction}
    (h : ∀ x ∈ queue, admissible params x) : ∀ x ∈ stillPending rest queue, admissible params x := by
  rw [stillPending_eq_ite]
  split
  · exact h
  · exact List.forall_mem_cons.2 ⟨trivial, h⟩

/-- A step keeps the parameters and takes the head of `pending` off, a delivery perhaps in part. -/
theorem step_pending {s t : State} {x : Transaction} {queue : List Transaction} (hp : s.pending = x :: queue)
    (h : step s = .next t) :
    t.params = s.params ∧ (t.pending = queue ∨
      ∃ w rest, w ≠ [] ∧ x = .feed (w ++ rest) ∧ t.pending = stillPending rest queue) := by
  cases x with
  | feed bs =>
    cases bs with
    | nil =>
      simp only [step, fetch, hp, decode, decodeRx] at h
      cases h
      exact ⟨rfl, .inl rfl⟩
    | cons b bs =>
      obtain ⟨w, rest, hw, hbs, hstep⟩ := step_delivery hp
      have henv := feedAll_envSame (hstep.symm.trans h)
      exact ⟨henv.params, .inr ⟨w, rest, hw, congrArg _ hbs, henv.pending⟩⟩
  | call c =>
    obtain ⟨u, r, hu, hparams, hpending, -⟩ := exec_call c (s.begin queue)
    rw [step_call hp, hu] at h
    cases h
    exact ⟨hparams, .inl hpending⟩
  | query q =>
    rw [step_query hp] at h
    obtain ⟨r, rfl⟩ := runQuery_eq_respond h
    exact ⟨rfl, .inl rfl⟩
  | construct =>
    rw [step_construct hp] at h
    cases h
    exact ⟨rfl, .inl rfl⟩

/-- With something pending, an admissible state steps to an admissible one with less work left. -/
theorem step_lowers_workLeft {s : State} (hs : s.Inv) (ha : s.Admissible) (hp : s.pending ≠ []) :
    ∃ t, step s = .next t ∧ t.Inv ∧ t.Admissible ∧ workLeft t.pending < workLeft s.pending := by
  obtain ⟨t, h⟩ := admissibleStepsAnswerNext s hs ha
  obtain ⟨x, queue, hx⟩ := List.exists_cons_of_ne_nil hp
  have hqueue : ∀ y ∈ queue, admissible s.params y := fun y hy => ha y (hx ▸ List.mem_cons_of_mem x hy)
  obtain ⟨hparams, hrest⟩ := step_pending hx h
  refine ⟨t, h, stepKeepsTheInvariant s t hs h, ?_, ?_⟩
  · rw [State.Admissible, hparams]
    obtain hq | ⟨w, rest, -, -, hq⟩ := hrest <;> rw [hq]
    · exact hqueue
    · exact admissible_of_mem_stillPending hqueue
  · rw [hx]
    obtain hq | ⟨w, rest, hw, rfl, hq⟩ := hrest <;> rw [hq]
    · rw [workLeft_cons]
      exact Nat.lt_add_of_pos_left (stepsNeeded_pos x)
    · exact workLeft_stillPending_lt hw queue

/-- Settles O49: by induction on the work left, a step at a time. -/
theorem admissibleRunsFinish : Obligations.AdmissibleRunsFinish := by
  intro s hs ha
  by_cases hp : s.pending = []
  · exact ⟨0, s, Nat.zero_le _, rfl, hp, hs⟩
  · obtain ⟨t, h, ht, hat, hlt⟩ := step_lowers_workLeft hs ha hp
    obtain ⟨k, u, hk, hrun, hu⟩ := admissibleRunsFinish t ht hat
    exact ⟨k + 1, u, hk.trans_lt hlt, (run_succ k h).trans hrun, hu⟩
termination_by s => workLeft s.pending

end Sys2Proof.Machine
end

section
/-! The incoming sysex frames (42_sysex_dispatcher.md): a well-formed frame outside an open one does what `dispatch`
makes of its payload, so each statement turns on what `dispatch` is on that payload. -/

namespace Sys2Proof.Machine

open Sys2Proof.Claims

theorem tailOk_cons {n : Nat} {b : Byte} {args : List Byte} (hb : b ≠ Wire.endSysex)
    (h : tailOk (n + 1) args = true) : tailOk n (b :: args) = true := by
  obtain ⟨hargs, hcap⟩ := tailOk_iff.1 h
  refine tailOk_iff.2 ⟨List.forall_mem_cons.2 ⟨hb, hargs⟩, ?_⟩
  rw [List.length_cons]
  omega

/-- A frame whose payload makes the dispatcher answer Device State `d` and result `r` (R116, R137). -/
theorem exec_frame {i : Instr} {payload : List Byte} {s : State} (hs : OutsideSysex s)
    (he : encode i = .feed (sysexFrame payload)) (hp : tailOk 0 payload = true) {d : DeviceState} {r : Response}
    (hd : dispatch s.params payload s.device = (d, r)) :
    ∃ t, exec i s = .next t ∧ AfterFrame s t payload r ∧ t.device = d := by
  obtain ⟨hbytes, hcap⟩ := tailOk_iff.1 hp
  rw [Nat.zero_add] at hcap
  have hexec := (exec_of_encode_feed he s).trans (feedFrame_eq payload s hs.inSysex hs.bufferWf hbytes hcap)
  rw [hd] at hexec
  refine ⟨_, hexec, ⟨⟨rfl, rfl, rfl, rfl, rfl⟩, ⟨rfl, rfl, rfl, rfl, rfl, rfl⟩, fun a => ?_, rfl⟩, rfl⟩
  rw [Memory.get_putAll 0 payload (by omega) hs.bufferWf]
  split
  · next ha => simp [List.getElem?_eq_getElem (show a < payload.length by omega)]
  · next ha => rw [List.getElem?_eq_none (by omega), Option.getD_none]

/-! The branch `dispatch` takes on each kind of payload (R131, R132, R136). -/

theorem dispatch_analogMappingResponse (p : Params) (args : List Byte) (d : DeviceState) :
    dispatch p (Wire.analogMappingResponse :: args) d = analogMapping args d := rfl

theorem dispatch_stepperMoveComplete (p : Params) (args : List Byte) (d : DeviceState) :
    dispatch p (Wire.stepperRequest :: Wire.moveComplete :: args) d = moveComplete p args d := rfl

theorem dispatch_extensionReply (p : Params) (args : List Byte) (d : DeviceState) :
    dispatch p (Wire.extensionReply :: args) d = extensionReply args d := rfl

/-- The sub-commands `dispatch` has a branch for (R131). -/
def dispatchedSubCommands : List Byte := [Wire.analogMappingResponse, Wire.stepperRequest, Wire.extensionReply]

/-- Any other sub-command is discarded (R136). -/
theorem dispatch_unrecognised {sub : Byte} (h : sub ∉ dispatchedSubCommands) (p : Params) (args : List Byte)
    (d : DeviceState) : dispatch p (sub :: args) d = (d, .nothing) := by
  simp only [dispatchedSubCommands, List.mem_cons, List.not_mem_nil, or_false, not_or] at h
  obtain ⟨hmapping, hstepper, hreply⟩ := h
  simp only [dispatch, if_neg hmapping, if_neg hstepper, if_neg hreply]

/-- A STEPPER_REQUEST that is no MOVE_COMPLETE (R136). -/
theorem dispatch_stepperRequest_other {args : List Byte} (h : args.head? ≠ some Wire.moveComplete) (p : Params)
    (d : DeviceState) : dispatch p (Wire.stepperRequest :: args) d = (d, .nothing) := by
  cases args with
  | nil => rfl
  | cons op more =>
    have hop : op ≠ Wire.moveComplete := fun e => h (congrArg some e)
    simp only [dispatch, if_neg hop]
    rfl

/-! The three frames with an effect. -/

/-- The table after `AnalogMapping` (R133). -/
theorem pinAnalogChannelAt_analogMapping (args : List Byte) (d : DeviceState) (pin : Data7) :
    (analogMapping args d).1.pinAnalogChannelAt pin = (args[pin.toNat]?).getD 127 := by
  simp [analogMapping, DeviceState.pinAnalogChannelAt, DeviceState.setPinAnalogChannels, getElem_applyMapping,
    Config.unmapped]

/-- Settles O25: `AnalogMapping` (R133). -/
theorem analogMappingReplacesTheTable : Obligations.AnalogMappingReplacesTheTable := by
  intro s args hs hw
  obtain ⟨t, ht, hafter, hdev⟩ := exec_frame (i := .analogMappingResponseRx args) hs rfl
    (tailOk_cons (b := Wire.analogMappingResponse) (by decide) hw)
    (dispatch_analogMappingResponse s.params args s.device)
  refine ⟨t, ht, hafter, fun pin => ?_, ?_⟩ <;> rw [hdev]
  · exact pinAnalogChannelAt_analogMapping args s.device pin
  · rfl

theorem moveComplete_of_lt {p : Params} {idx : Byte} (h : idx.toNat < p.nSteppers) (more : List Byte)
    (d : DeviceState) : moveComplete p (idx :: more) d =
      (d.setStepper (idx.setWidth 7) false, .event (.stepperCompleted (idx.setWidth 7))) := by
  simp only [moveComplete, stepperIndex, if_pos h]

theorem moveComplete_of_not_lt {p : Params} {idx : Byte} (h : ¬idx.toNat < p.nSteppers) (more : List Byte)
    (d : DeviceState) : moveComplete p (idx :: more) d = (d, .nothing) := by
  simp only [moveComplete, stepperIndex, if_neg h]

/-- The byte that names an existing stepper is its index (R134: `N_STEPPERS` is at most 128). -/
theorem eq_stepperIndex_iff {p : Params} {idx : Byte} (h : idx.toNat < p.nSteppers) (j : Data7) :
    j = idx.setWidth 7 ↔ j.toNat = idx.toNat := by
  have hidx : idx.toNat < 2 ^ 7 := h.trans_le p.lastStepper.isLt
  rw [← BitVec.toNat_inj, BitVec.toNat_setWidth, Nat.mod_eq_of_lt hidx]

/-- Settles O26: `MoveComplete` (R134) with no index, an existing one, one of `N_STEPPERS` or above. -/
theorem moveCompleteClearsTheFlag : Obligations.MoveCompleteClearsTheFlag := by
  intro s args hs hw
  have frame {d : DeviceState} {r : Response} (hd : moveComplete s.params args s.device = (d, r)) :=
    exec_frame (i := .stepperMoveCompleteRx args) hs rfl (tailOk_cons (by decide) (tailOk_cons (by decide) hw))
      ((dispatch_stepperMoveComplete s.params args s.device).trans hd)
  cases args with
  | nil => exact frame rfl
  | cons idx more =>
    by_cases hidx : idx.toNat < s.params.nSteppers
    · obtain ⟨t, ht, hafter, hdev⟩ := frame (moveComplete_of_lt hidx more s.device)
      simp only [if_pos hidx]
      refine ⟨t, ht, hafter, fun j => ?_, ?_⟩ <;> rw [hdev]
      · simp only [DeviceState.stepperAt_setStepper, eq_stepperIndex_iff hidx]
      · rfl
    · simp only [if_neg hidx]
      exact frame (moveComplete_of_not_lt hidx more s.device)

/-- Settles O27: `ExtensionReply` (R135), on a frame with a whole key and on each shorter one. -/
theorem extensionReplyStoresThePairs : Obligations.ExtensionReplyStoresThePairs := by
  intro s args hs hreply hw
  have frame {d : DeviceState} {r : Response} (hd : extensionReply args s.device = (d, r)) :=
    exec_frame (i := .extensionReplyRx args) hs rfl (tailOk_cons (by decide) hw)
      ((dispatch_extensionReply s.params args s.device).trans hd)
  match args with
  | a0 :: a1 :: r0 :: r1 :: vs =>
    obtain ⟨t, ht, hafter, hdev⟩ := frame rfl
    refine ⟨t, Codec.join14 a0 a1, Codec.join14 r0 r1, replyValues vs, ht, hafter, Codec.join14_toNat a0 a1,
      Codec.join14_toNat r0 r1, replyValues_length vs, fun k hk => ?_, ?_, ?_⟩
    · rw [replyValues_get vs k hk, Codec.join14_toNat]
    · rw [hdev]
      exact fun a r => DeviceState.replyAt_setReply hreply _ _ a r _
    · rw [hdev]
      rfl
  | [] | [_] | [_, _] | [_, _, _] => exact frame rfl

/-! The frames without one. -/

/-- Settles O28: no row but the three of R133 to R135 reaches a branch of `dispatch` that changes anything. -/
theorem unrecognisedSysexIsDiscarded : Obligations.UnrecognisedSysexIsDiscarded := by
  intro s i payload hs hw hi
  have row {sub : Byte} {args : List Byte} (he : encode i = .feed (sysexFrame (sub :: args)))
      (htail : tailOk 1 args = true) (hend : sub ≠ Wire.endSysex) (hsub : sub ∉ dispatchedSubCommands) :=
    exec_frame hs he (tailOk_cons hend htail) (dispatch_unrecognised hsub s.params args s.device)
  obtain ⟨rfl, rfl⟩ | ⟨args, ⟨rfl, rfl⟩ | hi⟩ := hi
  · exact exec_frame hs rfl rfl rfl
  · simp only [Instr.wellFormed, Bool.and_eq_true, decide_eq_true_eq] at hw
    obtain ⟨htail, hop⟩ := hw
    exact exec_frame hs rfl (tailOk_cons (by decide) htail) (dispatch_stepperRequest_other hop s.params s.device)
  obtain ⟨rfl, rfl⟩ | ⟨rfl, rfl⟩ | ⟨rfl, rfl⟩ | ⟨rfl, rfl⟩ | ⟨rfl, rfl⟩ | ⟨rfl, rfl⟩ | ⟨rfl, rfl⟩ | ⟨rfl, rfl⟩ |
    ⟨rfl, rfl⟩ | ⟨rfl, rfl⟩ | ⟨rfl, rfl⟩ | ⟨rfl, rfl⟩ | ⟨sub, rfl, rfl⟩ := hi
  -- The twelve rows that R73 names, then the unknown sub-command.
  iterate 12 · exact row rfl hw (by decide) (by decide)
  · simp only [Instr.wellFormed, Bool.and_eq_true, Bool.not_eq_true', decide_eq_true_eq, List.contains_eq_mem,
      decide_eq_false_iff_not] at hw
    obtain ⟨⟨htail, hend⟩, hnamed⟩ := hw
    have hsub : dispatchedSubCommands ⊆ Wire.namedSubCommands := by decide
    exact row rfl htail hend fun h => hnamed (hsub h)

end Sys2Proof.Machine
end

section
/-! The encoder operations (43_command_encoder.md): operand checks, then a write to Device State, then one `emit` (R151,
R152, D13). A plan says for each operation which write and which bytes, as a function of its operands, the parameters
and Device State alone, so every statement about an operation turns on what its plan is. -/

namespace Sys2Proof.Machine

open Sys2Proof.Claims

/-- What an operation that passes its operand checks is going to do: the bytes it emits and Device State as it stores
it before them; `none` is the refusal. -/
def encoderPlan (params : Params) (d : DeviceState) : Instr → Option (List Byte × DeviceState)
  | .setPinMode pin mode => do
    let p ← pinOperand pin
    let (code, m) ← modeOperand mode
    return (setPinModeFrame p code, d.setPinMode p m)
  | .digitalWrite pin value => do
    let p ← pinOperand pin
    let level ← levelOperand value
    let m := writtenPort (d.portAt (portOfPin p)) p level
    return (digitalFrame (portOfPin p) m, d.setPort (portOfPin p) m)
  | .analogWrite pin value => do
    let p ← pinOperand pin
    let v ← valueOperand 255 value
    return (setPinModeFrame p 3 ++ analogFrame p v, d.setPinMode p .pwm)
  | .servoWrite pin value => do
    let p ← pinOperand pin
    let v ← valueOperand 180 value
    return (analogFrame p v, d)
  | .sendSysex payload => some ([Wire.startSysex] ++ payload ++ [Wire.endSysex], d)
  | .reportAnalog channel enable => do
    let n ← nibbleOperand channel
    return ([Wire.channelByte Wire.reportAnalog n, if enable then 1 else 0], d)
  | .reportDigital port enable => do
    let n ← nibbleOperand port
    return ([Wire.channelByte Wire.reportDigital n, if enable then 1 else 0], d)
  | .stepperStep index steps => do
    let k ← stepperOperand params index
    let count ← Codec.encodeSigned32 steps
    return ([Wire.startSysex, Wire.stepperRequest, Wire.dataByte params.stepSubop, Wire.dataByte k] ++ count
      ++ [Wire.endSysex], d.setStepper k true)
  | _ => none

/-- The state after a plan: stored and emitted, or refused (R152). -/
def State.follow (s : State) : Option (List Byte × DeviceState) → State
  | some (frame, d) => emitAndReturn frame (s.withDevice d)
  | none => raiseError .invalidArgument s

/-- An encoder operation follows its plan. -/
theorem exec_eq_follow {i : Instr} (hi : IsEncoder i) (s : State) :
    exec i s = .next (s.follow (encoderPlan s.params s.device i)) := by
  cases i with
  | setPinMode pin mode =>
    simp only [exec, execSetPinMode, encoderPlan]
    rcases pinOperand pin with _ | p <;> rcases modeOperand mode with _ | ⟨code, m⟩ <;> rfl
  | digitalWrite pin value =>
    simp only [exec, execDigitalWrite, encoderPlan]
    rcases pinOperand pin with _ | p <;> rcases levelOperand value with _ | level <;> rfl
  | analogWrite pin value =>
    simp only [exec, execAnalogWrite, encoderPlan]
    rcases pinOperand pin with _ | p <;> rcases valueOperand 255 value with _ | v <;> rfl
  | servoWrite pin value =>
    simp only [exec, execServoWrite, encoderPlan]
    rcases pinOperand pin with _ | p <;> rcases valueOperand 180 value with _ | v <;> rfl
  | sendSysex payload => rfl
  | reportAnalog channel enable =>
    simp only [exec, execReportAnalog, encoderPlan]
    rcases nibbleOperand channel with _ | n <;> rfl
  | reportDigital port enable =>
    simp only [exec, execReportDigital, encoderPlan]
    rcases nibbleOperand port with _ | n <;> rfl
  | stepperStep index steps =>
    simp only [exec, execStepperStep, encoderPlan]
    rcases stepperOperand s.params index with _ | k <;> rcases Codec.encodeSigned32 steps with _ | count <;> rfl
  | _ => exact hi.elim

/-- The ByteSink answers as it would have before Device State was written (R151, R203, D13). -/
theorem emits_emitAndReturn (frame : List Byte) (s : State) (d : DeviceState) :
    Emits s frame (emitAndReturn frame (s.withDevice d)) where
  params := emitAndReturn_params frame _
  parser := emitAndReturn_parser frame _
  pending := emitAndReturn_pending frame _
  accepted hok := by
    rw [emitAndReturn_ok frame (s.withDevice d) hok]
    exact ⟨rfl, rfl, rfl, rfl⟩
  refused k e hk hok hf := by
    rw [emitAndReturn_fail frame (s.withDevice d) k e hk hok hf]
    exact ⟨rfl, rfl, rfl, rfl⟩

theorem exec_emits_of_plan {i : Instr} (hi : IsEncoder i) {s : State} {frame : List Byte} {d : DeviceState}
    (h : encoderPlan s.params s.device i = some (frame, d)) :
    ∃ t, exec i s = .next t ∧ Emits s frame t ∧ t.device = d := by
  refine ⟨emitAndReturn frame (s.withDevice d), ?_, emits_emitAndReturn frame s d, emitAndReturn_device frame _⟩
  rw [exec_eq_follow hi, h, State.follow]

theorem refuses_of_plan {i : Instr} (hi : IsEncoder i) {s : State}
    (h : encoderPlan s.params s.device i = none) : Refuses i s := by
  rw [Refuses, exec_eq_follow hi, h]
  rfl

/-! The operands and frames the plans are made of. -/

/-- The modes of R75 and their codes. -/
def pinModes : List (Int × PinMode) :=
  [(0, .input), (1, .output), (2, .analog), (3, .pwm), (4, .servo), (5, .shift), (6, .i2c), (11, .inputPullup)]

/-- A mode travels as its code. -/
theorem modeOperand_some {v : Int} {m : PinMode} (h : (v, m) ∈ pinModes) :
    modeOperand v = some (BitVec.ofInt 8 v, m) := by
  have htable : ∀ x ∈ pinModes, modeOperand x.1 = some (BitVec.ofInt 8 x.1, x.2) := by decide
  exact htable _ h

theorem modeOperand_none {v : Int} (h : v ∉ pinModes.map Prod.fst) : modeOperand v = none := by
  simp only [pinModes, List.map_cons, List.map_nil, List.mem_cons, List.not_mem_nil, or_false, not_or] at h
  simp [modeOperand, h]

theorem setPinModeFrame_ofInt {pin : Int} (h : 0 ≤ pin ∧ pin ≤ 127) (code : Byte) :
    setPinModeFrame (BitVec.ofInt 7 pin) code = [0xF4, BitVec.ofInt 8 pin, code] := by
  rw [setPinModeFrame, dataByte_ofInt h]
  rfl

theorem analogFrame_ofInt {pin value : Int} (hpin : 0 ≤ pin ∧ pin ≤ 127) (hvalue : 0 ≤ value ∧ value ≤ 255) :
    analogFrame (BitVec.ofInt 7 pin) (BitVec.ofInt 8 value) =
      [0xE0 ||| BitVec.ofInt 8 (pin % 16), BitVec.ofInt 8 (value % 128), BitVec.ofInt 8 (value / 128)] := by
  rw [analogFrame, channelByte_pin _ hpin, Codec.split14Bytes_value hvalue]
  rfl

theorem channelByte_ofInt {v : Int} (cmd : Byte) (h : 0 ≤ v ∧ v ≤ 15) :
    Wire.channelByte cmd (BitVec.ofInt 4 v) = cmd ||| BitVec.ofInt 8 v := by
  rw [Wire.channelByte]
  congr 1
  apply BitVec.eq_of_toNat_eq
  simp only [BitVec.toNat_setWidth, BitVec.toNat_ofInt]
  omega

/-- `digitalWrite` changes the bit of its pin alone (R154). -/
theorem getLsbD_writtenPort {pin : Int} (h : 0 ≤ pin ∧ pin ≤ 127) (old : Word16) (level : Bool) {k : Nat}
    (hk : k < 16) : (writtenPort old (BitVec.ofInt 7 pin) level).getLsbD k =
      if (k : Int) = pin % 8 then level else old.getLsbD k := by
  cases level with
  | true =>
    rw [writtenPort, if_pos rfl, BitVec.getLsbD_or, bitOfPin_ofInt h k hk]
    split <;> simp [*]
  | false =>
    rw [writtenPort, if_neg Bool.false_ne_true, BitVec.getLsbD_and, BitVec.getLsbD_not, bitOfPin_ofInt h k hk]
    split <;> simp [*]

/-- The registers of the other pins are untouched when one pin gets a mode (R153, R155). -/
theorem pinModeAt_setPinMode_ofInt {pin : Int} (h : 0 ≤ pin ∧ pin ≤ 127) (d : DeviceState) (m : PinMode) (q : Data7) :
    (d.setPinMode (BitVec.ofInt 7 pin) m).pinModeAt q = if (q.toNat : Int) = pin then m else d.pinModeAt q := by
  simp only [DeviceState.pinModeAt_setPinMode, eq_ofInt7_iff h]

/-! The statements, one for each operation or pair of operations. -/

/-- Settles O30: the plan of `setPinMode` (R153) on the eight modes, and no plan outside the ranges. -/
theorem setPinModeStoresThenEmits : Obligations.SetPinModeStoresThenEmits := by
  intro s pin mode
  constructor
  · intro hpin m hm
    have hmode : modeOperand mode = some (BitVec.ofInt 8 mode, m) := modeOperand_some hm
    obtain ⟨t, ht, hemits, hdev⟩ := exec_emits_of_plan (i := .setPinMode pin mode) (s := s) trivial
      (by simp only [encoderPlan, pinOperand_some hpin, hmode]; rfl)
    rw [setPinModeFrame_ofInt hpin] at hemits
    refine ⟨t, ht, hemits, fun q => ?_, ?_⟩ <;> rw [hdev]
    · exact pinModeAt_setPinMode_ofInt hpin s.device m q
    · rfl
  · intro h
    refine refuses_of_plan (i := .setPinMode pin mode) trivial ?_
    rcases h with hpin | hmode
    · simp [encoderPlan, pinOperand_none hpin]
    · simp [encoderPlan, modeOperand_none hmode]

/-- Settles O31: the plan of `digitalWrite` (R154), its port bit by bit. -/
theorem digitalWriteReadModifiesWrites : Obligations.DigitalWriteReadModifiesWrites := by
  intro s pin value
  constructor
  · rintro ⟨hlo, hhi, hvalue⟩
    have hpin : 0 ≤ pin ∧ pin ≤ 127 := ⟨hlo, hhi⟩
    obtain ⟨t, ht, hemits, hdev⟩ := exec_emits_of_plan (i := .digitalWrite pin value) (s := s) trivial
      (by simp only [encoderPlan, pinOperand_some hpin, levelOperand_some hvalue]; rfl)
    rw [portOfPin_ofInt hpin] at hemits hdev
    have hport (q : Nibble) : t.device.portAt q = if q = BitVec.ofInt 4 (pin / 8)
        then writtenPort (s.device.portAt (BitVec.ofInt 4 (pin / 8))) (BitVec.ofInt 7 pin) (decide (value = 1))
        else s.device.portAt q := by
      rw [hdev, DeviceState.portAt_setPort]
    have hown := (hport _).trans (if_pos rfl)
    rw [digitalFrame, Codec.split14Bytes_eq, ← hown] at hemits
    refine ⟨t, ht, hemits, fun k hk => ?_, fun q hq => (hport q).trans (if_neg hq), ?_⟩
    · rw [hown]
      exact getLsbD_writtenPort hpin _ _ hk
    · rw [hdev]
      rfl
  · intro h
    refine refuses_of_plan (i := .digitalWrite pin value) trivial ?_
    rcases h with hpin | hvalue
    · simp [encoderPlan, pinOperand_none hpin]
    · simp [encoderPlan, levelOperand_none hvalue]

/-- Settles O32: the plan of `analogWrite` (R155), whose frame is that of SET_PIN_MODE and that of ANALOG_MESSAGE. -/
theorem analogWriteSetsPwmThenEmits : Obligations.AnalogWriteSetsPwmThenEmits := by
  intro s pin value
  constructor
  · rintro ⟨hlo, hhi, hvalue⟩
    have hpin : 0 ≤ pin ∧ pin ≤ 127 := ⟨hlo, hhi⟩
    obtain ⟨t, ht, hemits, hdev⟩ := exec_emits_of_plan (i := .analogWrite pin value) (s := s) trivial
      (by simp only [encoderPlan, pinOperand_some hpin, valueOperand_some (max := 255) hvalue]; rfl)
    rw [setPinModeFrame_ofInt hpin, analogFrame_ofInt hpin hvalue] at hemits
    refine ⟨t, ht, hemits, fun q => ?_, ?_⟩ <;> rw [hdev]
    · exact pinModeAt_setPinMode_ofInt hpin s.device .pwm q
    · rfl
  · intro h
    refine refuses_of_plan (i := .analogWrite pin value) trivial ?_
    rcases h with hpin | hvalue
    · simp [encoderPlan, pinOperand_none hpin]
    · simp [encoderPlan, valueOperand_none (max := 255) hvalue]

/-- Settles O33: the plan of `servoWrite` (R156), which leaves Device State. -/
theorem servoWriteEmitsOnly : Obligations.ServoWriteEmitsOnly := by
  intro s pin value
  constructor
  · rintro ⟨hlo, hhi, hvalue⟩
    have hpin : 0 ≤ pin ∧ pin ≤ 127 := ⟨hlo, hhi⟩
    have hbyte : 0 ≤ value ∧ value ≤ 255 := by omega
    obtain ⟨t, ht, hemits, hdev⟩ := exec_emits_of_plan (i := .servoWrite pin value) (s := s) trivial
      (by simp only [encoderPlan, pinOperand_some hpin, valueOperand_some (max := 180) hvalue]; rfl)
    rw [analogFrame_ofInt hpin hbyte] at hemits
    exact ⟨t, ht, hdev, hemits⟩
  · intro h
    refine refuses_of_plan (i := .servoWrite pin value) trivial ?_
    rcases h with hpin | hvalue
    · simp [encoderPlan, pinOperand_none hpin]
    · simp [encoderPlan, valueOperand_none (max := 180) hvalue]

/-- Settles O34: `sendSysex` checks nothing (R157, D14). -/
theorem sendSysexEmitsVerbatim : Obligations.SendSysexEmitsVerbatim := by
  intro s payload
  obtain ⟨t, ht, hemits, hdev⟩ := exec_emits_of_plan (i := .sendSysex payload) (s := s) trivial rfl
  exact ⟨t, ht, hdev, hemits⟩

/-- Settles O35: the plans of the two report toggles (R158, R159). -/
theorem reportTogglesEmitOnly : Obligations.ReportTogglesEmitOnly := by
  intro s index enable
  constructor
  · intro h
    constructor
    · obtain ⟨t, ht, hemits, hdev⟩ := exec_emits_of_plan (i := .reportAnalog index enable) (s := s) trivial
        (by simp only [encoderPlan, nibbleOperand_some h]; rfl)
      rw [channelByte_ofInt _ h] at hemits
      exact ⟨t, ht, hdev, hemits⟩
    · obtain ⟨t, ht, hemits, hdev⟩ := exec_emits_of_plan (i := .reportDigital index enable) (s := s) trivial
        (by simp only [encoderPlan, nibbleOperand_some h]; rfl)
      rw [channelByte_ofInt _ h] at hemits
      exact ⟨t, ht, hdev, hemits⟩
  · intro h
    constructor
    · exact refuses_of_plan (i := .reportAnalog index enable) trivial (by simp [encoderPlan, nibbleOperand_none h])
    · exact refuses_of_plan (i := .reportDigital index enable) trivial (by simp [encoderPlan, nibbleOperand_none h])

/-- Settles O36: the plan of `stepperStep` (R160); an index below `N_STEPPERS` fits a data byte. -/
theorem stepperStepSetsFlagThenEmits : Obligations.StepperStepSetsFlagThenEmits := by
  intro s index steps
  constructor
  · rintro ⟨hlo, hhi, hsteps⟩
    have hindex : 0 ≤ index ∧ index ≤ 127 := by
      have hn : s.params.nSteppers ≤ 128 := s.params.lastStepper.isLt
      omega
    obtain ⟨t, ht, hemits, hdev⟩ := exec_emits_of_plan (i := .stepperStep index steps) (s := s) trivial
      (by simp only [encoderPlan, stepperOperand_some ⟨hlo, hhi⟩, Codec.encodeSigned32_of_mem hsteps]; rfl)
    rw [dataByte_ofInt hindex] at hemits
    refine ⟨t, ht, hemits, fun j => ?_, ?_⟩ <;> rw [hdev]
    · simp only [DeviceState.stepperAt_setStepper, eq_ofInt7_iff hindex]
    · rfl
  · intro h
    refine refuses_of_plan (i := .stepperStep index steps) trivial ?_
    rcases h with hindex | hsteps
    · simp [encoderPlan, stepperOperand_none hindex]
    · simp [encoderPlan, Codec.encodeSigned32_of_not_mem hsteps]

/-! Encoder operations and codec functions against ParserState (R150, R180). -/

/-- The ByteSink's answers, and so where `emit` stops, do not depend on ParserState. -/
theorem emit_withParser (bs : List Byte) (s : State) (p : ParserState) :
    emit bs (s.withParser p) = ((emit bs s).1.withParser p, (emit bs s).2) := by
  induction bs generalizing s with
  | nil => rfl
  | cons b bs ih =>
    have hanswer : nextAnswer (s.withParser p) = nextAnswer s := rfl
    simp only [emit, hanswer]
    split
    · exact ih (s.wrote b)
    · rfl

theorem emitAndReturn_withParser (bs : List Byte) (s : State) (p : ParserState) :
    emitAndReturn bs (s.withParser p) = (emitAndReturn bs s).withParser p := by
  rw [emitAndReturn, emitAndReturn, emit_withParser]
  rcases emit bs s with ⟨t, _ | e⟩ <;> rfl

theorem State.follow_withParser (s : State) (p : ParserState) (plan : Option (List Byte × DeviceState)) :
    (s.withParser p).follow plan = (s.follow plan).withParser p := by
  cases plan with
  | none => rfl
  | some plan => exact emitAndReturn_withParser plan.1 (s.withDevice plan.2) p

theorem State.follow_parser (s : State) (plan : Option (List Byte × DeviceState)) :
    (s.follow plan).parser = s.parser := by
  cases plan with
  | none => rfl
  | some plan => exact emitAndReturn_parser plan.1 (s.withDevice plan.2)

/-- A codec function answers every state alike (R180). -/
theorem codec_responds {i : Instr} (hi : IsCodec i) : ∃ r, ∀ s, exec i s = .next (s.respond r) := by
  cases i with
  | split14 v => exact ⟨_, returnValue_eq _⟩
  | join14 lo hi => exact ⟨_, returnValue_eq _⟩
  | encodeSigned32 value => exact ⟨_, returnValue_eq _⟩
  | decodeSigned32 b0 b1 b2 b3 b4 => exact ⟨_, fun _ => rfl⟩
  | encodeCustomFloat value => exact ⟨_, returnValue_eq _⟩
  | pack sign sig ef => exact ⟨_, returnValue_eq _⟩
  | decodeCustomFloat b0 b1 b2 b3 => exact ⟨_, fun _ => rfl⟩
  | _ => exact hi.elim

/-- Settles O38: an encoder operation follows a plan that no parser enters, a codec function answers by its operands. -/
theorem encodersIgnoreTheParser : Obligations.EncodersIgnoreTheParser := by
  rintro i s t p (hi | hi) h
  · rw [exec_eq_follow hi, Host.Outcome.next.injEq] at h
    subst h
    refine ⟨s.follow_parser _, (exec_eq_follow hi (s.withParser p)).trans ?_⟩
    exact congrArg Host.Outcome.next (s.follow_withParser p _)
  · obtain ⟨r, hr⟩ := codec_responds hi
    rw [hr, Host.Outcome.next.injEq] at h
    subst h
    exact ⟨rfl, hr _⟩

end Sys2Proof.Machine
end

section
/-! The Numeric Codec's functions field by field: the bit slices as quotients and remainders, the domains (R180), the
layouts of R182 and R186 read back (R183, R187), and the truncation of R185. -/

namespace Sys2Proof.Codec

open Sys2Proof.Claims

/-! Bit slices and domains. -/

theorem bits_eq (v hi lo : Nat) : bits v hi lo = v / 2 ^ lo % 2 ^ (hi - lo + 1) := by
  rw [bits, Nat.shiftRight_eq_div_pow]

theorem getLsbD_eq_true_iff (b : Byte) (k : Nat) : b.getLsbD k = true ↔ b.toNat / 2 ^ k % 2 = 1 := by
  rw [BitVec.getLsbD, Nat.testBit_eq_decide_div_mod_eq, decide_eq_true_iff]

/-- A slice of one bit is that bit. -/
theorem bits_self_eq_one_iff (b : Byte) (k : Nat) : bits b.toNat k k = 1 ↔ b.getLsbD k = true := by
  rw [bits_eq, getLsbD_eq_true_iff, Nat.sub_self, zero_add, pow_one]

/-- Above a field that ends below bit `k`, bit `k` is the sign laid there. -/
theorem getLsbD_signBit {n k weight : Nat} (hk : k < 8) (hweight : weight = 2 ^ k) (hn : n < weight) (negative : Prop)
    [Decidable negative] :
    (BitVec.ofNat 8 (n + weight * if negative then 1 else 0)).getLsbD k = decide negative := by
  subst hweight
  have hpos : 0 < 2 ^ k := Nat.two_pow_pos k
  rw [Bool.eq_iff_iff, decide_eq_true_iff, ← BitVec.testBit_toNat, BitVec.toNat_ofNat, Nat.testBit_mod_two_pow,
    decide_eq_true hk, Bool.true_and, Nat.testBit_eq_decide_div_mod_eq, decide_eq_true_iff,
    Nat.add_mul_div_left _ _ hpos, Nat.div_eq_of_lt hn]
  split <;> simp [*]

theorem split14_of_mem {v : Int} (h : 0 ≤ v ∧ v < 16384) :
    split14 v = some [BitVec.ofNat 8 (v.toNat % 128), BitVec.ofNat 8 (v.toNat / 128)] := by
  rw [split14, if_pos h, split14Bytes_eq]

theorem split14_eq_none_iff {v : Int} : split14 v = none ↔ ¬(0 ≤ v ∧ v < 16384) := by
  simp [split14]

theorem join14Operands_eq_none_iff {lo hi : Int} :
    join14Operands lo hi = none ↔ ¬(0 ≤ lo ∧ lo ≤ 255) ∨ ¬(0 ≤ hi ∧ hi ≤ 255) := by
  rw [← not_and_or]
  simp [join14Operands]

theorem encodeSigned32_eq_none_iff {x : Int} :
    encodeSigned32 x = none ↔ ¬(-(2 ^ 31 - 1) ≤ x ∧ x ≤ 2 ^ 31 - 1) := by
  refine ⟨fun h hx => ?_, encodeSigned32_of_not_mem⟩
  rw [encodeSigned32_of_mem hx] at h
  cases h

theorem pack_of_mem {sign sig ef : Int} (h : (0 ≤ sign ∧ sign ≤ 1) ∧ (0 ≤ sig ∧ sig < 2 ^ 23) ∧ (0 ≤ ef ∧ ef ≤ 15)) :
    pack sign sig ef = some (floatBytes sign.toNat sig.toNat ef.toNat) := by
  rw [pack, if_pos h, packBytes_eq, floatBytes]

theorem pack_eq_none_iff {sign sig ef : Int} :
    pack sign sig ef = none ↔ ¬((0 ≤ sign ∧ sign ≤ 1) ∧ (0 ≤ sig ∧ sig < 2 ^ 23) ∧ (0 ≤ ef ∧ ef ≤ 15)) := by
  refine ⟨fun h hdomain => ?_, fun h => if_neg h⟩
  rw [pack_of_mem hdomain] at h
  cases h

theorem encodeCustomFloat_finite {v : ℚ} (hv : v ≠ 0) : encodeCustomFloat (.finite v) =
    some (floatBytes (if v < 0 then 1 else 0) (significand v % 2 ^ 23) ((finalExponent v + 11) % 16).toNat) := by
  simp only [encodeCustomFloat, if_neg hv, packBytes_eq, floatBytes]

theorem encodeCustomFloat_eq_none_iff {x : RealOperand} :
    encodeCustomFloat x = none ↔ x = .finite 0 ∨ x = .nonFinite := by
  cases x with
  | nonFinite => exact ⟨fun _ => .inr rfl, fun _ => rfl⟩
  | finite v =>
    by_cases hv : v = 0
    · subst hv
      exact ⟨fun _ => .inl rfl, fun _ => rfl⟩
    · simp [encodeCustomFloat_finite hv, hv]

/-! `join14` undoes `split14` (R181). -/

/-- On bytes below 128 the two groups do not overlap. -/
theorem join14_toNat_of_lt {lo hi : Byte} (hlo : lo.toNat < 128) :
    (join14 lo hi).toNat = lo.toNat + 128 * hi.toNat := by
  rw [join14_toNat, Nat.or_comm, ← Nat.shiftLeft_add_eq_or_of_lt (i := 7) hlo, Nat.shiftLeft_eq]
  omega

/-! The layout of `encodeSigned32` (R182) and its reading (R183). -/

/-- Every group of R182 is a data byte. -/
theorem toNat_lt_of_mem_signed32Bytes (x : Int) : ∀ b ∈ signed32Bytes x, b.toNat < 128 := by
  simp only [signed32Bytes, List.mem_cons, List.not_mem_nil, or_false, forall_eq_or_imp, forall_eq, BitVec.toNat_ofNat]
  refine ⟨by omega, by omega, by omega, by omega, ?_⟩
  split <;> omega

theorem decodeSigned32_eq (b0 b1 b2 b3 b4 : Byte) :
    let m : Int := b0.toNat % 128 + 2 ^ 7 * (b1.toNat % 128 : Int) + 2 ^ 14 * (b2.toNat % 128 : Int)
      + 2 ^ 21 * (b3.toNat % 128 : Int) + 2 ^ 28 * (b4.toNat % 8 : Int)
    decodeSigned32 b0 b1 b2 b3 b4 = if b4.getLsbD 3 then -m else m := by
  simp only [decodeSigned32, bits_self_eq_one_iff]
  simp only [bits_eq, Nat.shiftLeft_eq]
  split <;> omega

/-- The groups of a magnitude below 2^31 put together again, under its sign. -/
theorem decodeSigned32_signed32Bytes {x : Int} (hx : -(2 ^ 31 - 1) ≤ x ∧ x ≤ 2 ^ 31 - 1) :
    ∃ b0 b1 b2 b3 b4, signed32Bytes x = [b0, b1, b2, b3, b4] ∧ decodeSigned32 b0 b1 b2 b3 b4 = x := by
  refine ⟨_, _, _, _, _, rfl, ?_⟩
  have hsign : (if x < 0 then 8 else 0 : ℕ) = 8 * if x < 0 then 1 else 0 := by split <;> rfl
  rw [decodeSigned32_eq, hsign, getLsbD_signBit (k := 3) (weight := 8) (by omega) rfl (by omega)]
  simp only [BitVec.toNat_ofNat, decide_eq_true_eq]
  split <;> omega

/-! The layout of `pack` (R186) and its reading (R187). -/

/-- Every byte of R186 is a data byte. -/
theorem toNat_lt_of_mem_floatBytes {sign ef : Nat} (sig : Nat) (hsign : sign ≤ 1) (hef : ef ≤ 15) :
    ∀ b ∈ floatBytes sign sig ef, b.toNat < 128 := by
  simp only [floatBytes, List.mem_cons, List.not_mem_nil, or_false, forall_eq_or_imp, forall_eq, BitVec.toNat_ofNat]
  omega

/-- The value of the fields of a custom float, `(-1)^sign * sig * 10^(ef - 11)` (R187). -/
def floatValue (negative : Bool) (sig : ℕ) (e : ℤ) : ℚ := (if negative then -1 else 1) * (sig : ℚ) * (10 : ℚ) ^ e

theorem decodeCustomFloat_eq (b0 b1 b2 b3 : Byte) : decodeCustomFloat b0 b1 b2 b3 =
    floatValue (b3.getLsbD 6)
      (b0.toNat % 128 + 2 ^ 7 * (b1.toNat % 128) + 2 ^ 14 * (b2.toNat % 128) + 2 ^ 21 * (b3.toNat % 4))
      ((b3.toNat / 4 % 16 : ℕ) - 11) := by
  have hsig : bits b0.toNat 6 0 + bits b1.toNat 6 0 <<< 7 + bits b2.toNat 6 0 <<< 14 + bits b3.toNat 1 0 <<< 21 =
      b0.toNat % 128 + 2 ^ 7 * (b1.toNat % 128) + 2 ^ 14 * (b2.toNat % 128) + 2 ^ 21 * (b3.toNat % 4) := by
    simp only [bits_eq, Nat.shiftLeft_eq]
    omega
  have hef : bits b3.toNat 5 2 = b3.toNat / 4 % 16 := bits_eq _ _ _
  simp only [decodeCustomFloat, bits_self_eq_one_iff, hsig, hef]
  generalize b0.toNat % 128 + _ + _ + _ = sig
  rw [floatValue, zpow_sub₀ (by norm_num), Rat.mkRat_eq_div, zpow_natCast]
  push_cast
  ring

/-- What is decoded from the bytes of R186 is the value of the fields laid out in them. -/
theorem decodeCustomFloat_floatBytes {negative : Prop} [Decidable negative] {sig ef : Nat} (hsig : sig < 2 ^ 23)
    (hef : ef ≤ 15) :
    ∃ b0 b1 b2 b3, floatBytes (if negative then 1 else 0) sig ef = [b0, b1, b2, b3] ∧
      decodeCustomFloat b0 b1 b2 b3 = floatValue negative sig (ef - 11) := by
  refine ⟨_, _, _, _, rfl, ?_⟩
  rw [decodeCustomFloat_eq, getLsbD_signBit (k := 6) (weight := 64) (by omega) rfl (by omega)]
  simp only [BitVec.toNat_ofNat]
  congr 1 <;> split <;> omega

/-! The truncation of `encodeCustomFloat` (R185). -/

/-- Scaling moves decades between the value `m` and the exponent: `|v| = m * 10^e`, with `1 <= m <= 2^23`. -/
theorem scaled_bounds {v : ℚ} (hv : v ≠ 0) :
    |v| = (scaled v).val * (10 : ℚ) ^ finalExponent v ∧ 1 ≤ (scaled v).val ∧ (scaled v).val ≤ 2 ^ 23 := by
  obtain ⟨e0, k, j, ⟨hm0, -⟩, -, -, hj, hle, -, -, hval, he⟩ := scaled_spec v hv
  rw [finalExponent, he, hval]
  refine ⟨?_, ?_, hle⟩
  · rw [zpow_add₀ (by norm_num), zpow_sub₀ (by norm_num), zpow_natCast, zpow_natCast]
    field_simp
  · have hm1 : 1 ≤ |v| / (10 : ℚ) ^ e0 * 10 ^ k := one_le_mul_of_one_le_of_one_le hm0 (one_le_pow₀ (by norm_num))
    split at hj
    case isTrue hlarge =>
      rw [hj, pow_one]
      linarith
    case isFalse => rwa [hj, pow_zero, div_one]

/-- The significand is the scaled value rounded down to an integer, at least 1. -/
theorem significand_bounds {v : ℚ} (hv : v ≠ 0) :
    1 ≤ significand v ∧ (significand v : ℚ) ≤ (scaled v).val ∧ (scaled v).val < significand v + 1 := by
  obtain ⟨-, hone, -⟩ := scaled_bounds hv
  have hfloor := significand_eq v hv
  have hcast : (significand v : ℚ) = (⌊(scaled v).val⌋ : ℤ) := by exact_mod_cast hfloor
  refine ⟨?_, hcast ▸ Int.floor_le _, hcast ▸ Int.lt_floor_add_one _⟩
  have : (1 : ℤ) ≤ ⌊(scaled v).val⌋ := Int.le_floor.2 (by exact_mod_cast hone)
  omega

/-- Only the magnitudes `8388608 * 10^k` fill all 24 bits; every other significand is kept whole (R187). -/
theorem significand_lt {v : ℚ} (hv : v ≠ 0) (h : ∀ k : ℤ, |v| ≠ 8388608 * (10 : ℚ) ^ k) : significand v < 2 ^ 23 := by
  obtain ⟨habs, -, hle⟩ := scaled_bounds hv
  have hne : (scaled v).val ≠ 2 ^ 23 := fun hval => h (finalExponent v) (by rw [habs, hval]; norm_num)
  have hlt : (significand v : ℚ) < 2 ^ 23 := (significand_bounds hv).2.1.trans_lt (lt_of_le_of_ne hle hne)
  exact_mod_cast hlt

/-- The value of R187 for the fields of R185, wraps aside: `v` truncated toward zero at the final exponent. -/
def truncated (v : ℚ) : ℚ := floatValue (v < 0) (significand v) (finalExponent v)

theorem truncated_bounds {v : ℚ} (hv : v ≠ 0) :
    0 < truncated v * v ∧ |truncated v| ≤ |v| ∧ |v - truncated v| < (10 : ℚ) ^ finalExponent v := by
  obtain ⟨hone, hle, hlt⟩ := significand_bounds hv
  have hunit : (0 : ℚ) < (10 : ℚ) ^ finalExponent v := zpow_pos (by norm_num) _
  set m : ℚ := significand v * (10 : ℚ) ^ finalExponent v with hm
  have hpos : 0 < m := mul_pos (by exact_mod_cast hone) hunit
  have hbelow : m ≤ |v| := by
    rw [(scaled_bounds hv).1]
    exact mul_le_mul_of_nonneg_right hle hunit.le
  have habove : |v| < m + (10 : ℚ) ^ finalExponent v := by
    rw [(scaled_bounds hv).1, hm, ← add_one_mul]
    exact mul_lt_mul_of_pos_right hlt hunit
  rcases lt_or_gt_of_ne hv with hneg | hposv
  · have hw : truncated v = -m := by simp [truncated, floatValue, hneg, hm]
    rw [abs_of_neg hneg] at hbelow habove ⊢
    rw [hw, abs_neg, abs_of_pos hpos, abs_lt]
    exact ⟨mul_pos_of_neg_of_neg (by linarith) hneg, hbelow, by linarith, by linarith⟩
  · have hw : truncated v = m := by simp [truncated, floatValue, hposv.le.not_gt, hm]
    rw [abs_of_pos hposv] at hbelow habove ⊢
    rw [hw, abs_of_pos hpos, abs_lt]
    exact ⟨mul_pos hpos hposv, hbelow, by linarith, by linarith⟩

end Sys2Proof.Codec
end

section
/-! The codec functions as instructions (44_numeric_codec.md): one answer for every state, and the statements about
their values. -/

namespace Sys2Proof.Machine

open Sys2Proof.Claims

/-! What an instruction answers. -/

/-- The value a codec function returns; `none` stands for `InvalidArgument`. -/
def codecValue : Instr → Option Response
  | .split14 v => (Codec.split14 v).map .bytes
  | .join14 lo hi => (Codec.join14Operands lo hi).map .word
  | .encodeSigned32 value => (Codec.encodeSigned32 value).map .bytes
  | .decodeSigned32 b0 b1 b2 b3 b4 => some (.integer (Codec.decodeSigned32 b0 b1 b2 b3 b4))
  | .encodeCustomFloat value => (Codec.encodeCustomFloat value).map .bytes
  | .pack sign sig ef => (Codec.pack sign sig ef).map .bytes
  | .decodeCustomFloat b0 b1 b2 b3 => some (.rational (Codec.decodeCustomFloat b0 b1 b2 b3))
  | _ => none

/-- A codec function returns its value, in every state. -/
theorem exec_eq_returnValue {i : Instr} (hi : IsCodec i) (s : State) : exec i s = returnValue (codecValue i) s := by
  cases i with
  | split14 v => rfl
  | join14 lo hi => rfl
  | encodeSigned32 value => rfl
  | decodeSigned32 b0 b1 b2 b3 b4 => rfl
  | encodeCustomFloat value => rfl
  | pack sign sig ef => rfl
  | decodeCustomFloat b0 b1 b2 b3 => rfl
  | _ => exact hi.elim

theorem exec_of_codecValue {i : Instr} (hi : IsCodec i) {r : Response} (h : codecValue i = some r) (s : State) :
    exec i s = .next { s with returned := s.returned ++ [r] } := by
  rw [exec_eq_returnValue hi, h]
  rfl

/-- The value is missing exactly where the operand is outside the function's domain (R180, R202). -/
theorem codecValue_eq_none_iff {i : Instr} (hi : IsCodec i) (params : Params) :
    codecValue i = none ↔ OutOfRange params i := by
  cases i with
  | split14 v => exact Option.map_eq_none_iff.trans Codec.split14_eq_none_iff
  | join14 lo hi => exact Option.map_eq_none_iff.trans Codec.join14Operands_eq_none_iff
  | encodeSigned32 value => exact Option.map_eq_none_iff.trans Codec.encodeSigned32_eq_none_iff
  | decodeSigned32 b0 b1 b2 b3 b4 => exact ⟨nofun, False.elim⟩
  | encodeCustomFloat value => exact Option.map_eq_none_iff.trans Codec.encodeCustomFloat_eq_none_iff
  | pack sign sig ef => exact Option.map_eq_none_iff.trans Codec.pack_eq_none_iff
  | decodeCustomFloat b0 b1 b2 b3 => exact ⟨nofun, False.elim⟩
  | _ => exact hi.elim

/-- Outside its domain a codec function is refused. -/
theorem refuses_of_outOfRange {i : Instr} (hi : IsCodec i) {s : State} (h : OutOfRange s.params i) : Refuses i s := by
  rw [Refuses, exec_eq_returnValue hi, (codecValue_eq_none_iff hi s.params).2 h]
  rfl

/-- No value is an error. -/
theorem codecValue_ne_error (i : Instr) (e : EngineError) : codecValue i ≠ some (.error e) := by
  cases i <;> simp [codecValue]

/-- A function that finds the value `x` returns it. -/
theorem exec_of_map {α : Type} {i : Instr} (hi : IsCodec i) {f : α → Response} {v : Option α} {x : α}
    (hcodec : codecValue i = v.map f) (hv : v = some x) (s : State) :
    exec i s = .next { s with returned := s.returned ++ [f x] } :=
  exec_of_codecValue hi (by rw [hcodec, hv, Option.map_some]) s

/-! The statements. -/

/-- Settles O50: the groups of `split14` are the remainder and the quotient by 128, and `join14` adds them up again. -/
theorem split14AndJoin14 : Obligations.Split14AndJoin14 := by
  have hjoin (s : State) (lo hi : Byte) : exec (.join14 lo.toNat hi.toNat) s =
      .next { s with returned := s.returned ++ [.word (Codec.join14 lo hi)] } :=
    exec_of_map (i := .join14 lo.toNat hi.toNat) trivial rfl (Codec.join14Operands_bytes lo hi) s
  refine ⟨fun s v hv => ?_, fun s lo hi => ⟨_, hjoin s lo hi, Codec.join14_toNat lo hi⟩,
    fun s v hv => refuses_of_outOfRange (i := .split14 v) trivial hv,
    fun s lo hi h => refuses_of_outOfRange (i := .join14 lo hi) trivial h⟩
  set lo := BitVec.ofNat 8 (v.toNat % 128) with hlo
  set hi := BitVec.ofNat 8 (v.toNat / 128) with hhi
  have hlo_toNat : lo.toNat = v.toNat % 128 := by rw [hlo, BitVec.toNat_ofNat]; omega
  have hhi_toNat : hi.toNat = v.toNat / 128 := by rw [hhi, BitVec.toNat_ofNat]; omega
  have hback : Codec.join14 lo hi = BitVec.ofInt 15 v := by
    apply BitVec.eq_of_toNat_eq
    rw [Codec.join14_toNat_of_lt (by omega), BitVec.toNat_ofInt, hlo_toNat, hhi_toNat]
    omega
  refine ⟨lo, hi, exec_of_map (i := .split14 v) trivial rfl (Codec.split14_of_mem hv) s, ?_, ?_, ?_, ?_,
    hback ▸ hjoin s lo hi⟩ <;> omega

/-- Settles O51: the table of R182, and the refusal outside its domain. -/
theorem encodeSigned32Layout : Obligations.EncodeSigned32Layout := by
  intro s x
  constructor
  · intro hx
    exact ⟨exec_of_map (i := .encodeSigned32 x) trivial rfl (Codec.encodeSigned32_of_mem hx) s,
      Codec.toNat_lt_of_mem_signed32Bytes x⟩
  · exact refuses_of_outOfRange (i := .encodeSigned32 x) trivial

/-- Settles O52: the value of `decodeSigned32`, field by field. -/
theorem decodeSigned32IsTotal : Obligations.DecodeSigned32IsTotal := by
  intro s b0 b1 b2 b3 b4 m
  rw [← Codec.decodeSigned32_eq]
  exact exec_of_codecValue (i := .decodeSigned32 b0 b1 b2 b3 b4) trivial rfl s

/-- Settles O53: the fields of the table of R182 put together again. -/
theorem signed32RoundTrips : Obligations.Signed32RoundTrips := by
  intro s x hx
  obtain ⟨b0, b1, b2, b3, b4, hbytes, hvalue⟩ := Codec.decodeSigned32_signed32Bytes hx
  refine ⟨b0, b1, b2, b3, b4, ?_, ?_⟩
  · rw [← hbytes]
    exact exec_of_map (i := .encodeSigned32 x) trivial rfl (Codec.encodeSigned32_of_mem hx) s
  · rw [← hvalue]
    exact exec_of_codecValue (i := .decodeSigned32 b0 b1 b2 b3 b4) trivial rfl s

/-- Settles O54: the table of R186, and the refusal outside its domain. -/
theorem packLayout : Obligations.PackLayout := by
  intro s sign sig ef
  constructor
  · rintro ⟨hsign, hsig, hef⟩
    exact ⟨exec_of_map (i := .pack sign sig ef) trivial rfl (Codec.pack_of_mem ⟨hsign, hsig, hef⟩) s,
      Codec.toNat_lt_of_mem_floatBytes sig.toNat (by omega) (by omega)⟩
  · exact refuses_of_outOfRange (i := .pack sign sig ef) trivial

/-- Settles O55: both loops of R185 by `scaled_spec`, the bytes by the layout of R186. -/
theorem encodeCustomFloatFollowsTheAlgorithm : Obligations.EncodeCustomFloatFollowsTheAlgorithm := by
  refine ⟨fun s v hv => ?_, fun s => ⟨refuses_of_outOfRange (i := .encodeCustomFloat (.finite 0)) trivial (.inl rfl),
    refuses_of_outOfRange (i := .encodeCustomFloat .nonFinite) trivial (.inr rfl)⟩⟩
  obtain ⟨e0, k, j, hm0, hstop, hrun, hj, hle, hk, -, hval, he⟩ := Codec.scaled_spec v hv
  refine ⟨e0, k, j, hm0, hstop, hrun, hj, hle, hk, ?_⟩
  rw [← hval, ← Codec.significand_eq v hv, Int.toNat_natCast, ← he]
  exact exec_of_map (i := .encodeCustomFloat (.finite v)) trivial rfl (Codec.encodeCustomFloat_finite hv) s

/-- Settles O56: the value of `decodeCustomFloat`, field by field. -/
theorem decodeCustomFloatIsTotal : Obligations.DecodeCustomFloatIsTotal := by
  intro s b0 b1 b2 b3 sig ef
  exact exec_of_codecValue (i := .decodeCustomFloat b0 b1 b2 b3) trivial
    (congrArg (some ∘ Response.rational) (Codec.decodeCustomFloat_eq b0 b1 b2 b3)) s

/-- Settles O57: no field wraps, so what is decoded is `truncated v`, the scaled value rounded down at the final
exponent. -/
theorem customFloatTruncatesTowardZero : Obligations.CustomFloatTruncatesTowardZero := by
  intro s v hv hrange hpower
  have hsig := Codec.significand_lt hv hpower
  obtain ⟨hlo, hhi⟩ : -11 ≤ Codec.finalExponent v ∧ Codec.finalExponent v ≤ 4 := of_decide_eq_true hrange
  set ef := ((Codec.finalExponent v + 11) % 16).toNat with hef
  have hef_le : ef ≤ 15 := by omega
  have hexp : (ef : ℤ) - 11 = Codec.finalExponent v := by omega
  have henc := Codec.encodeCustomFloat_finite hv
  rw [Nat.mod_eq_of_lt hsig, ← hef] at henc
  obtain ⟨b0, b1, b2, b3, hbytes, hdec⟩ := Codec.decodeCustomFloat_floatBytes (negative := v < 0) hsig hef_le
  have hsmall := Codec.toNat_lt_of_mem_floatBytes (sign := if v < 0 then 1 else 0) (Codec.significand v)
    (by split <;> omega) hef_le
  rw [hbytes] at henc hsmall
  rw [hexp] at hdec
  obtain ⟨hsign, hle, hnear⟩ := Codec.truncated_bounds hv
  refine ⟨b0, b1, b2, b3, Codec.truncated v, exec_of_map (i := .encodeCustomFloat (.finite v)) trivial rfl henc s, ?_,
    hsign, hle, hnear, ?_⟩
  · exact exec_of_codecValue (i := .decodeCustomFloat b0 b1 b2 b3) trivial
      (congrArg (some ∘ Response.rational) hdec) s
  · simpa using hsmall

/-- Settles O58: the answer is the value or the error, and it is the error exactly where there is no value. -/
theorem codecFunctionsArePure : Obligations.CodecFunctionsArePure := by
  intro i hi
  refine ⟨(codecValue i).getD (.error .invalidArgument), fun s => ⟨?_, ?_⟩⟩
  · rw [exec_eq_returnValue hi, returnValue_eq]
    rfl
  · rw [← codecValue_eq_none_iff hi s.params]
    cases h : codecValue i with
    | none => simp
    | some r =>
      have hr : r ≠ .error .invalidArgument := fun hr => codecValue_ne_error i .invalidArgument (hr ▸ h)
      simp [hr]

end Sys2Proof.Machine
end

section
/-! Steps that run nothing, and calls, which always run and answer (R150, R152, R180, R204; log 1). -/

namespace Sys2Proof.Machine

/-- With nothing pending the step only begins. -/
theorem step_of_pending_nil {s : State} (hp : s.pending = []) : step s = .next (s.begin []) := by
  simp only [step, fetch, hp]

/-- A delivery of no byte has no row: it is taken off the queue and nothing runs. -/
theorem step_feed_nil {s : State} {queue : List Transaction} (hp : s.pending = .feed [] :: queue) :
    step s = .next (s.begin queue) := by
  simp only [step, fetch, hp, decode, decodeRx]

/-- Settles O8: the idle steps begin and end at once; a call answers by `exec_call`, in the state the step begins in. -/
theorem stepWithoutWork : Obligations.StepWithoutWork := by
  refine ⟨fun s hp => ?_, fun s queue hp => step_feed_nil hp, fun s c queue hp => ?_⟩
  · rw [step_of_pending_nil hp, State.begin, ← hp]
  · obtain ⟨t, r, ht, -, hpending, hreturned⟩ := exec_call c (s.begin queue)
    exact ⟨t, r, (step_call hp).trans ht, hpending, hreturned⟩

end Sys2Proof.Machine
end

section
/-! `InvalidArgument` and the operands out of range (R152, R180, R202): the operand checks of an encoder operation and
the domain of a codec function fail on exactly those, and no other outcome of an instruction holds that error. -/

namespace Sys2Proof.Machine

open Sys2Proof.Claims

/-! Where the operand checks fail. -/

theorem pinOperand_eq_none_iff {v : Int} : pinOperand v = none ↔ ¬(0 ≤ v ∧ v ≤ 127) := by
  simp [pinOperand]

theorem nibbleOperand_eq_none_iff {v : Int} : nibbleOperand v = none ↔ ¬(0 ≤ v ∧ v ≤ 15) := by
  simp [nibbleOperand]

theorem valueOperand_eq_none_iff {max : Nat} {v : Int} : valueOperand max v = none ↔ ¬(0 ≤ v ∧ v ≤ max) := by
  simp [valueOperand]

theorem stepperOperand_eq_none_iff {p : Params} {v : Int} :
    stepperOperand p v = none ↔ ¬(0 ≤ v ∧ v < p.nSteppers) := by
  simp [stepperOperand]

theorem levelOperand_eq_none_iff {v : Int} : levelOperand v = none ↔ ¬(v = 0 ∨ v = 1) := by
  refine ⟨fun h hv => ?_, levelOperand_none⟩
  rw [levelOperand_some hv] at h
  cases h

theorem modeOperand_eq_none_iff {v : Int} :
    modeOperand v = none ↔ v ∉ ([0, 1, 2, 3, 4, 5, 6, 11] : List Int) := by
  refine ⟨fun h hv => ?_, modeOperand_none⟩
  obtain ⟨⟨w, m⟩, hm, rfl⟩ : ∃ x ∈ pinModes, x.1 = v := List.mem_map.1 hv
  rw [modeOperand_some hm] at h
  cases h

/-- A check fails by itself when what follows it does not. -/
theorem bind_eq_none_iff_left {α β : Type} {a : Option α} {f : α → Option β} (hf : ∀ x, f x ≠ none) :
    a.bind f = none ↔ a = none := by
  cases a <;> simp [hf]

/-- Two checks in a row fail when one of them does. -/
theorem bind_bind_eq_none_iff {α β γ : Type} {a : Option α} {b : Option β} {f : α → β → Option γ}
    (hf : ∀ x y, f x y ≠ none) : (a.bind fun x => b.bind (f x)) = none ↔ a = none ∨ b = none := by
  cases a with
  | none => simp
  | some x => simpa using bind_eq_none_iff_left (hf x)

/-- An encoder operation has no plan exactly where an operand is out of its range (R152, R202). -/
theorem encoderPlan_eq_none_iff {i : Instr} (hi : IsEncoder i) (params : Params) (d : DeviceState) :
    encoderPlan params d i = none ↔ OutOfRange params i := by
  cases i with
  | setPinMode pin mode =>
    exact (bind_bind_eq_none_iff nofun).trans (or_congr pinOperand_eq_none_iff modeOperand_eq_none_iff)
  | digitalWrite pin value =>
    exact (bind_bind_eq_none_iff nofun).trans (or_congr pinOperand_eq_none_iff levelOperand_eq_none_iff)
  | analogWrite pin value =>
    exact (bind_bind_eq_none_iff nofun).trans (or_congr pinOperand_eq_none_iff valueOperand_eq_none_iff)
  | servoWrite pin value =>
    exact (bind_bind_eq_none_iff nofun).trans (or_congr pinOperand_eq_none_iff valueOperand_eq_none_iff)
  | sendSysex payload => exact ⟨nofun, False.elim⟩
  | reportAnalog channel enable => exact (bind_eq_none_iff_left nofun).trans nibbleOperand_eq_none_iff
  | reportDigital port enable => exact (bind_eq_none_iff_left nofun).trans nibbleOperand_eq_none_iff
  | stepperStep index steps =>
    exact (bind_bind_eq_none_iff nofun).trans (or_congr stepperOperand_eq_none_iff Codec.encodeSigned32_eq_none_iff)
  | _ => exact hi.elim

/-! The instructions that check operands, and the others. -/

/-- An instruction is a `feed`, `reset()`, an encoder operation or a codec function (R82). -/
theorem isFeed_or_reset_or_isEncoder_or_isCodec (i : Instr) : IsFeed i ∨ i = .reset ∨ IsEncoder i ∨ IsCodec i := by
  obtain hfeed | ⟨c, rfl⟩ := isFeed_or_decodeCall i
  · exact .inl hfeed
  refine .inr ?_
  cases c
  case reset => exact .inl rfl
  case setPinMode | digitalWrite | analogWrite | servoWrite | sendSysex | reportAnalog | reportDigital | stepperStep =>
    exact .inr (.inl trivial)
  case split14 | join14 | encodeSigned32 | decodeSigned32 | encodeCustomFloat | pack | decodeCustomFloat =>
    exact .inr (.inr trivial)

/-- Only those two kinds have operands that can be out of range. -/
theorem isEncoder_or_isCodec_of_outOfRange {params : Params} {i : Instr} (h : OutOfRange params i) :
    IsEncoder i ∨ IsCodec i := by
  cases i
  case setPinMode | digitalWrite | analogWrite | servoWrite | reportAnalog | reportDigital | stepperStep =>
    exact .inl trivial
  case split14 | join14 | encodeSigned32 | encodeCustomFloat | pack => exact .inr trivial
  all_goals exact h.elim

/-! What an instruction returns when its operands are in range. -/

/-- From `s` to `t` results were returned, and `InvalidArgument` is not among them. -/
def ReturnsNoInvalidArgument (s t : State) : Prop :=
  ∃ rs, t.returned = s.returned ++ rs ∧ .error .invalidArgument ∉ rs

theorem ReturnsNoInvalidArgument.of_one {s t : State} {r : Response} (h : t.returned = s.returned ++ [r])
    (hr : r ≠ .error .invalidArgument) : ReturnsNoInvalidArgument s t :=
  ⟨[r], h, fun hmem => hr (List.mem_singleton.1 hmem).symm⟩

theorem ReturnsNoInvalidArgument.trans {s t u : State} (hst : ReturnsNoInvalidArgument s t)
    (htu : ReturnsNoInvalidArgument t u) : ReturnsNoInvalidArgument s u := by
  obtain ⟨rs, ht, hrs⟩ := hst
  obtain ⟨qs, hu, hqs⟩ := htu
  exact ⟨rs ++ qs, by rw [hu, ht, List.append_assoc], by simp [hrs, hqs]⟩

theorem ReturnsNoInvalidArgument.not_mem {s t : State} (h : ReturnsNoInvalidArgument s t) {rs : List Response}
    (ht : t.returned = s.returned ++ rs) : .error .invalidArgument ∉ rs := by
  obtain ⟨qs, hqs, hmem⟩ := h
  exact List.append_cancel_left (ht.symm.trans hqs) ▸ hmem

/-- One byte returns `None`, an event or the overflow (R100, R117). -/
theorem feed_returnsNoInvalidArgument {b : Byte} {s t : State} (h : feed b s = .next t) :
    ReturnsNoInvalidArgument s t := by
  obtain ⟨-, r, hreturned, hr, -⟩ := feedReturnsOneResult b s t h
  refine .of_one hreturned ?_
  obtain rfl | ⟨ev, rfl, -⟩ | rfl := hr <;> exact nofun

theorem feedAll_returnsNoInvalidArgument {bs : List Byte} {s t : State} (h : feedAll bs s = .next t) :
    ReturnsNoInvalidArgument s t := by
  induction bs generalizing s with
  | nil => cases h; exact ⟨[], (List.append_nil _).symm, nofun⟩
  | cons b bs ih =>
    rw [feedAll_cons] at h
    cases hb : feed b s with
    | next u =>
      rw [hb] at h
      exact (feed_returnsNoInvalidArgument hb).trans (ih h)
    | fault r => rw [hb] at h; cases h
    | refused r => rw [hb] at h; cases h

/-- An `emit` returns `Ok` or the sink's failure (R151, R203). -/
theorem emitAndReturn_returnsNoInvalidArgument (frame : List Byte) (s : State) (d : DeviceState) :
    ReturnsNoInvalidArgument s (emitAndReturn frame (s.withDevice d)) := by
  obtain h | ⟨e, h⟩ := emitAndReturn_returned frame (s.withDevice d)
  · exact .of_one h nofun
  · exact .of_one h nofun

/-- With its operands in range no instruction returns `InvalidArgument`. -/
theorem exec_returnsNoInvalidArgument {i : Instr} {s t : State} (hi : ¬OutOfRange s.params i)
    (h : exec i s = .next t) : ReturnsNoInvalidArgument s t := by
  obtain ⟨bs, hbs⟩ | rfl | hencoder | hcodec := isFeed_or_reset_or_isEncoder_or_isCodec i
  · exact feedAll_returnsNoInvalidArgument (exec_of_encode_feed hbs s ▸ h)
  · cases h
    exact .of_one rfl nofun
  · rw [exec_eq_follow hencoder] at h
    cases hplan : encoderPlan s.params s.device i with
    | none => exact absurd ((encoderPlan_eq_none_iff hencoder _ _).1 hplan) hi
    | some plan =>
      rw [hplan] at h
      cases h
      exact emitAndReturn_returnsNoInvalidArgument plan.1 s plan.2
  · rw [exec_eq_returnValue hcodec] at h
    cases hvalue : codecValue i with
    | none => exact absurd ((codecValue_eq_none_iff hcodec _).1 hvalue) hi
    | some r =>
      rw [hvalue] at h
      cases h
      exact .of_one rfl fun hr => codecValue_ne_error i .invalidArgument (hr ▸ hvalue)

/-- Settles O37: out of range an encoder operation has no plan and a codec function no value; in range nothing returns
the error. -/
theorem invalidArgumentExactlyOutOfRange : Obligations.InvalidArgumentExactlyOutOfRange := by
  refine fun i s => ⟨fun h => ?_, fun t rs hexec hreturned hmem => ?_⟩
  · obtain hencoder | hcodec := isEncoder_or_isCodec_of_outOfRange h
    · exact refuses_of_plan hencoder ((encoderPlan_eq_none_iff hencoder _ _).2 h)
    · exact refuses_of_outOfRange hcodec h
  · by_contra hi
    exact (exec_returnsNoInvalidArgument hi hexec).not_mem hreturned hmem

end Sys2Proof.Machine
end

section
/-! `reset()` and construction (70_reset_and_hazards.md R230, R231): the parser returns to IDLE, and an RST transaction
gives parser and Device State their reset values. -/

namespace Sys2Proof.Machine

open Sys2Proof.Claims

@[simp] theorem DeviceState.pinModeAt_reset (q : Data7) : DeviceState.reset.pinModeAt q = .unconfigured := by
  simp [DeviceState.reset, DeviceState.pinModeAt]

@[simp] theorem DeviceState.analogValueAt_reset (c : Nibble) : DeviceState.reset.analogValueAt c = 0 := by
  simp [DeviceState.reset, DeviceState.analogValueAt]

/-- `mode <- IDLE` gives the canonical IDLE values (R28). -/
theorem isIdle_toIdle (p : ParserState) : IsIdle p.toIdle := ⟨rfl, rfl, rfl, rfl, rfl, rfl⟩

theorem isIdle_reset : IsIdle ParserState.reset := ⟨rfl, rfl, rfl, rfl, rfl, rfl⟩

/-- Settles O42: `reset()` is `toIdle` on the parser alone. -/
theorem resetReturnsTheParserToIdle : Obligations.ResetReturnsTheParserToIdle := fun s =>
  ⟨(s.withParser s.parser.toIdle).respond .ok, rfl, ⟨rfl, rfl, rfl, rfl, rfl⟩, rfl, isIdle_toIdle _, rfl, rfl, rfl⟩

/-- Settles O44: the step is `construct` in the state in which it begins, which keeps the environment's side. -/
theorem constructionIsAStep : Obligations.ConstructionIsAStep := fun _ _ hp =>
  ⟨_, step_construct hp, rfl, rfl, rfl, rfl, rfl, rfl, rfl⟩

/-- A constructed engine: its two groups of state (R20) at their reset values, and nothing returned. -/
structure IsConstructed (t : State) : Prop where
  parser : t.parser = ParserState.reset
  device : t.device = DeviceState.reset
  returned : t.returned = []

theorem isConstructed_reset : IsConstructed State.reset := ⟨rfl, rfl, rfl⟩

theorem isConstructed_of_step {s t : State} {queue : List Transaction} (hp : s.pending = .construct :: queue)
    (h : step s = .next t) : IsConstructed t := by
  rw [step_construct hp] at h
  cases h
  exact ⟨rfl, rfl, rfl⟩

/-- Settles O43: both ways lead to a constructed engine, and its registers read their reset values. -/
theorem constructionGivesTheResetValues : Obligations.ConstructionGivesTheResetValues := by
  intro t ht
  have hconstructed : IsConstructed t := by
    obtain rfl | ⟨s, queue, hp, hstep, -, -⟩ := ht
    · exact isConstructed_reset
    · exact isConstructed_of_step hp hstep
  obtain ⟨hparser, hdevice, hreturned⟩ := hconstructed
  rw [hparser, hdevice]
  exact ⟨isIdle_reset, fun _ => rfl, DeviceState.portAt_reset, DeviceState.pinModeAt_reset,
    DeviceState.pinAnalogChannelAt_reset, DeviceState.analogValueAt_reset, fun _ _ => rfl, DeviceState.stepperAt_reset,
    rfl, rfl, hreturned⟩

end Sys2Proof.Machine
end

section
/-! A frame longer than the buffer (70_reset_and_hazards.md R237): the buffer fills, the next byte reports the overflow
(R114), and what follows is discarded up to END_SYSEX (R115). -/

namespace Sys2Proof.Machine

open Sys2Proof.Claims

/-- START_SYSEX outside a frame and the payload bytes after it: the frame stays open with the payload in the buffer
(R106, R113). -/
theorem feedAll_openFrame {body : List Byte} {s : State} (hx : s.parser.inSysex = false)
    (hbody : ∀ x ∈ body, x ≠ Wire.endSysex) (hcap : body.length ≤ Config.sysexCap) :
    feedAll (Wire.startSysex :: body) s = .next { s with
      parser := { s.parser.atFrameStart.openSysex with
        sysexBuffer := Memory.putAll s.parser.sysexBuffer 0 body
        sysexLength := body.length }
      returned := s.returned ++ List.replicate (body.length + 1) .nothing } := by
  rw [feedAll_cons, feed_command _ s hx (by decide), idleDispatch_startSysex, andThen_next,
    feedAll_payload body _ rfl rfl hbody (by simpa using hcap)]
  simp [State.withParser, State.respond, List.replicate_succ]

/-- The rest of a frame after its overflow: every byte is dropped with a `None`, and END_SYSEX returns the parser to IDLE
(R115, R208). -/
theorem feedAll_discardFrame {tail : List Byte} {s : State} (hs : InOverflow s)
    (htail : ∀ x ∈ tail, x ≠ Wire.endSysex ∧ x ≠ Wire.startSysex) :
    feedAll (tail ++ [Wire.endSysex]) s = .next { s with
      parser := s.parser.toIdle
      returned := s.returned ++ List.replicate (tail.length + 1) .nothing } := by
  induction tail generalizing s with
  | nil => exact (feedAll_one _ s).trans (feed_eq_next_iff.2 (.discardEnd hs.inSysex hs.overflowed rfl))
  | cons b bs ih =>
    obtain ⟨⟨hend, hstart⟩, hbs⟩ := List.forall_mem_cons.1 htail
    have hb : feed b s = .next (s.respond .nothing) :=
      feed_eq_next_iff.2 (.discard hs.inSysex hs.overflowed hend hstart)
    have hstill : InOverflow (s.respond .nothing) := ⟨hs.inSysex, hs.overflowed⟩
    rw [List.cons_append, feedAll_cons, hb, andThen_next, ih hstill hbs]
    simp [State.respond, List.replicate_succ]

/-- Settles O24: the full frame, the byte that overflows it, and the discarded rest, one after the other. -/
theorem oversizedFrameIsReportedOnce : Obligations.OversizedFrameIsReportedOnce := by
  intro s body tail b hs hlen hbody hb htail
  have hopen := feedAll_openFrame (s := s) hs.inSysex hbody hlen.le
  have hcut : [0xF0] ++ body ++ [b] ++ tail ++ [0xF7] =
      (Wire.startSysex :: body) ++ b :: (tail ++ [Wire.endSysex]) := by simp [Wire.startSysex, Wire.endSysex]
  rw [hcut, feedAll_append, hopen, andThen_next, feedAll_cons, feed_overflow b _ (by rfl) (by rfl) hb
    (by exact hlen.ge), andThen_next, feedAll_discardFrame ⟨by rfl, by rfl⟩ htail]
  exact ⟨_, rfl, ⟨rfl, rfl, rfl, rfl, rfl⟩, rfl, isIdle_toIdle _, rfl⟩

end Sys2Proof.Machine
end

section
/-! A level that was reported is sent back (70_reset_and_hazards.md R240): `digitalWrite` emits the whole register, in
which an incoming DIGITAL_MESSAGE left the reported bits. -/

namespace Sys2Proof.Machine

open Sys2Proof.Claims

/-- Two data bytes in a register: the first holds bits 0 to 6, the second the bits from 7 on (R77, R110). -/
theorem getLsbD_of_toNat_eq {w : Word16} {l h : Data7} (hw : w.toNat = l.toNat + 128 * h.toNat) (k : Nat) :
    w.getLsbD k = if k < 7 then l.getLsbD k else h.getLsbD (k - 7) := by
  rw [BitVec.getLsbD, hw, Nat.add_comm, show 128 = 2 ^ 7 from rfl, Nat.testBit_two_pow_mul_add _ l.isLt]
  rfl

/-- A register whose bits 14 and 15 are 0 fits in two data bytes (R29). -/
theorem toNat_lt_of_getLsbD {w : Word16} (h : ∀ k, 14 ≤ k → k < 16 → w.getLsbD k = false) : w.toNat < 2 ^ 14 := by
  refine Nat.lt_pow_two_of_testBit _ fun k hk => ?_
  by_cases hlt : k < 16
  · exact h k hk hlt
  · exact BitVec.getLsbD_of_ge w k (by omega)

theorem getLsbD_ofNat_mod_128 {m k : Nat} (hk : k < 7) : (BitVec.ofNat 8 (m % 128)).getLsbD k = m.testBit k := by
  rw [BitVec.getLsbD_ofNat, show 128 = 2 ^ 7 from rfl, Nat.testBit_mod_two_pow]
  simp [hk, show k < 8 by omega]

theorem getLsbD_ofNat_div_128 {m k : Nat} (hk : k < 7) :
    (BitVec.ofNat 8 (m / 128)).getLsbD k = m.testBit (k + 7) := by
  rw [BitVec.getLsbD_ofNat, show 128 = 2 ^ 7 from rfl, Nat.testBit_div_two_pow]
  simp [show k < 8 by omega]

/-- Settles O41: the register bit by bit, first after the report (R110), then after the write (R154), and its two
halves on the wire. -/
theorem reportedBitsAreSentBack : Obligations.ReportedBitsAreSentBack := by
  intro s t u n l h pin value hs hpin hn hvalue hreport hwrite hok
  obtain ⟨t', ht', henv, -, -, hreported, -⟩ := digitalMessageOverwritesPort s n l h hs
  cases hreport.symm.trans ht'
  obtain ⟨u', hu', hemits, hbits, -⟩ := (digitalWriteReadModifiesWrites t pin value).1 ⟨hpin.1, hpin.2, hvalue⟩
  cases hwrite.symm.trans hu'
  have hport : BitVec.ofInt 4 (pin / 8) = n := by rw [hn, BitVec.ofInt_natCast, BitVec.ofNat_toNat, BitVec.setWidth_eq]
  simp only [hport] at hemits hbits
  have hbit {k : Nat} (hk : k < 16) : (u.device.portAt n).toNat.testBit k =
      if (k : Int) = pin % 8 then decide (value = 1) else if k < 7 then l.getLsbD k else h.getLsbD (k - 7) := by
    rw [← getLsbD_of_toNat_eq hreported]
    exact hbits k hk
  have hfits : (u.device.portAt n).toNat < 2 ^ 14 := toNat_lt_of_getLsbD fun k hlo hhi => by
    rw [BitVec.getLsbD, hbit hhi, if_neg (by omega), if_neg (by omega), BitVec.getLsbD_of_ge _ _ (by omega)]
  obtain ⟨htx, -⟩ := hemits.accepted hok
  refine ⟨_, _, henv.tx ▸ htx, ?_, ?_, fun k hk => ?_, fun k hk => ?_⟩
  · rw [BitVec.toNat_ofNat]; omega
  · rw [BitVec.toNat_ofNat]; omega
  · rw [getLsbD_ofNat_mod_128 hk, hbit (by omega), if_pos hk]
  · rw [getLsbD_ofNat_div_128 hk, hbit (by omega), if_neg (show ¬k + 7 < 7 by omega), Nat.add_sub_cancel]
    rfl

end Sys2Proof.Machine
end
